-- ==== Sys2Proof/Word.lean ====
section
/-! DEFINITION. The word type: every value the hardware handles is an unsigned 8-bit byte
(00_scope.md R7, 10_state.md R37, 42_bit_access.md R154), and the Transfer Status. -/
namespace Sys2Proof

/-- `DATA_BITS`, `DEV_BITS`, `REG_BITS`, `LEN_BITS` = 8 (00_scope.md R7). -/
abbrev Byte := BitVec 8

/-- A 7-bit slave address, `DEV[7:1]` (20_memory.md R51). -/
abbrev Addr7 := BitVec 7

/-- The Transfer Status: "one of {OK, write-collision, no-acknowledge} — no richer taxonomy"
(10_state.md R28, 60_exceptions.md R170). Its numeric codes are `Status.code` (30_encoding.md R92). -/
inductive Status where
  | ok
  | writeCollision
  | noAck
deriving DecidableEq, Repr, Inhabited

end Sys2Proof
end

