-- ==== Sys2Proof/Machine/Flags.lean ====
section
/-! DEFINITION. The hardware has no flag register (10_state.md R28): the Transfer Status is a returned value that nothing
stores. What acts as a predicate is listed by R29. -/
namespace Sys2Proof.Machine

/-- How a byte acts as a predicate: "treated as boolean: zero vs non-zero" (10_state.md R29, for `VALUE` of WriteBit in
42_bit_access.md R152 and for the result of ReadBit in R150). -/
def isNonzero (v : Byte) : Bool := v != 0

end Sys2Proof.Machine
end

