-- ==== Sys2Proof/Machine/Operands.lean ====
section
/-! DEFINITION. Operand forms and the 8-bit arithmetic of the bit commands: the address byte (30_encoding.md R84), the
bit-field operands (R85), the operand checks (R88, 42_bit_access.md R158) and the formulas of R150 to R156. -/
namespace Sys2Proof.Machine

/-- `shl8(v, k) = trunc8(v * 2^k)` (00_scope.md R8 notation). -/
def shl8 (v : Byte) (k : Nat) : Byte := v <<< k

/-- `shr8(v, k) = floor(v / 2^k)`, logical (00_scope.md R8 notation). -/
def shr8 (v : Byte) (k : Nat) : Byte := v >>> k

/-- The address byte in write form is `DEV` (30_encoding.md R84). -/
def writeForm (dev : Byte) : Byte := dev

/-- The address byte in read form is `DEV | 0x01` (30_encoding.md R84). -/
def readForm (dev : Byte) : Byte := dev ||| 0x01

/-- The byte with only bit `k` set, `shl8(1, k)`. -/
def bitMask (k : Nat) : Byte := shl8 1 k

/-- `LOW = BITSTART - FLEN + 1` (30_encoding.md R85), written `BITSTART + 1 - FLEN` so that no legal pair truncates. -/
def lowBit (bitstart flen : Byte) : Nat := bitstart.toNat + 1 - flen.toNat

/-- `FIELDMASK = shl8(2^FLEN - 1, LOW)` (30_encoding.md R85). -/
def fieldMask (bitstart flen : Byte) : Byte := shl8 (BitVec.ofNat 8 (2 ^ flen.toNat - 1)) (lowBit bitstart flen)

/-- `KEEP = ~FIELDMASK` (30_encoding.md R85, 42_bit_access.md R156). -/
def keepMask (bitstart flen : Byte) : Byte := ~~~ (fieldMask bitstart flen)

/-- The loop of ReadBits (42_bit_access.md R151): the OR of the single bits `bitstart`, `bitstart - 1`, ..., `n` of them. -/
def maskedBits (tmp : Byte) (bitstart : Nat) : Nat → Byte
  | 0 => 0x00
  | n + 1 => maskedBits tmp bitstart n ||| (tmp &&& bitMask (bitstart - n))

/-- The value ReadBit returns: `TMP & shl8(1, BITPOS)`, not normalised (42_bit_access.md R150). -/
def readBitValue (tmp bitpos : Byte) : Byte := tmp &&& bitMask bitpos.toNat

/-- The value ReadBits returns: the masked bits shifted right by `LOW` (42_bit_access.md R151). -/
def readBitsValue (tmp bitstart flen : Byte) : Byte :=
  shr8 (maskedBits tmp bitstart.toNat flen.toNat) (lowBit bitstart flen)

/-- The byte WriteBit writes back (42_bit_access.md R152). -/
def writeBitValue (tmp bitpos value : Byte) : Byte :=
  if isNonzero value then tmp ||| bitMask bitpos.toNat else tmp &&& ~~~ (bitMask bitpos.toNat)

/-- The double shift of WriteBits, in 8 bits (42_bit_access.md R153, R155). -/
def placedField (value bitstart flen : Byte) : Byte :=
  shr8 (shl8 value (8 - flen.toNat)) (7 - bitstart.toNat)

/-- The byte WriteBits writes back: `(TMP & KEEP) | f` (42_bit_access.md R153). -/
def writeBitsValue (tmp bitstart flen value : Byte) : Byte :=
  (tmp &&& keepMask bitstart flen) ||| placedField value bitstart flen

/-- `chk_dev`: `DEV[0] = 0` (30_encoding.md R84, R88). -/
def devOk (dev : Byte) : Bool := !dev.getLsbD 0

/-- `chk_bitpos`: `BITPOS ≤ 7` (30_encoding.md R88, 42_bit_access.md R158). -/
def bitposOk (bitpos : Byte) : Bool := bitpos.toNat ≤ 7

/-- `chk_field`: `BITSTART ≤ 7` and `1 ≤ FLEN ≤ 8` and `FLEN ≤ BITSTART + 1` (30_encoding.md R88, 42_bit_access.md
R154, R158). -/
def fieldOk (bitstart flen : Byte) : Bool :=
  bitstart.toNat ≤ 7 && 1 ≤ flen.toNat && flen.toNat ≤ 8 && flen.toNat ≤ bitstart.toNat + 1

end Sys2Proof.Machine
end

