-- ==== Sys2Proof/Config.lean ====
section
/-! DEFINITION. The free values: what the spec lets `ENV` draw "under no law" (10_state.md R35, 60_exceptions.md R178,
40_bus_primitives.md R113 and R114, decisions D15 and D25). They have no body, so nothing can be proved of a particular
value (assumption log 3). -/
namespace Sys2Proof

/-- The status `ENV` draws for the `n`-th answer it gives, where the environment held in the state does not fix it
(R113, R178, U4). Free value, assumption log 3. -/
opaque Config.drawStatus : Nat → Status

/-- The byte `ENV` draws for the `n`-th answer it gives, where the environment held in the state does not fix it
(R114, U5, D25). Free value, assumption log 3. -/
opaque Config.drawByte : Nat → Byte

/-- What a register of the fixture `SLAVE_REF` that is not mentioned holds: "Registers not mentioned hold 0x00"
(95_test_vectors.md section 1). -/
def Config.fixtureDefault : Byte := 0x00

end Sys2Proof
end

