-- ==== Sys2Proof/Syntax.lean ====
section
/-! DEFINITION. The syntax: the eight `SEQ` commands and the seven `BP` primitives, one constructor per row of
`opcode_table.json` (30_encoding.md R87 and R90). Every operand is a raw byte, so that an out-of-range operand can be
written down and refused (R86). The buffer of the two burst commands is an implicit operand (10_state.md R27). -/
namespace Sys2Proof

/-- One constructor per row of `opcode_table.json`. -/
inductive Instr where
  /-- `ReadBytes(DEV, REG, LEN, BUF)`, 41_byte_transfers.md R130. -/
  | readBytes (dev reg len : Byte)
  /-- `WriteBytes(DEV, REG, LEN, BUF)`, 41_byte_transfers.md R132. -/
  | writeBytes (dev reg len : Byte)
  /-- `ReadByte(DEV, REG)`, 41_byte_transfers.md R133. -/
  | readByte (dev reg : Byte)
  /-- `WriteByte(DEV, REG, VALUE)`, 41_byte_transfers.md R134. -/
  | writeByte (dev reg value : Byte)
  /-- `ReadBit(DEV, REG, BITPOS)`, 42_bit_access.md R150. -/
  | readBit (dev reg bitpos : Byte)
  /-- `ReadBits(DEV, REG, BITSTART, FLEN)`, 42_bit_access.md R151. -/
  | readBits (dev reg bitstart flen : Byte)
  /-- `WriteBit(DEV, REG, BITPOS, VALUE)`, 42_bit_access.md R152. -/
  | writeBit (dev reg bitpos value : Byte)
  /-- `WriteBits(DEV, REG, BITSTART, FLEN, VALUE)`, 42_bit_access.md R153. -/
  | writeBits (dev reg bitstart flen value : Byte)
  /-- `open-bus()`, 40_bus_primitives.md R110. -/
  | openBus
  /-- `restart-bus()`, 40_bus_primitives.md R111. -/
  | restartBus
  /-- `close-bus()`, 40_bus_primitives.md R112. -/
  | closeBus
  /-- `write-byte(byte)`, 40_bus_primitives.md R113. -/
  | sendByte (byte : Byte)
  /-- `read-byte()`, 40_bus_primitives.md R114. -/
  | receiveByte
  /-- `ack()`, 40_bus_primitives.md R115. -/
  | ack
  /-- `not-ack()`, 40_bus_primitives.md R116. -/
  | notAck
deriving DecidableEq, Repr

/-- The eight commands, without their operands: the values of the `OP` field in the source's order (R87). -/
inductive Opcode where
  | readBytes
  | writeBytes
  | readByte
  | writeByte
  | readBit
  | readBits
  | writeBit
  | writeBits
deriving DecidableEq, Repr

/-- The seven primitive requests `BP` accepts (30_encoding.md R90, 40_bus_primitives.md R110 to R116). -/
inductive Prim where
  | openBus
  | restartBus
  | closeBus
  | writeByte (byte : Byte)
  | readByte
  | ack
  | notAck
deriving DecidableEq, Repr

/-- The command an instruction is, none for a primitive. -/
def Instr.opcode? : Instr → Option Opcode
  | .readBytes _ _ _ => some .readBytes
  | .writeBytes _ _ _ => some .writeBytes
  | .readByte _ _ => some .readByte
  | .writeByte _ _ _ => some .writeByte
  | .readBit _ _ _ => some .readBit
  | .readBits _ _ _ _ => some .readBits
  | .writeBit _ _ _ _ => some .writeBit
  | .writeBits _ _ _ _ _ => some .writeBits
  | .openBus | .restartBus | .closeBus | .sendByte _ | .receiveByte | .ack | .notAck => none

/-- The primitive an instruction is, none for a command. -/
def Instr.prim? : Instr → Option Prim
  | .openBus => some .openBus
  | .restartBus => some .restartBus
  | .closeBus => some .closeBus
  | .sendByte b => some (.writeByte b)
  | .receiveByte => some .readByte
  | .ack => some .ack
  | .notAck => some .notAck
  | .readBytes _ _ _ | .writeBytes _ _ _ | .readByte _ _ | .writeByte _ _ _ | .readBit _ _ _ | .readBits _ _ _ _
  | .writeBit _ _ _ _ | .writeBits _ _ _ _ _ => none

end Sys2Proof
end

