-- ==== Sys2Proof/WellFormed.lean ====
section
/-! DEFINITION. Which instructions are well-formed: the operand checks of 30_encoding.md R88 that depend on the operands
alone (`chk_dev`, `chk_bitpos`, `chk_field`). `chk_idle` and `chk_buf` depend on the state and are made at issue. -/
namespace Sys2Proof

/-- The operand checks of R88, by value. A primitive has no operand to check (R90: any `DATA` of write-byte is legal). -/
def Instr.wellFormed : Instr → Bool
  | .readBytes dev _ _ => Machine.devOk dev
  | .writeBytes dev _ _ => Machine.devOk dev
  | .readByte dev _ => Machine.devOk dev
  | .writeByte dev _ _ => Machine.devOk dev
  | .readBit dev _ bitpos => Machine.devOk dev && Machine.bitposOk bitpos
  | .readBits dev _ bitstart flen => Machine.devOk dev && Machine.fieldOk bitstart flen
  | .writeBit dev _ bitpos _ => Machine.devOk dev && Machine.bitposOk bitpos
  | .writeBits dev _ bitstart flen _ => Machine.devOk dev && Machine.fieldOk bitstart flen
  | .openBus | .restartBus | .closeBus | .sendByte _ | .receiveByte | .ack | .notAck => true

/-- A well-formed instruction: its operands pass the checks of R88. -/
abbrev WellFormed (i : Instr) : Prop := i.wellFormed = true

end Sys2Proof
end

