-- ==== Sys2Proof/Decode.lean ====
section
/-! DEFINITION. Decoding and encoding: the command descriptor `CMD48` (30_encoding.md R86, R87, R89), the primitive
request `PRIM11` (R90) and the status codes (R92). The two formats are told apart by the interface a word is presented
at (HOST to SEQ, or SEQ to BP), so a word says which it is. -/
namespace Sys2Proof

/-- A word presented to the machine, at one of its two interfaces. -/
inductive Word where
  /-- A command descriptor, 48 bits (R86). -/
  | cmd48 (d : BitVec 48)
  /-- A primitive request, 11 bits (R90). -/
  | prim11 (r : BitVec 11)
deriving DecidableEq, Repr

/-- Why a word is no instruction. -/
inductive DecodeError where
  /-- A descriptor that matches no row of R87 (R89). -/
  | illegalDescriptor
  /-- `SEL = 7`, or non-zero `DATA` where zero is required (R90). -/
  | illegalPrimitive
deriving DecidableEq, Repr

/-- The number of the `OP` field (R87: "the order in which the document lists the operations"). -/
def Opcode.code : Opcode → Byte
  | .readBytes => 0x00
  | .writeBytes => 0x01
  | .readByte => 0x02
  | .writeByte => 0x03
  | .readBit => 0x04
  | .readBits => 0x05
  | .writeBit => 0x06
  | .writeBits => 0x07

/-- The fields of a descriptor, bits 47:40 down to 7:0 (R86). -/
structure Fields where
  op : Byte
  dev : Byte
  reg : Byte
  a : Byte
  b : Byte
  c : Byte
deriving DecidableEq, Repr

/-- Cut a descriptor into its six byte fields (R86). -/
def fieldsOf (d : BitVec 48) : Fields where
  op := d.extractLsb' 40 8
  dev := d.extractLsb' 32 8
  reg := d.extractLsb' 24 8
  a := d.extractLsb' 16 8
  b := d.extractLsb' 8 8
  c := d.extractLsb' 0 8

/-- Put six byte fields together into a descriptor (R86). -/
def descriptorOf (f : Fields) : BitVec 48 := f.op ++ f.dev ++ f.reg ++ f.a ++ f.b ++ f.c

/-- The opcode map (R87): `OP` selects the command and a field the command does not use must be zero; anything else is
illegal (R89). -/
def decodeFields (f : Fields) : Except DecodeError Instr :=
  if f.op = 0x00 ∧ f.b = 0 ∧ f.c = 0 then .ok (.readBytes f.dev f.reg f.a)
  else if f.op = 0x01 ∧ f.b = 0 ∧ f.c = 0 then .ok (.writeBytes f.dev f.reg f.a)
  else if f.op = 0x02 ∧ f.a = 0 ∧ f.b = 0 ∧ f.c = 0 then .ok (.readByte f.dev f.reg)
  else if f.op = 0x03 ∧ f.a = 0 ∧ f.b = 0 then .ok (.writeByte f.dev f.reg f.c)
  else if f.op = 0x04 ∧ f.b = 0 ∧ f.c = 0 then .ok (.readBit f.dev f.reg f.a)
  else if f.op = 0x05 ∧ f.c = 0 then .ok (.readBits f.dev f.reg f.a f.b)
  else if f.op = 0x06 ∧ f.b = 0 then .ok (.writeBit f.dev f.reg f.a f.c)
  else if f.op = 0x07 then .ok (.writeBits f.dev f.reg f.a f.b f.c)
  else .error .illegalDescriptor

/-- Decode a command descriptor (R87, R89). -/
def decodeDescriptor (d : BitVec 48) : Except DecodeError Instr := decodeFields (fieldsOf d)

/-- Decode a primitive request by `SEL` (bits 10:8) and `DATA` (bits 7:0) (R90). -/
def decodeRequest (r : BitVec 11) : Except DecodeError Instr :=
  let sel := r.extractLsb' 8 3
  let data : Byte := r.extractLsb' 0 8
  if sel = 3 then .ok (.sendByte data)
  else if data ≠ 0 then .error .illegalPrimitive
  else if sel = 0 then .ok .openBus
  else if sel = 1 then .ok .restartBus
  else if sel = 2 then .ok .closeBus
  else if sel = 4 then .ok .receiveByte
  else if sel = 5 then .ok .ack
  else if sel = 6 then .ok .notAck
  else .error .illegalPrimitive

/-- Decode a word: total, and an illegal word is rejected by name. -/
def decode : Word → Except DecodeError Instr
  | .cmd48 d => decodeDescriptor d
  | .prim11 r => decodeRequest r

/-- The word of a primitive request: `SEL` in bits 10:8, `DATA` in bits 7:0 (R90). -/
def requestOf (sel : BitVec 3) (data : Byte) : BitVec 11 := sel ++ data

/-- The word of an instruction, from the tables of R87 and R90. -/
def encode : Instr → Word
  | .readBytes dev reg len => .cmd48 (descriptorOf ⟨Opcode.readBytes.code, dev, reg, len, 0, 0⟩)
  | .writeBytes dev reg len => .cmd48 (descriptorOf ⟨Opcode.writeBytes.code, dev, reg, len, 0, 0⟩)
  | .readByte dev reg => .cmd48 (descriptorOf ⟨Opcode.readByte.code, dev, reg, 0, 0, 0⟩)
  | .writeByte dev reg value => .cmd48 (descriptorOf ⟨Opcode.writeByte.code, dev, reg, 0, 0, value⟩)
  | .readBit dev reg bitpos => .cmd48 (descriptorOf ⟨Opcode.readBit.code, dev, reg, bitpos, 0, 0⟩)
  | .readBits dev reg bitstart flen => .cmd48 (descriptorOf ⟨Opcode.readBits.code, dev, reg, bitstart, flen, 0⟩)
  | .writeBit dev reg bitpos value => .cmd48 (descriptorOf ⟨Opcode.writeBit.code, dev, reg, bitpos, 0, value⟩)
  | .writeBits dev reg bitstart flen value =>
      .cmd48 (descriptorOf ⟨Opcode.writeBits.code, dev, reg, bitstart, flen, value⟩)
  | .openBus => .prim11 (requestOf 0 0)
  | .restartBus => .prim11 (requestOf 1 0)
  | .closeBus => .prim11 (requestOf 2 0)
  | .sendByte b => .prim11 (requestOf 3 b)
  | .receiveByte => .prim11 (requestOf 4 0)
  | .ack => .prim11 (requestOf 5 0)
  | .notAck => .prim11 (requestOf 6 0)

/-- One row of `opcode_table.json`: a word `w` selects the row when `w & mask = match`. -/
structure CmdRow where
  opcode : Opcode
  pattern : BitVec 48
  mask : BitVec 48
deriving DecidableEq, Repr

/-- The opcode map's `match` and `mask` columns for `CMD48` (R87). -/
def cmdRows : List CmdRow :=
  [⟨.readBytes, 0x000000000000, 0xFF000000FFFF⟩, ⟨.writeBytes, 0x010000000000, 0xFF000000FFFF⟩,
   ⟨.readByte, 0x020000000000, 0xFF0000FFFFFF⟩, ⟨.writeByte, 0x030000000000, 0xFF0000FFFF00⟩,
   ⟨.readBit, 0x040000000000, 0xFF000000FFFF⟩, ⟨.readBits, 0x050000000000, 0xFF00000000FF⟩,
   ⟨.writeBit, 0x060000000000, 0xFF000000FF00⟩, ⟨.writeBits, 0x070000000000, 0xFF0000000000⟩]

/-- A descriptor selects a row of the opcode map (R87: `d & mask = match`). -/
def CmdRow.selects (row : CmdRow) (d : BitVec 48) : Bool := d &&& row.mask == row.pattern

/-- The 2-bit code of a status in the response to write-byte (R92): OK = 0, write-collision = 1, no-acknowledge = 2;
code 3 is reserved and no status has it. -/
def Status.code : Status → BitVec 2
  | .ok => 0
  | .writeCollision => 1
  | .noAck => 2

/-- The word of `nbits` bits whose bits are `w`, numbered as `opcode_table.json` numbers them: up to 16 bits a `PRIM11`
request (11 bits in two bytes, the upper five zero), up to 48 bits a `CMD48` descriptor. -/
def tableWord (nbits w : Nat) : Option Word :=
  if nbits ≤ 16 then (if w < 2 ^ 11 then some (.prim11 (BitVec.ofNat 11 w)) else none)
  else if nbits ≤ 48 then (if w < 2 ^ 48 then some (.cmd48 (BitVec.ofNat 48 w)) else none)
  else none

/-- The instruction the decoder reads from a word of the opcode table, none where it refuses. -/
def decodeTableWord (nbits w : Nat) : Option Instr :=
  match tableWord nbits w with
  | none => none
  | some word => (decode word).toOption

end Sys2Proof
end

