-- ==== Sys2Proof/Machine/State.lean ====
section
/-! DEFINITION. The state of the machine, as plain data: `SEQ`, `BP`, `TRACE`, what belongs to `HOST`, and `ENV`
(10_state.md R20 to R38). -/
namespace Sys2Proof.Machine

/-- One event of `TRACE` (10_state.md R34). -/
inductive Event where
  | opened
  | restarted
  | closed
  /-- `TX(b, st)`: byte sent and status returned. -/
  | tx (byte : Byte) (status : Status)
  /-- `RX(b)`: byte received. -/
  | rx (byte : Byte)
  | ack
  | nack
deriving DecidableEq, Repr

/-- The seven operand latches (10_state.md R24), "loaded together when a command is issued and holding no value when
`RUN = 0`": `none` is the spec's own "no value". -/
structure Latches where
  dev : Option Byte := none
  reg : Option Byte := none
  len : Option Byte := none
  bitpos : Option Byte := none
  bitstart : Option Byte := none
  flen : Option Byte := none
  value : Option Byte := none
deriving DecidableEq, Repr

/-- No latch holds a value. -/
def Latches.empty : Latches := {}

/-- A register file of a fixture slave: (register, byte) cells, registers strictly rising, no cell holding what an
unlisted register reads as. -/
abbrev Memory := List Host.Cell

/-- Which way a slave is selected (95_test_vectors.md section 1). -/
inductive Selected where
  | none
  | write
  | read
deriving DecidableEq, Repr

/-- The fixture `SLAVE_REF(a7)` (95_test_vectors.md section 1, D22): registers `R`, pointer `P`, `expect_addr`, `sel`,
`first`. -/
structure Slave where
  addr : Addr7
  regs : Memory := []
  ptr : Byte := 0
  expectAddr : Bool := false
  sel : Selected := .none
  first : Bool := false
deriving DecidableEq, Repr

/-- What is attached to the bus: nothing is known of it, or exactly these fixture slaves (none of them: an empty bus). -/
inductive Bus where
  | unknown
  | fixture (slaves : List Slave)
deriving DecidableEq, Repr

/-- A register changed by someone other than `SEQ` (20_memory.md R59, 70_reset_and_hazards.md R206). -/
structure Poke where
  addr : Addr7
  reg : Byte
  value : Byte
deriving DecidableEq, Repr

/-- How `ENV` answers one primitive request (10_state.md R35). `completes = false`: it never completes (R173).
`pokes`: the registers others changed before it while no transaction was open; only an open-bus has such a time before it
(20_memory.md R59, 60_exceptions.md R187), so with any other primitive they count for nothing. `reaches = false`: the attached slaves do not see it (R172: whether
the byte was sent is not said). `status`, `byte`: the answer where `ENV` fixes it otherwise than the attached slaves. -/
structure Move where
  completes : Bool := true
  pokes : List Poke := []
  reaches : Bool := true
  status : Option Status := none
  byte : Option Byte := none
deriving DecidableEq, Repr

/-- `ENV` leaves the answer to the attached slaves, or draws it. -/
def Move.free : Move := {}

/-- `ENV` as plain data (10_state.md R33, R35): its next answers, oldest first; what is attached to the bus; how many
answers it has given (the argument of the free values; the model's own). After the last of `moves` it answers `Move.free`.
Assumption log 2. -/
structure Env where
  moves : List Move := []
  bus : Bus := .unknown
  draws : Nat := 0
deriving DecidableEq, Repr

/-- What the issuer of a command, or the requester of a primitive, got back (30_encoding.md R91, 41_byte_transfers.md
R135). -/
inductive Response where
  | nothing
  | status (st : Status)
  | byte (b : Byte)
deriving DecidableEq, Repr

/-- What is presented to the machine next: a command descriptor with the buffer bound to it (`none`: the buffer `HOST`
holds), a primitive request at `BP`'s own interface, or the reset event. Assumption log 7. -/
inductive HostOp where
  | issue (d : BitVec 48) (buffer : Option (List Byte))
  | request (r : BitVec 11)
  | reset
deriving DecidableEq, Repr

/-- The state of the machine. -/
structure State where
  /-- `RUN`, 10_state.md R22. -/
  run : Bool
  /-- The running command (10_state.md R26, 41_byte_transfers.md R135). Assumption log 6. -/
  op : Option Opcode
  /-- `DEV`, `REG`, `LEN`, `BITPOS`, `BITSTART`, `FLEN`, `VALUE`, 10_state.md R24. -/
  latches : Latches
  /-- `TMP`, 10_state.md R25. -/
  tmp : Option Byte
  /-- `RES`, 10_state.md R25. -/
  res : Option Byte
  /-- `SEQ`, 10_state.md R26. -/
  seq : Option Nat
  /-- `IDX`, 10_state.md R26. -/
  idx : Option Nat
  /-- `OWNED`, 10_state.md R30. -/
  owned : Bool
  /-- The pending primitive, 10_state.md R31. -/
  pending : Option Prim
  /-- `TRACE`, oldest event first, 10_state.md R34. -/
  trace : List Event
  /-- `BUF`, `HOST`'s buffer bound to the command; its length is `BUF_CAP`. 10_state.md R27. -/
  buf : List Byte
  /-- What the last command or directly requested primitive that completed handed back (R91, R135). -/
  returned : Response
  /-- What `HOST` presents next, oldest first. -/
  program : List HostOp
  /-- `ENV`, 10_state.md R35. -/
  env : Env
deriving DecidableEq, Repr

/-- Why the machine has no further step. The hardware raises no exception (60_exceptions.md R174); these are verdicts of
the model. -/
inductive Fault where
  /-- Raised by a step while a pending primitive never completes: no agent has a further step (60_exceptions.md R173,
  41_byte_transfers.md R141). Safe: nothing is claimed beyond it. -/
  | hang
  /-- Raised by a read of a latch, `TMP`, `SEQ` or opcode that holds no value (10_state.md R38: "reading faults; no rule
  of this spec does so"). Safe. -/
  | emptyLatch
  /-- Raised by the sequencer at a position beyond `NPRIM`, which no run reaches (10_state.md R26). Safe. -/
  | badPosition
deriving DecidableEq, Repr

/-- Inputs the spec gives no meaning: `refuse(reason)` (60_exceptions.md R174). -/
inductive Refusal where
  /-- Raised by `exec` alone, for an instruction that has no meaning in the model yet. Safe. -/
  | notModelled (mnemonic : String)
  /-- `chk_idle`: a command issued while `RUN = 1` (10_state.md R23). Safe. -/
  | issueWhileRunning
  /-- `chk_dev`: `DEV[0] = 1` (30_encoding.md R84, R88). Safe. -/
  | devBit0Set
  /-- `chk_buf`: `BUF_CAP < LEN` (10_state.md R27, 30_encoding.md R88). Safe. -/
  | bufferTooShort
  /-- `chk_bitpos`: `BITPOS > 7` (30_encoding.md R88). Safe. -/
  | bitPositionOutOfRange
  /-- `chk_field`: no legal bit field (30_encoding.md R88, 42_bit_access.md R158). Safe. -/
  | bitFieldOutOfRange
  /-- Raised by a step: a descriptor that matches no row (30_encoding.md R89). Safe. -/
  | illegalDescriptor
  /-- Raised by a step: an illegal `PRIM11` request (30_encoding.md R90). Safe. -/
  | illegalPrimitive
  /-- `BP`: open-bus while `OWNED = 1`, or another primitive while `OWNED = 0` (10_state.md R30, 40_bus_primitives.md
  R120). Safe. -/
  | primitiveOutOfTransaction
  /-- `BP`: a request while another primitive is pending (20_memory.md R63). Safe. Assumption log 17. -/
  | primitivePending
  /-- The reset event while `RUN = 1` (70_reset_and_hazards.md R200, R201, U2). Safe. -/
  | resetWhileRunning
deriving DecidableEq, Repr

/-- `ENV` at reset: the spec leaves it unspecified (10_state.md R38). Assumption log 9. -/
def Env.reset : Env := {}

/-- The machine right after reset (10_state.md R38, 70_reset_and_hazards.md R200); for the fields of `HOST` and `ENV`,
which the spec gives no reset value, assumption log 9. -/
def State.reset : State where
  run := false
  op := none
  latches := Latches.empty
  tmp := none
  res := none
  seq := none
  idx := none
  owned := false
  pending := none
  trace := []
  buf := []
  returned := .nothing
  program := []
  env := Env.reset

end Sys2Proof.Machine
end

