-- ==== Sys2Proof/Machine/Memory.lean ====
section
/-! DEFINITION. The registers of a fixture slave as a canonical list of cells, and the fixture `SLAVE_REF` itself
(95_test_vectors.md section 1, decision D22). It is an environment, not hardware (10_state.md R33). -/
namespace Sys2Proof.Machine

/-- Read one register; an unlisted one holds `Config.fixtureDefault`. -/
def Memory.read : Memory → Nat → Byte
  | [], _ => Config.fixtureDefault
  | (k, v) :: m, a => if k = a then v else Memory.read m a

/-- Write one register, keeping the canonical form: writing the default removes the cell. -/
def Memory.write : Memory → Nat → Byte → Memory
  | [], a, v => if v = Config.fixtureDefault then [] else [(a, v)]
  | (k, w) :: m, a, v =>
    if k < a then (k, w) :: Memory.write m a v
    else if k = a then (if v = Config.fixtureDefault then m else (a, v) :: m)
    else if v = Config.fixtureDefault then (k, w) :: m
    else (a, v) :: (k, w) :: m

/-- The canonical form from key `lo` on: keys at least `lo` and strictly rising, no cell holding the default. -/
def Memory.wfFrom : Nat → Memory → Bool
  | _, [] => true
  | lo, (k, v) :: m => decide (lo ≤ k) && (v != Config.fixtureDefault) && Memory.wfFrom (k + 1) m

/-- The canonical form. -/
def Memory.wf (m : Memory) : Bool := Memory.wfFrom 0 m

/-- Read a register of a slave. -/
def Slave.reg (sl : Slave) (r : Byte) : Byte := sl.regs.read r.toNat

/-- Write a register of a slave. -/
def Slave.setReg (sl : Slave) (r v : Byte) : Slave := { sl with regs := sl.regs.write r.toNat v }

/-- What a slave contributes to an answer: whether it acknowledged the byte, and the byte it drove. -/
structure Reply where
  acked : Bool := false
  data : Option Byte := none
deriving DecidableEq, Repr

/-- `TX(b)` with `expect_addr`: the address byte. -/
def Slave.onAddress (sl : Slave) (b : Byte) : Slave × Reply :=
  if b.extractLsb' 1 7 = sl.addr then
    ({ sl with expectAddr := false, sel := if b.getLsbD 0 then .read else .write, first := true }, { acked := true })
  else ({ sl with expectAddr := false, sel := .none }, {})

/-- `TX(b)` without `expect_addr`: the first byte of a write sets the pointer, later ones are stored and advance it; a
slave not selected for writing does not acknowledge. -/
def Slave.onData (sl : Slave) (b : Byte) : Slave × Reply :=
  match sl.sel with
  | .write =>
    if sl.first then ({ sl with ptr := b, first := false }, { acked := true })
    else ({ sl.setReg sl.ptr b with ptr := sl.ptr + 1 }, { acked := true })
  | .read | .none => (sl, {})

/-- `RX`: a slave selected for reading returns `R[P]` and advances `P`. -/
def Slave.onReceive (sl : Slave) : Slave × Reply :=
  match sl.sel with
  | .read => ({ sl with ptr := sl.ptr + 1 }, { data := some (sl.reg sl.ptr) })
  | .write | .none => (sl, {})

/-- One row of the table of `SLAVE_REF` for each primitive (95_test_vectors.md section 1). -/
def Slave.observe (sl : Slave) : Prim → Slave × Reply
  | .openBus | .restartBus => ({ sl with expectAddr := true, sel := .none }, {})
  | .writeByte b => if sl.expectAddr then sl.onAddress b else sl.onData b
  | .readByte => sl.onReceive
  | .ack | .notAck | .closeBus => (sl, {})

/-- What the attached devices answer: a status if anything is known of them, a byte if one drives it. -/
structure Seen where
  status : Option Status := none
  byte : Option Byte := none
deriving DecidableEq, Repr

/-- The attached slaves observe a primitive. A byte sent is acknowledged when some slave acknowledges it; a byte received
is the one a selected slave drives. -/
def Bus.observe : Bus → Prim → Bus × Seen
  | .unknown, _ => (.unknown, {})
  | .fixture slaves, p =>
    let replies := slaves.map fun sl => sl.observe p
    (.fixture (replies.map Prod.fst),
     { status := some (if replies.any fun r => r.2.acked then .ok else .noAck),
       byte := replies.findSome? fun r => r.2.data })

/-- Someone other than `SEQ` changes one register (R59, R206). -/
def Bus.poke : Bus → Poke → Bus
  | .unknown, _ => .unknown
  | .fixture slaves, k => .fixture (slaves.map fun sl => if sl.addr = k.addr then sl.setReg k.reg k.value else sl)

/-- A register of a fixture slave as the bus address space has it: the slave's address and the register (20_memory.md
R50). `none` where no fixture slave answers to the address. -/
def Bus.register : Bus → Addr7 → Byte → Option Byte
  | .unknown, _, _ => none
  | .fixture slaves, a, r => (slaves.find? fun sl => sl.addr == a).map fun sl => sl.reg r

/-- Every slave's registers are in canonical form, and no two slaves have one address. -/
def Bus.wf : Bus → Bool
  | .unknown => true
  | .fixture slaves => slaves.all (fun sl => sl.regs.wf) && decide ((slaves.map Slave.addr).Nodup)

end Sys2Proof.Machine
end

