-- ==== Sys2Proof/Machine/Ops.lean ====
section
/-! DEFINITION. The named operations: `ENV`'s answer, the request and completion of a primitive at `BP`, the step tables
of the commands, and the sequencer that runs them. The hardware has no exception entry and no return (60_exceptions.md
R174, R179, R180): nothing here takes one. -/
namespace Sys2Proof.Machine

/-- The three outcomes of an operation. -/
abbrev Result (α : Type) := Host.Outcome α Fault Refusal

/-- Go on from a next value; a fault or a refusal ends the chain. -/
def andThen {α β : Type} : Result α → (α → Result β) → Result β
  | .next a, k => k a
  | .fault f, _ => .fault f
  | .refused r, _ => .refused r

/-- Go on where a check passes, refuse by name where it does not (30_encoding.md R88). -/
def require (check : Bool) (reason : Refusal) (go : Result State) : Result State :=
  if check then go else .refused reason

/-! ### `ENV` -/

/-- What `ENV` answers to a primitive that completes: the status, if it is a write-byte; the byte, if it is a read-byte. -/
structure Answer where
  status : Status
  byte : Byte
deriving DecidableEq, Repr

/-- How `ENV` will answer the next primitive request. -/
def Env.next (e : Env) : Move := e.moves.headD Move.free

/-- The bus a primitive finds. Other users of the bus and of the slaves' registers act between transactions only
(60_exceptions.md R187) and nothing interleaves with the bytes of one frame (20_memory.md R59), so what others changed is
there before an open-bus, the one primitive that is legal while `OWNED = 0` (10_state.md R30), and before no other.
Assumption log 12. -/
def Env.busAt (e : Env) : Prim → Bus
  | .openBus => e.next.pokes.foldl Bus.poke e.bus
  | .restartBus | .closeBus | .writeByte _ | .readByte | .ack | .notAck => e.bus

/-- `ENV` answers a primitive request (10_state.md R35): `none` if it never completes (R173). Otherwise the attached
slaves observe the primitive on the bus it finds, and the status and the byte are the ones `ENV`
fixes, else the attached slaves', else drawn (R113, R114, R178; free values, assumption log 3). -/
def Env.answer (e : Env) (p : Prim) : Option (Answer × Env) :=
  let m := e.next
  if m.completes then
    let bus := e.busAt p
    let seen := if m.reaches then bus.observe p else (bus, {})
    some ({ status := m.status.getD (seen.2.status.getD (Config.drawStatus e.draws)),
            byte := m.byte.getD (seen.2.byte.getD (Config.drawByte e.draws)) },
          { moves := e.moves.tail, bus := seen.1, draws := e.draws + 1 })
  else none

/-! ### `BP` (40_bus_primitives.md) -/

/-- Legality at the primitive interface: open-bus requires `OWNED = 0`, the other six `OWNED = 1` (R30, R120). -/
def legalWhen (owned : Bool) : Prim → Bool
  | .openBus => !owned
  | .restartBus | .closeBus | .writeByte _ | .readByte | .ack | .notAck => owned

/-- `OWNED` after the completion of a primitive: set by open-bus, cleared by close-bus (R110 to R116). -/
def ownedAfter (owned : Bool) : Prim → Bool
  | .openBus => true
  | .closeBus => false
  | .restartBus | .writeByte _ | .readByte | .ack | .notAck => owned

/-- The one event a completed primitive appends to `TRACE` (R118, R110 to R116). -/
def eventOf (p : Prim) (a : Answer) : Event :=
  match p with
  | .openBus => .opened
  | .restartBus => .restarted
  | .closeBus => .closed
  | .writeByte b => .tx b a.status
  | .readByte => .rx a.byte
  | .ack => .ack
  | .notAck => .nack

/-- What a completed primitive returns: write-byte a status, read-byte a byte, the others nothing (30_encoding.md R91). -/
def responseOf (p : Prim) (a : Answer) : Response :=
  match p with
  | .writeByte _ => .status a.status
  | .readByte => .byte a.byte
  | .openBus | .restartBus | .closeBus | .ack | .notAck => .nothing

/-- Request a primitive: refused where it is illegal, otherwise pending (R31, R117, R120). -/
def bpRequest (p : Prim) (s : State) : Result State :=
  require s.pending.isNone .primitivePending <|
  require (legalWhen s.owned p) .primitiveOutOfTransaction <|
  .next { s with pending := some p }

/-- Complete primitive `p` with `ENV`'s answer: the primitive's effect on `OWNED` and `TRACE` (R110 to R118). `none` if it
never completes: nothing of the effect is visible before completion (R117). -/
def bpComplete (p : Prim) (s : State) : Option (Answer × State) :=
  match s.env.answer p with
  | none => none
  | some (a, e) =>
    some (a, { s with pending := none, owned := ownedAfter s.owned p, trace := s.trace ++ [eventOf p a], env := e })

/-- Wait for the completion of primitive `p`, requested at `BP`'s own interface: the requester gets the response (R91), or
the primitive stays pending (R173). -/
def bpAwait (p : Prim) (s : State) : State :=
  match bpComplete p s with
  | none => s
  | some (a, s') => { s' with returned := responseOf p a }

/-- Perform a primitive presented at `BP`'s own interface: request it, then wait. -/
def perform (p : Prim) (s : State) : Result State :=
  andThen (bpRequest p s) fun s1 => .next (bpAwait p s1)

/-! ### The step tables of the commands (41_byte_transfers.md, 42_bit_access.md) -/

/-- Where the byte of a `WriteByteP` comes from. -/
inductive Source where
  /-- `DEV`: the address byte in write form (30_encoding.md R84). -/
  | devWrite
  /-- `DEV | 0x01`: the address byte in read form. -/
  | devRead
  | reg
  | value
  | tmp
  /-- `BUF[i]`. -/
  | buffer (i : Nat)
deriving DecidableEq, Repr

/-- One row of a step table: the primitive the sequencer issues, and what it does with the byte received or when the
frame is closed. A status received is dropped (41_byte_transfers.md R138). -/
inductive Row where
  | openBus
  | restartBus
  | closeBus
  /-- `Close()`, then `RES` is computed from `TMP` (R133, R150, R151). -/
  | closeResult
  /-- `Close()`, then `TMP` is changed (R152, R153). -/
  | closeModify
  | send (src : Source)
  /-- `BUF[i] <- ReadByteP()`. -/
  | receiveBuffer (i : Nat)
  /-- `TMP <- ReadByteP()`. -/
  | receiveTmp
  /-- The master's acknowledge of element `i`. -/
  | ack (i : Nat)
  | notAck (i : Nat)
deriving DecidableEq, Repr

/-- Start, address byte in write form, register address: how every frame begins (30_encoding.md R80, R81). -/
def openRows : List Row := [.openBus, .send .devWrite, .send .reg]

/-- The address phase of a read frame (R81; all of a zero-length read but the close, 41_byte_transfers.md R131). -/
def readPhaseRows : List Row := openRows ++ [.restartBus, .send .devRead]

/-- The loop of ReadBytes for `n` more elements from element `i` on: each is received and acknowledged, the last one
not-acknowledged (41_byte_transfers.md R130). -/
def readLoopRows (i : Nat) : Nat → List Row
  | 0 => []
  | n + 1 => .receiveBuffer i :: (if n = 0 then .notAck i else .ack i) :: readLoopRows (i + 1) n

/-- The loop of WriteBytes for `n` more elements from element `i` on (41_byte_transfers.md R132). -/
def writeLoopRows (i : Nat) : Nat → List Row
  | 0 => []
  | n + 1 => .send (.buffer i) :: writeLoopRows (i + 1) n

/-- The read frame of ReadByte, up to its close (41_byte_transfers.md R133). -/
def readByteRows (close : Row) : List Row := readPhaseRows ++ [.receiveTmp, .notAck 0, close]

/-- The write frame of WriteByte (41_byte_transfers.md R134). -/
def writeByteRows (src : Source) : List Row := openRows ++ [.send src, .closeBus]

/-- The step table of a command: the row at each value of `SEQ`, in order. It depends on the command and on `LEN` alone
(10_state.md R26, 41_byte_transfers.md R136, R138). -/
def plan (op : Opcode) (len : Nat) : List Row :=
  match op with
  | .readBytes => readPhaseRows ++ readLoopRows 0 len ++ [.closeBus]
  | .writeBytes => openRows ++ writeLoopRows 0 len ++ [.closeBus]
  | .readByte => readByteRows .closeResult
  | .writeByte => writeByteRows .value
  | .readBit => readByteRows .closeResult
  | .readBits => readByteRows .closeResult
  | .writeBit => readByteRows .closeModify ++ writeByteRows .tmp
  | .writeBits => readByteRows .closeModify ++ writeByteRows .tmp

/-- `NPRIM`, the number of primitives of a command (R130, R132, R133, R134, R150 to R153). -/
def nprim (op : Opcode) (len : Nat) : Nat :=
  match op with
  | .readBytes => 2 * len + 6
  | .writeBytes => len + 4
  | .readByte => 8
  | .writeByte => 5
  | .readBit => 8
  | .readBits => 8
  | .writeBit => 13
  | .writeBits => 13

/-! ### The sequencer `SEQ` -/

/-- Read a latch; one that holds no value faults (10_state.md R38). -/
def readLatch (l : Option Byte) : Result Byte :=
  match l with
  | some b => .next b
  | none => .fault .emptyLatch

/-- The byte a row sends. -/
def sourceByte (s : State) : Source → Result Byte
  | .devWrite => andThen (readLatch s.latches.dev) fun d => .next (writeForm d)
  | .devRead => andThen (readLatch s.latches.dev) fun d => .next (readForm d)
  | .reg => readLatch s.latches.reg
  | .value => readLatch s.latches.value
  | .tmp => readLatch s.tmp
  | .buffer i =>
    match s.buf[i]? with
    | some b => .next b
    | none => .refused .bufferTooShort

/-- The primitive a row issues. -/
def rowPrim (s : State) : Row → Result Prim
  | .openBus => .next .openBus
  | .restartBus => .next .restartBus
  | .closeBus | .closeResult | .closeModify => .next .closeBus
  | .send src => andThen (sourceByte s src) fun b => .next (.writeByte b)
  | .receiveBuffer _ | .receiveTmp => .next .readByte
  | .ack _ => .next .ack
  | .notAck _ => .next .notAck

/-- The element of the burst a row is at, where it is part of a burst (10_state.md R26 `IDX`). -/
def rowIndex : Row → Option Nat
  | .send (.buffer i) => some i
  | .receiveBuffer i => some i
  | .ack i => some i
  | .notAck i => some i
  | .openBus | .restartBus | .closeBus | .closeResult | .closeModify | .receiveTmp | .send .devWrite | .send .devRead
  | .send .reg | .send .value | .send .tmp => none

/-- `BUF[i] <- b`; the buffer has element `i` or the command has no defined behaviour (10_state.md R27). -/
def storeBuffer (i : Nat) (b : Byte) (s : State) : Result State :=
  require (decide (i < s.buf.length)) .bufferTooShort (.next { s with buf := s.buf.set i b })

/-- `RES` from `TMP` (R133, R150, R151). A command without a result has no row that asks for it. -/
def resultByte (s : State) (tmp : Byte) : Result Byte :=
  match s.op with
  | some .readByte => .next tmp
  | some .readBit => andThen (readLatch s.latches.bitpos) fun p => .next (readBitValue tmp p)
  | some .readBits =>
    andThen (readLatch s.latches.bitstart) fun b =>
    andThen (readLatch s.latches.flen) fun n => .next (readBitsValue tmp b n)
  | some .readBytes | some .writeBytes | some .writeByte | some .writeBit | some .writeBits | none => .fault .emptyLatch

/-- The byte a read-modify-write command writes back, from the byte read (R152, R153). -/
def modifiedByte (s : State) (tmp : Byte) : Result Byte :=
  match s.op with
  | some .writeBit =>
    andThen (readLatch s.latches.bitpos) fun p =>
    andThen (readLatch s.latches.value) fun v => .next (writeBitValue tmp p v)
  | some .writeBits =>
    andThen (readLatch s.latches.bitstart) fun b =>
    andThen (readLatch s.latches.flen) fun n =>
    andThen (readLatch s.latches.value) fun v => .next (writeBitsValue tmp b n v)
  | some .readBytes | some .writeBytes | some .readByte | some .writeByte | some .readBit | some .readBits | none =>
    .fault .emptyLatch

/-- What the sequencer does with a completed row: the byte received goes to `BUF[i]` or `TMP`, the result or the changed
byte is computed when the read frame is closed; every status is dropped (41_byte_transfers.md R138). -/
def deliver (r : Row) (a : Answer) (s : State) : Result State :=
  match r with
  | .receiveBuffer i => storeBuffer i a.byte s
  | .receiveTmp => .next { s with tmp := some a.byte }
  | .closeResult =>
    andThen (readLatch s.tmp) fun t => andThen (resultByte s t) fun b => .next { s with res := some b }
  | .closeModify =>
    andThen (readLatch s.tmp) fun t => andThen (modifiedByte s t) fun b => .next { s with tmp := some b }
  | .openBus | .restartBus | .closeBus | .send _ | .ack _ | .notAck _ => .next s

/-- The sequencer issues the primitive of a row, unless it is already pending. -/
def requestRow (r : Row) (s : State) : Result State :=
  if s.pending.isSome then .next s
  else andThen (rowPrim s r) fun p => bpRequest p { s with idx := (rowIndex r).or s.idx }

/-- One position of the sequencer: issue the row's primitive and wait for it. On completion the answer is delivered and
`SEQ` increases by exactly 1 (10_state.md R26); a primitive that never completes stays pending (R141). -/
def doRow (r : Row) (s : State) : Result State :=
  andThen (requestRow r s) fun s1 =>
    match s1.pending with
    | none => .next s1
    | some p =>
      match bpComplete p s1 with
      | none => .next s1
      | some (a, s2) => andThen (deliver r a s2) fun s3 => .next { s3 with seq := s3.seq.map (· + 1) }

/-- Completion at `SEQ = NPRIM`: `RES`, if there is one, is handed to `HOST`, `RUN <- 0`, the latches hold no value
(41_byte_transfers.md R135). -/
def finish (s : State) : State :=
  { s with
    run := false, op := none, latches := Latches.empty, tmp := none, res := none, seq := none, idx := none
    returned := match s.res with
      | some b => .byte b
      | none => .nothing }

/-- Run the rest of a step table: each row after the completion of the one before, then completion. A primitive that
never completes ends the run in the hung state of 41_byte_transfers.md R141. -/
def runRows : List Row → State → Result State
  | [], s => .next (finish s)
  | r :: rs, s =>
    andThen (doRow r s) fun s' => if s'.pending.isSome then .next s' else runRows rs s'

/-- The step table of the running command. -/
def currentPlan (s : State) : Result (List Row) :=
  match s.op with
  | some .readBytes => andThen (readLatch s.latches.len) fun n => .next (plan .readBytes n.toNat)
  | some .writeBytes => andThen (readLatch s.latches.len) fun n => .next (plan .writeBytes n.toNat)
  | some .readByte => .next (plan .readByte 1)
  | some .writeByte => .next (plan .writeByte 1)
  | some .readBit => .next (plan .readBit 1)
  | some .readBits => .next (plan .readBits 1)
  | some .writeBit => .next (plan .writeBit 1)
  | some .writeBits => .next (plan .writeBits 1)
  | none => .fault .emptyLatch

/-- Go on with the running command from position `SEQ` to its completion (41_byte_transfers.md R135). -/
def goOn (s : State) : Result State :=
  match s.seq with
  | none => .fault .emptyLatch
  | some k =>
    andThen (currentPlan s) fun rows => if k ≤ rows.length then runRows (rows.drop k) s else .fault .badPosition

/-- Load the operand latches and start: `RUN <- 1`, `SEQ <- 0` (41_byte_transfers.md R135). -/
def load (op : Opcode) (l : Latches) (s : State) : State :=
  { s with run := true, op := some op, latches := l, tmp := none, res := none, seq := some 0, idx := some 0 }

/-- A command that passed its own checks is loaded and run. Nothing may be pending at `BP`: a primitive is not issued until
the one before it has completed (20_memory.md R63, assumption log 17). -/
def launch (op : Opcode) (l : Latches) (s : State) : Result State :=
  require s.pending.isNone .primitivePending <| goOn (load op l s)

/-- The two checks every command is issued under, in their order (30_encoding.md R88): `chk_idle`, `chk_dev`. -/
def issueChecks (dev : Byte) (s : State) (go : Result State) : Result State :=
  require (!s.run) .issueWhileRunning <| require (devOk dev) .devBit0Set go

/-- `chk_buf` (30_encoding.md R88): `BUF_CAP ≥ LEN`. -/
def bufferOk (len : Byte) (s : State) : Bool := len.toNat ≤ s.buf.length

/-! ### Reset (70_reset_and_hazards.md) -/

/-- The reset event: applied only while `RUN = 0` (R200; during a command it is outside the model, R201). Every piece of
state has the value of 10_state.md R38; `ENV` is not touched, nor what belongs to `HOST`. -/
def resetEvent (s : State) : Result State :=
  require (!s.run) .resetWhileRunning <|
  .next { State.reset with buf := s.buf, returned := s.returned, program := s.program, env := s.env }

end Sys2Proof.Machine
end

