-- ==== Sys2Proof/Machine/BitAccess.lean ====
section
/-! DEFINITION. The meanings of the bit and bit-field commands (42_bit_access.md). -/
namespace Sys2Proof.Machine

/-- `ReadBit` (R150): ReadByte, then `RES <- TMP & shl8(1, BITPOS)`. -/
def execReadBit (dev reg bitpos : Byte) (s : State) : Host.Outcome State Fault Refusal :=
  issueChecks dev s <| require (bitposOk bitpos) .bitPositionOutOfRange <|
  launch .readBit { dev := some dev, reg := some reg, bitpos := some bitpos } s

/-- `ReadBits` (R151): ReadByte, then `RES` is the field right-aligned. -/
def execReadBits (dev reg bitstart flen : Byte) (s : State) : Host.Outcome State Fault Refusal :=
  issueChecks dev s <| require (fieldOk bitstart flen) .bitFieldOutOfRange <|
  launch .readBits { dev := some dev, reg := some reg, bitstart := some bitstart, flen := some flen } s

/-- `WriteBit` (R152): ReadByte, set or clear the bit, WriteByte. -/
def execWriteBit (dev reg bitpos value : Byte) (s : State) : Host.Outcome State Fault Refusal :=
  issueChecks dev s <| require (bitposOk bitpos) .bitPositionOutOfRange <|
  launch .writeBit { dev := some dev, reg := some reg, bitpos := some bitpos, value := some value } s

/-- `WriteBits` (R153): ReadByte, replace the field, WriteByte. -/
def execWriteBits (dev reg bitstart flen value : Byte) (s : State) : Host.Outcome State Fault Refusal :=
  issueChecks dev s <| require (fieldOk bitstart flen) .bitFieldOutOfRange <|
  launch .writeBits
    { dev := some dev, reg := some reg, bitstart := some bitstart, flen := some flen, value := some value } s

end Sys2Proof.Machine
end

