-- ==== Sys2Proof/Machine/ByteTransfers.lean ====
section
/-! DEFINITION. The meanings of the byte and burst transfer commands (41_byte_transfers.md). -/
namespace Sys2Proof.Machine

/-- `ReadBytes` (R130, R131): a read frame of `LEN` bytes into `BUF`. -/
def execReadBytes (dev reg len : Byte) (s : State) : Host.Outcome State Fault Refusal :=
  issueChecks dev s <| require (bufferOk len s) .bufferTooShort <|
  launch .readBytes { dev := some dev, reg := some reg, len := some len } s

/-- `WriteBytes` (R132): a write frame of `LEN` bytes from `BUF`. -/
def execWriteBytes (dev reg len : Byte) (s : State) : Host.Outcome State Fault Refusal :=
  issueChecks dev s <| require (bufferOk len s) .bufferTooShort <|
  launch .writeBytes { dev := some dev, reg := some reg, len := some len } s

/-- `ReadByte` (R133): a read frame of one byte into `TMP`, which becomes `RES`. -/
def execReadByte (dev reg : Byte) (s : State) : Host.Outcome State Fault Refusal :=
  issueChecks dev s <| launch .readByte { dev := some dev, reg := some reg } s

/-- `WriteByte` (R134): a write frame of the one byte `VALUE`. -/
def execWriteByte (dev reg value : Byte) (s : State) : Host.Outcome State Fault Refusal :=
  issueChecks dev s <| launch .writeByte { dev := some dev, reg := some reg, value := some value } s

end Sys2Proof.Machine
end

