-- ==== Sys2Proof/Machine/Primitives.lean ====
section
/-! DEFINITION. The meanings of the seven bus primitives (40_bus_primitives.md). -/
namespace Sys2Proof.Machine

/-- `open-bus()`: `require OWNED = 0; OWNED <- 1; TRACE ++ [OPEN]` (R110). -/
def execOpenBus (s : State) : Host.Outcome State Fault Refusal := perform .openBus s

/-- `restart-bus()`: `require OWNED = 1; TRACE ++ [RESTART]` (R111). -/
def execRestartBus (s : State) : Host.Outcome State Fault Refusal := perform .restartBus s

/-- `close-bus()`: `require OWNED = 1; OWNED <- 0; TRACE ++ [CLOSE]` (R112). -/
def execCloseBus (s : State) : Host.Outcome State Fault Refusal := perform .closeBus s

/-- `write-byte(b) → status`: `require OWNED = 1; TRACE ++ [TX(b, st)]; return st`, `st` by `ENV` (R113). -/
def execSendByte (b : Byte) (s : State) : Host.Outcome State Fault Refusal := perform (.writeByte b) s

/-- `read-byte() → byte`: `require OWNED = 1; TRACE ++ [RX(b)]; return b`, `b` by `ENV` (R114). -/
def execReceiveByte (s : State) : Host.Outcome State Fault Refusal := perform .readByte s

/-- `ack()`: `require OWNED = 1; TRACE ++ [ACK]` (R115). -/
def execAck (s : State) : Host.Outcome State Fault Refusal := perform .ack s

/-- `not-ack()`: `require OWNED = 1; TRACE ++ [NACK]` (R116). -/
def execNotAck (s : State) : Host.Outcome State Fault Refusal := perform .notAck s

end Sys2Proof.Machine
end

