-- ==== Sys2Proof/Machine/Dispatch.lean ====
section
/-! DEFINITION. One arm per instruction, each one direct call of its meaning. -/
namespace Sys2Proof.Machine

/-- What an instruction does. -/
def exec (i : Instr) (s : State) : Host.Outcome State Fault Refusal :=
  match i with
  | .readBytes dev reg len => Sys2Proof.Machine.execReadBytes dev reg len s
  | .writeBytes dev reg len => Sys2Proof.Machine.execWriteBytes dev reg len s
  | .readByte dev reg => Sys2Proof.Machine.execReadByte dev reg s
  | .writeByte dev reg value => Sys2Proof.Machine.execWriteByte dev reg value s
  | .readBit dev reg bitpos => Sys2Proof.Machine.execReadBit dev reg bitpos s
  | .readBits dev reg bitstart flen => Sys2Proof.Machine.execReadBits dev reg bitstart flen s
  | .writeBit dev reg bitpos value => Sys2Proof.Machine.execWriteBit dev reg bitpos value s
  | .writeBits dev reg bitstart flen value => Sys2Proof.Machine.execWriteBits dev reg bitstart flen value s
  | .openBus => Sys2Proof.Machine.execOpenBus s
  | .restartBus => Sys2Proof.Machine.execRestartBus s
  | .closeBus => Sys2Proof.Machine.execCloseBus s
  | .sendByte byte => Sys2Proof.Machine.execSendByte byte s
  | .receiveByte => Sys2Proof.Machine.execReceiveByte s
  | .ack => Sys2Proof.Machine.execAck s
  | .notAck => Sys2Proof.Machine.execNotAck s

end Sys2Proof.Machine
end

