-- ==== Sys2Proof/Machine/HostPort.lean ====
section
/-! DEFINITION. What is presented to the machine and how it is taken: `HOST`'s side of the issue handshake
(41_byte_transfers.md R135, 60_exceptions.md R190). Assumption log 7. -/
namespace Sys2Proof.Machine

/-- The refusal of a word that is no instruction (30_encoding.md R89, R90). -/
def refusalOf : DecodeError → Refusal
  | .illegalDescriptor => .illegalDescriptor
  | .illegalPrimitive => .illegalPrimitive

/-- Decode a presented word and run it; a word that is no instruction is refused without touching the bus (R89). -/
def runWord (w : Word) (s : State) : Host.Outcome State Fault Refusal :=
  match decode w with
  | .ok i => exec i s
  | .error e => .refused (refusalOf e)

/-- Bind the buffer presented with a command; without one `HOST`'s buffer stays bound (10_state.md R27, D6). -/
def bindBuffer (b : Option (List Byte)) (s : State) : State :=
  match b with
  | some buf => { s with buf := buf }
  | none => s

/-- Take what is presented: a descriptor with its buffer, a primitive request, or the reset event. -/
def accept (op : HostOp) (s : State) : Host.Outcome State Fault Refusal :=
  match op with
  | .issue d b => runWord (.cmd48 d) (bindBuffer b s)
  | .request r => runWord (.prim11 r) s
  | .reset => resetEvent s

/-- The agent with an enabled step takes it (10_state.md R20). A pending primitive is polled: if it never completes no
agent has a step (60_exceptions.md R173), otherwise the command goes on, or the direct requester gets its response. With
nothing pending a running command goes on. Idle, `HOST` presents what is next; with nothing to present it stays idle. -/
def advance (s : State) : Host.Outcome State Fault Refusal :=
  match s.pending with
  | some p =>
    if s.env.next.completes then (if s.run then goOn s else .next (bpAwait p s)) else .fault .hang
  | none =>
    if s.run then goOn s
    else match s.program with
      | [] => .next s
      | op :: rest => accept op { s with program := rest }

/-- What presents a word of the opcode table. -/
def presenting : Word → HostOp
  | .cmd48 d => .issue d none
  | .prim11 r => .request r

/-- The buffer a word needs: a burst command must be given a buffer of capacity at least `LEN` (60_exceptions.md R190), so
one that is too short is lengthened with zero bytes; any other word leaves it alone. Assumption log 8. -/
def suitBuffer (w : Word) (buf : List Byte) : List Byte :=
  match decode w with
  | .ok (.readBytes _ _ len) => buf ++ List.replicate (len.toNat - buf.length) 0
  | .ok (.writeBytes _ _ len) => buf ++ List.replicate (len.toNat - buf.length) 0
  | _ => buf

/-- Present a word next: in front of everything `HOST` has to present, with a buffer that suits it. -/
def present (w : Word) (s : State) : State :=
  { s with program := presenting w :: s.program, buf := suitBuffer w s.buf }

end Sys2Proof.Machine
end

