-- ==== Sys2Proof/Machine/Step.lean ====
section
/-! DEFINITION. One step of the machine. -/
namespace Sys2Proof.Machine

/-- One step: next, fault or refusal. -/
def step (s : State) : Host.Outcome State Fault Refusal := advance s

/-- `s` with a word of the opcode table presented next, so that the next step of an idle machine runs it. A word that is
none of the table's leaves `s` as it is. -/
def State.withFetchWord (s : State) (nbits w : Nat) : State :=
  match tableWord nbits w with
  | some word => present word s
  | none => s

end Sys2Proof.Machine
end

