-- ==== Sys2Proof/Safety.lean ====
section
/-! DEFINITION. The terms claims use: the launch premise, the premises on `ENV`, what "no state between commands" means,
the invariant of the machine, and the wire frames (30_encoding.md R80, R81). -/
namespace Sys2Proof.Machine

/-! ### Premises -/

/-- `BOOT_OK` (70_reset_and_hazards.md R202) as far as state shows it: the bus is idle and no command runs. -/
def BootOk (s : State) : Prop := s.run = false ∧ s.owned = false ∧ s.pending = none

/-- `ENV` completes each of the next `n` primitives (60_exceptions.md R173: the premise a claim that a command completes
takes). -/
def Env.CompletesFor (e : Env) (n : Nat) : Prop := ∀ m ∈ e.moves.take n, m.completes = true

/-- `ENV` completes the next `k` primitives and never the one after (R173). -/
def Env.HangsAt (e : Env) (k : Nat) : Prop := e.CompletesFor k ∧ (e.moves.drop k).head?.any (fun m => !m.completes) = true

/-- The attached slaves alone answer: every primitive completes, nobody else changes a register (`EXCLUSIVE`,
20_memory.md R62), and every status and byte is the slaves'. -/
def Env.Undisturbed (e : Env) : Prop := ∀ m ∈ e.moves, m = Move.free

/-- Exactly one fixture slave is attached, and `ENV` is `SLAVE_REF` of it, undisturbed (95_test_vectors.md section 1). -/
def Env.IsFixture (e : Env) (sl : Slave) : Prop := e.Undisturbed ∧ e.bus = .fixture [sl]

/-- `EXCLUSIVE` (20_memory.md R62) with every protocol element seen by the attached slaves: nobody else changes a register,
and only the statuses, the bytes and the completions are `ENV`'s to choose. -/
def Env.Exclusive (e : Env) : Prop := ∀ m ∈ e.moves, m.pokes = [] ∧ m.reaches = true

/-- The instruction of a row of the opcode map (30_encoding.md R87): the command with its operands taken from the fields
`DEV`, `REG`, `A`, `B`, `C` of R86. -/
def commandOf (op : Opcode) (dev reg a b c : Byte) : Instr :=
  match op with
  | .readBytes => .readBytes dev reg a
  | .writeBytes => .writeBytes dev reg a
  | .readByte => .readByte dev reg
  | .writeByte => .writeByte dev reg c
  | .readBit => .readBit dev reg a
  | .readBits => .readBits dev reg a b
  | .writeBit => .writeBit dev reg a c
  | .writeBits => .writeBits dev reg a b c

/-- The latches an instruction loads (30_encoding.md R86, 10_state.md R24); a primitive loads none. -/
def instrLatches : Instr → Latches
  | .readBytes dev reg len => { dev := some dev, reg := some reg, len := some len }
  | .writeBytes dev reg len => { dev := some dev, reg := some reg, len := some len }
  | .readByte dev reg => { dev := some dev, reg := some reg }
  | .writeByte dev reg value => { dev := some dev, reg := some reg, value := some value }
  | .readBit dev reg bitpos => { dev := some dev, reg := some reg, bitpos := some bitpos }
  | .readBits dev reg bitstart flen => { dev := some dev, reg := some reg, bitstart := some bitstart, flen := some flen }
  | .writeBit dev reg bitpos value =>
    { dev := some dev, reg := some reg, bitpos := some bitpos, value := some value }
  | .writeBits dev reg bitstart flen value =>
    { dev := some dev, reg := some reg, bitstart := some bitstart, flen := some flen, value := some value }
  | .openBus | .restartBus | .closeBus | .sendByte _ | .receiveByte | .ack | .notAck => {}

/-- How many buffer elements an instruction needs: `LEN` of the burst commands (30_encoding.md R88 `chk_buf`). -/
def bufferNeed : Instr → Nat
  | .readBytes _ _ len => len.toNat
  | .writeBytes _ _ len => len.toNat
  | .readByte _ _ | .writeByte _ _ _ | .readBit _ _ _ | .readBits _ _ _ _ | .writeBit _ _ _ _ | .writeBits _ _ _ _ _
  | .openBus | .restartBus | .closeBus | .sendByte _ | .receiveByte | .ack | .notAck => 0

/-- The number of data bytes of a command's frame (30_encoding.md R93): `LEN`, or one. -/
def burstLength : Instr → Nat
  | .readBytes _ _ len => len.toNat
  | .writeBytes _ _ len => len.toNat
  | .readByte _ _ | .writeByte _ _ _ | .readBit _ _ _ | .readBits _ _ _ _ | .writeBit _ _ _ _ | .writeBits _ _ _ _ _
  | .openBus | .restartBus | .closeBus | .sendByte _ | .receiveByte | .ack | .notAck => 1

/-- The step table of an instruction that is a command; empty for a primitive. -/
def planOf (i : Instr) : List Row :=
  match i.opcode? with
  | some op => plan op (burstLength i)
  | none => []

/-- `NPRIM` of an instruction that is a command; one for a primitive. -/
def nprimOf (i : Instr) : Nat :=
  match i.opcode? with
  | some op => nprim op (burstLength i)
  | none => 1

/-- A command may be issued and no check of 30_encoding.md R88 fails: `BOOT_OK`, legal operands, buffer long enough. -/
def Ready (i : Instr) (s : State) : Prop := BootOk s ∧ WellFormed i ∧ bufferNeed i ≤ s.buf.length

/-- The registers an instruction that is a command stores to, as (slave address, register): the device of its address byte
and, for data byte `k` sent, register `REG + k` (20_memory.md R54, R84 of 30_encoding.md). -/
def storedRegisters : Instr → List (Addr7 × Byte)
  | .writeBytes dev reg len =>
    (List.range len.toNat).map fun k => (dev.extractLsb' 1 7, reg + BitVec.ofNat 8 k)
  | .writeByte dev reg _ => [(dev.extractLsb' 1 7, reg)]
  | .writeBit dev reg _ _ => [(dev.extractLsb' 1 7, reg)]
  | .writeBits dev reg _ _ _ => [(dev.extractLsb' 1 7, reg)]
  | .readBytes _ _ _ | .readByte _ _ | .readBit _ _ _ | .readBits _ _ _ _
  | .openBus | .restartBus | .closeBus | .sendByte _ | .receiveByte | .ack | .notAck => []

/-! ### Between commands -/

/-- The sequencer holds no state (10_state.md R21, R24, R25, R38). -/
def Quiet (s : State) : Prop :=
  s.run = false ∧ s.op = none ∧ s.latches = Latches.empty ∧ s.tmp = none ∧ s.res = none ∧ s.seq = none ∧ s.idx = none

/-- A command has completed (41_byte_transfers.md R135): the sequencer holds no state, the bus is free, nothing is
pending. -/
def Completed (t : State) : Prop := Quiet t ∧ t.owned = false ∧ t.pending = none

/-- A command is hung (41_byte_transfers.md R141): it still runs, and a primitive is pending. -/
def Hung (t : State) : Prop := t.run = true ∧ t.pending.isSome = true

/-- What every completed command leaves, besides its result: `Completed`, `HOST`'s queue untouched, and exactly `NPRIM`
answers of `ENV` used (10_state.md R26). -/
def CompletedFrom (i : Instr) (s t : State) : Prop :=
  Completed t ∧ t.program = s.program ∧ t.env.moves = s.env.moves.drop (nprimOf i) ∧
  t.env.draws = s.env.draws + nprimOf i

/-! ### The invariant -/

/-- `OWNED` after the rows of a step table: set by the open-bus of a frame, cleared by its close-bus (10_state.md R30). -/
def ownedAfterRows : List Row → Bool
  | [] => false
  | rows@(_ :: _) =>
    match rows.getLast? with
    | some .closeBus | some .closeResult | some .closeModify => false
    | _ => true

/-- The sequencer runs command `i` and is at position `k` of its step table, in every piece of its state (10_state.md R24
to R27, R30). -/
structure RunningAt (i : Instr) (k : Nat) (s : State) : Prop where
  /-- The operands passed the checks of 30_encoding.md R88. -/
  wellFormed : WellFormed i
  /-- The buffer is long enough. -/
  buffer : bufferNeed i ≤ s.buf.length
  /-- The running command is `i`. -/
  op : s.op = i.opcode?
  /-- `i` is a command. -/
  command : s.op.isSome = true
  /-- The latches are the ones `i` loads. -/
  latches : s.latches = instrLatches i
  /-- `SEQ` is `k`. -/
  seq : s.seq = some k
  /-- `IDX` holds a value. -/
  idx : s.idx.isSome = true
  /-- `SEQ ≤ NPRIM`. -/
  bound : k ≤ (planOf i).length
  /-- `OWNED` is as the rows before `SEQ` leave it. -/
  owned : s.owned = ownedAfterRows ((planOf i).take k)
  /-- `TMP` holds a value once a byte was received into it. -/
  tmp : Row.receiveTmp ∈ (planOf i).take k → s.tmp.isSome = true
  /-- `RES` holds a value exactly once it was computed. -/
  res : s.res.isSome = true ↔ Row.closeResult ∈ (planOf i).take k
  /-- A pending primitive is the one of the row at `SEQ`. -/
  pending : ∀ p, s.pending = some p → ∃ r, (planOf i)[k]? = some r ∧ rowPrim s r = .next p

/-- The invariant: between commands the sequencer holds no state, and while a command runs every piece of state is where
its step table says. -/
def Coherent (s : State) : Prop :=
  (s.run = false → Quiet s) ∧ (s.run = true → ∃ i k, RunningAt i k s)

/-! ### Wire frames -/

/-- The request an event answers: the event without the status or the byte that came back. -/
def Event.request : Event → Prim
  | .opened => .openBus
  | .restarted => .restartBus
  | .closed => .closeBus
  | .tx b _ => .writeByte b
  | .rx _ => .readByte
  | .ack => .ack
  | .nack => .notAck

/-- The byte an event received, if it received one. -/
def Event.received : Event → Option Byte
  | .rx b => some b
  | .opened | .restarted | .closed | .tx _ _ | .ack | .nack => none

/-- The data part of a read frame (30_encoding.md R81): each byte is followed by `ACK`, the last one by `NACK`. -/
def readData : List Byte → List Event
  | [] => []
  | [d] => [.rx d, .nack]
  | d :: e :: ds => .rx d :: .ack :: readData (e :: ds)

/-- The read frame (30_encoding.md R81) with the three statuses and the bytes received. -/
def readFrame (dev reg : Byte) (sa sr sd : Status) (ds : List Byte) : List Event :=
  [.opened, .tx dev sa, .tx reg sr, .restarted, .tx (dev ||| 0x01) sd] ++ readData ds ++ [.closed]

/-- The data part of a write frame: the bytes sent, each with its status. -/
def writeData : List Byte → List Status → List Event
  | d :: ds, st :: sts => .tx d st :: writeData ds sts
  | _, _ => []

/-- The write frame (30_encoding.md R80) with the statuses returned for each byte. -/
def writeFrame (dev reg : Byte) (sa sr : Status) (ds : List Byte) (sts : List Status) : List Event :=
  [.opened, .tx dev sa, .tx reg sr] ++ writeData ds sts ++ [.closed]

end Sys2Proof.Machine
end

