-- ==== Sys2Proof/Certificates/Slice0/Obligations.lean ====
section
/-! DEFINITION. The statements for the provers. Each docstring names the rule of the spec it formalises. -/
open Sys2Proof Sys2Proof.Machine

/-! ### Encoding -/

/-- The descriptors of 95_test_vectors.md section 3.1 and the requests of section 3.2 decode as the tables there say (a
descriptor that section 3.1 refuses for an operand decodes first), and so do one WriteBytes and one WriteBit of section 4
(P2, P7). -/
def Obligations.SampleWordsDecode : Prop :=
  decode (.cmd48 0x005010030000) = .ok (.readBytes 0x50 0x10 0x03) ∧
  decode (.cmd48 0x005010000000) = .ok (.readBytes 0x50 0x10 0x00) ∧
  decode (.cmd48 0x005010040000) = .ok (.readBytes 0x50 0x10 0x04) ∧
  decode (.cmd48 0x015020030000) = .ok (.writeBytes 0x50 0x20 0x03) ∧
  decode (.cmd48 0x0150100200FF) = .error .illegalDescriptor ∧
  decode (.cmd48 0x025010000000) = .ok (.readByte 0x50 0x10) ∧
  decode (.cmd48 0x025010010000) = .error .illegalDescriptor ∧
  decode (.cmd48 0x0350100000AB) = .ok (.writeByte 0x50 0x10 0xAB) ∧
  decode (.cmd48 0x035110000000) = .ok (.writeByte 0x51 0x10 0x00) ∧
  decode (.cmd48 0x045010070000) = .ok (.readBit 0x50 0x10 0x07) ∧
  decode (.cmd48 0x045010080000) = .ok (.readBit 0x50 0x10 0x08) ∧
  decode (.cmd48 0x055010040300) = .ok (.readBits 0x50 0x10 0x04 0x03) ∧
  decode (.cmd48 0x055010020400) = .ok (.readBits 0x50 0x10 0x02 0x04) ∧
  decode (.cmd48 0x055010040000) = .ok (.readBits 0x50 0x10 0x04 0x00) ∧
  decode (.cmd48 0x055010070900) = .ok (.readBits 0x50 0x10 0x07 0x09) ∧
  decode (.cmd48 0x055010070800) = .ok (.readBits 0x50 0x10 0x07 0x08) ∧
  decode (.cmd48 0x065010000000) = .ok (.writeBit 0x50 0x10 0x00 0x00) ∧
  decode (.cmd48 0x065010020001) = .ok (.writeBit 0x50 0x10 0x02 0x01) ∧
  decode (.cmd48 0x0750100403FA) = .ok (.writeBits 0x50 0x10 0x04 0x03 0xFA) ∧
  decode (.cmd48 0x085010000000) = .error .illegalDescriptor ∧
  decode (.cmd48 0xFF0000000000) = .error .illegalDescriptor ∧
  decode (.prim11 0x000) = .ok .openBus ∧ decode (.prim11 0x100) = .ok .restartBus ∧
  decode (.prim11 0x200) = .ok .closeBus ∧ decode (.prim11 0x350) = .ok (.sendByte 0x50) ∧
  decode (.prim11 0x352) = .ok (.sendByte 0x52) ∧ decode (.prim11 0x3AB) = .ok (.sendByte 0xAB) ∧
  decode (.prim11 0x400) = .ok .receiveByte ∧ decode (.prim11 0x500) = .ok .ack ∧
  decode (.prim11 0x600) = .ok .notAck ∧
  decode (.prim11 0x700) = .error .illegalPrimitive ∧ decode (.prim11 0x401) = .error .illegalPrimitive

/-- Decoding the word of an instruction gives the instruction back, with every operand at every value (the layouts of
30_encoding.md R86, R87, R90). -/
def Obligations.DecodeInvertsEncode : Prop := ∀ i : Instr, decode (encode i) = .ok i

/-- A word that decodes is the word of what it decodes to: no two words stand for one instruction, and no bit of a legal
word is ignored (30_encoding.md R87: "A field the command does not use must be zero", R90). -/
def Obligations.EncodeInvertsDecode : Prop := ∀ (w : Word) (i : Instr), decode w = .ok i → encode i = w

/-- The `match` and `mask` columns of the opcode map: a descriptor `d` selects the row when `d & mask = match`, and exactly
then it decodes to that row's command with `DEV`, `REG`, `A`, `B`, `C` taken from bits 39:32, 31:24, 23:16, 15:8, 7:0
(30_encoding.md R86, R87). -/
def Obligations.DescriptorDecodesByMatchAndMask : Prop :=
  ∀ (d : BitVec 48) (row : CmdRow), row ∈ cmdRows →
    (row.selects d = true ↔
      decode (.cmd48 d) = .ok (commandOf row.opcode (d.extractLsb' 32 8) (d.extractLsb' 24 8) (d.extractLsb' 16 8)
        (d.extractLsb' 8 8) (d.extractLsb' 0 8)))

/-- A descriptor that matches no row is illegal, and one that matches a row is not (30_encoding.md R89); presented by
`HOST` to an idle machine it is refused. -/
def Obligations.UnmatchedDescriptorIsRefused : Prop :=
  ∀ (d : BitVec 48),
    ((∀ row ∈ cmdRows, row.selects d = false) ↔ decode (.cmd48 d) = .error .illegalDescriptor) ∧
    ∀ (s : State) (b : Option (List Byte)) (rest : List HostOp), s.run = false → s.pending = none →
      s.program = .issue d b :: rest → (∀ row ∈ cmdRows, row.selects d = false) →
      step s = .refused .illegalDescriptor

/-- A primitive request is illegal exactly when `SEL = 7`, or `DATA` is non-zero and `SEL` is not 3 (30_encoding.md R90);
presented to an idle machine it is then refused. -/
def Obligations.IllegalRequestIsRefused : Prop :=
  ∀ (r : BitVec 11),
    (decode (.prim11 r) = .error .illegalPrimitive ↔
      (r.extractLsb' 8 3 = 7 ∨ (r.extractLsb' 8 3 ≠ 3 ∧ r.extractLsb' 0 8 ≠ 0))) ∧
    ∀ (s : State) (rest : List HostOp), s.run = false → s.pending = none → s.program = .request r :: rest →
      decode (.prim11 r) = .error .illegalPrimitive → step s = .refused .illegalPrimitive

/-! ### A step -/

/-- A step of an idle machine runs the instruction presented: a descriptor with the buffer bound to it, or a primitive
request; what it adds to `exec` is taking the entry off the queue and binding the buffer. The queue is the model's
(assumption log 7). -/
def Obligations.StepRunsThePresentedInstruction : Prop :=
  ∀ (s : State) (rest : List HostOp) (i : Instr), s.run = false → s.pending = none →
    (∀ d b, s.program = .issue d (some b) :: rest → decode (.cmd48 d) = .ok i →
      step s = exec i { s with program := rest, buf := b }) ∧
    (∀ d, s.program = .issue d none :: rest → decode (.cmd48 d) = .ok i →
      step s = exec i { s with program := rest }) ∧
    (∀ r, s.program = .request r :: rest → decode (.prim11 r) = .ok i →
      step s = exec i { s with program := rest })

/-- A word of the opcode table placed with `withFetchWord` is what the next step of an idle machine runs, with a buffer of
at least `LEN` elements (assumption log 8). -/
def Obligations.FetchWordIsRunByTheNextStep : Prop :=
  ∀ (s : State) (nbits w : Nat) (i : Instr), s.run = false → s.pending = none →
    decodeTableWord nbits w = some i →
    step (s.withFetchWord nbits w) =
      exec i { s with buf := s.buf ++ List.replicate (bufferNeed i - s.buf.length) 0 }

/-- The reset event, taken while `RUN = 0`, gives every piece of the hardware's state the value of the reset table and does
not touch `ENV`; while `RUN = 1` there is none (70_reset_and_hazards.md R200, R201; 10_state.md R38). That `HOST`'s own
buffer, queue and last result stay is the model's choice (assumption log 10). -/
def Obligations.ResetEventRestoresResetValues : Prop :=
  ∀ (s : State) (rest : List HostOp),
    (s.run = false → s.pending = none → s.program = .reset :: rest →
      ∃ t, step s = .next t ∧ t.run = false ∧ t.owned = false ∧ t.pending = none ∧ t.latches = Latches.empty ∧
        t.tmp = none ∧ t.res = none ∧ t.seq = none ∧ t.idx = none ∧ t.op = none ∧ t.trace = [] ∧
        t.env = s.env ∧ t.buf = s.buf ∧ t.returned = s.returned ∧ t.program = rest) ∧
    (s.run = true → resetEvent s = .refused .resetWhileRunning)

/-- The reset values of 10_state.md R38: idle, bus not owned, nothing pending, every latch without a value, `TRACE`
empty. -/
def Obligations.ResetStateHasResetValues : Prop :=
  core.reset.run = false ∧ core.reset.owned = false ∧ core.reset.pending = none ∧
  core.reset.latches.dev = none ∧ core.reset.latches.reg = none ∧ core.reset.latches.len = none ∧
  core.reset.latches.bitpos = none ∧ core.reset.latches.bitstart = none ∧ core.reset.latches.flen = none ∧
  core.reset.latches.value = none ∧ core.reset.tmp = none ∧ core.reset.res = none ∧
  core.reset.seq = none ∧ core.reset.idx = none ∧ core.reset.trace = []

/-- An idle machine with nothing presented stays as it is: `HOST` alone has an enabled step between commands (10_state.md
R20, R21). -/
def Obligations.IdleMachineStaysIdle : Prop :=
  ∀ s : State, s.run = false → s.pending = none → s.program = [] → step s = .next s

/-! ### Primitives -/

/-- open-bus: encoded `SEL = 0, DATA = 0`; with `OWNED = 0` and nothing pending it sets `OWNED` and appends `OPEN` when
`ENV` completes it, and returns nothing; if `ENV` never completes it, it stays pending and nothing else changes
(assumption log 4); with `OWNED = 1` it is refused (40_bus_primitives.md R110). It is the first primitive of every
command. -/
def Obligations.OpenBusTakesTheBus : Prop :=
  encode .openBus = .prim11 0x000 ∧
  (∀ s : State, s.pending = none → s.owned = false →
    (∀ a e, s.env.answer .openBus = some (a, e) →
      exec .openBus s =
        .next { s with owned := true, trace := s.trace ++ [.opened], returned := .nothing, env := e }) ∧
    (s.env.next.completes = false → exec .openBus s = .next { s with pending := some .openBus })) ∧
  (∀ s : State, s.pending = none → s.owned = true → exec .openBus s = .refused .primitiveOutOfTransaction) ∧
  (∀ i : Instr, i.opcode?.isSome = true → (planOf i).head? = some .openBus)

/-- restart-bus: encoded `SEL = 1, DATA = 0`; with `OWNED = 1` it appends `RESTART`, `OWNED` stays 1, nothing is
returned; if `ENV` never completes it, it stays pending and nothing else changes (assumption log 4)
(40_bus_primitives.md R111). With `OWNED = 0` it is refused. -/
def Obligations.RestartBusKeepsTheBus : Prop :=
  encode .restartBus = .prim11 0x100 ∧
  (∀ s : State, s.pending = none → s.owned = true →
    (∀ a e, s.env.answer .restartBus = some (a, e) →
      exec .restartBus s = .next { s with trace := s.trace ++ [.restarted], returned := .nothing, env := e }) ∧
    (s.env.next.completes = false → exec .restartBus s = .next { s with pending := some .restartBus })) ∧
  (∀ s : State, s.pending = none → s.owned = false → exec .restartBus s = .refused .primitiveOutOfTransaction)

/-- close-bus: encoded `SEL = 2, DATA = 0`; with `OWNED = 1` it clears `OWNED` and appends `CLOSE`, nothing is returned;
if `ENV` never completes it, it stays pending and nothing else changes (assumption log 4); with `OWNED = 0` it is
refused. It is the last primitive of every frame: of every command, and directly before every open-bus of a command but
the first (40_bus_primitives.md R112). -/
def Obligations.CloseBusReleasesTheBus : Prop :=
  encode .closeBus = .prim11 0x200 ∧
  (∀ s : State, s.pending = none → s.owned = true →
    (∀ a e, s.env.answer .closeBus = some (a, e) →
      exec .closeBus s =
        .next { s with owned := false, trace := s.trace ++ [.closed], returned := .nothing, env := e }) ∧
    (s.env.next.completes = false → exec .closeBus s = .next { s with pending := some .closeBus })) ∧
  (∀ s : State, s.pending = none → s.owned = false → exec .closeBus s = .refused .primitiveOutOfTransaction) ∧
  (∀ i : Instr, i.opcode?.isSome = true → ∃ r, (planOf i).getLast? = some r ∧ ∀ s, rowPrim s r = .next .closeBus) ∧
  (∀ (i : Instr) (k : Nat), (planOf i)[k + 1]? = some .openBus →
    ∃ r, (planOf i)[k]? = some r ∧ ∀ s, rowPrim s r = .next .closeBus)

/-- write-byte(b): encoded `SEL = 3, DATA = b`; with `OWNED = 1` it appends `TX(b, st)` and returns `st`, the status
`ENV` answers; `OWNED` stays 1; any status is possible and none stops it; if `ENV` never completes it, it stays pending
and nothing else changes (assumption log 4) (40_bus_primitives.md R113). With `OWNED = 0` it is refused. -/
def Obligations.WriteBytePrimitiveReturnsStatus : Prop :=
  (∀ b : Byte, encode (.sendByte b) = .prim11 (3#3 ++ b)) ∧
  (∀ (b : Byte) (s : State), s.pending = none → s.owned = true →
    (∀ a e, s.env.answer (.writeByte b) = some (a, e) →
      exec (.sendByte b) s =
        .next { s with trace := s.trace ++ [.tx b a.status], returned := .status a.status, env := e }) ∧
    (s.env.next.completes = false → exec (.sendByte b) s = .next { s with pending := some (.writeByte b) })) ∧
  (∀ (b : Byte) (s : State), s.pending = none → s.owned = false →
    exec (.sendByte b) s = .refused .primitiveOutOfTransaction) ∧
  (∀ (b : Byte) (st : Status), ∃ (e e' : Env) (a : Answer), e.answer (.writeByte b) = some (a, e') ∧ a.status = st)

/-- read-byte: encoded `SEL = 4, DATA = 0`; with `OWNED = 1` it appends `RX(b)` and returns `b`, the byte `ENV` answers,
any of 0..255, and no status; `OWNED` stays 1; if `ENV` never completes it, it stays pending and nothing else changes
(assumption log 4) (40_bus_primitives.md R114). With `OWNED = 0` it is refused. -/
def Obligations.ReadBytePrimitiveReturnsByte : Prop :=
  encode .receiveByte = .prim11 0x400 ∧
  (∀ s : State, s.pending = none → s.owned = true →
    (∀ a e, s.env.answer .readByte = some (a, e) →
      exec .receiveByte s =
        .next { s with trace := s.trace ++ [.rx a.byte], returned := .byte a.byte, env := e }) ∧
    (s.env.next.completes = false → exec .receiveByte s = .next { s with pending := some .readByte })) ∧
  (∀ s : State, s.pending = none → s.owned = false → exec .receiveByte s = .refused .primitiveOutOfTransaction) ∧
  (∀ b : Byte, ∃ (e e' : Env) (a : Answer), e.answer .readByte = some (a, e') ∧ a.byte = b)

/-- ack and not-ack: encoded `SEL = 5` and `SEL = 6` with `DATA = 0`; with `OWNED = 1` each appends its event and
nothing else, and returns nothing; if `ENV` never completes it, it stays pending and nothing else changes (assumption
log 4) (40_bus_primitives.md R115, R116). With `OWNED = 0` each is refused. -/
def Obligations.MasterAcknowledgeAppendsItsEvent : Prop :=
  encode .ack = .prim11 0x500 ∧ encode .notAck = .prim11 0x600 ∧
  (∀ s : State, s.pending = none → s.owned = true →
    (∀ a e, s.env.answer .ack = some (a, e) →
      exec .ack s = .next { s with trace := s.trace ++ [.ack], returned := .nothing, env := e }) ∧
    (∀ a e, s.env.answer .notAck = some (a, e) →
      exec .notAck s = .next { s with trace := s.trace ++ [.nack], returned := .nothing, env := e }) ∧
    (s.env.next.completes = false →
      exec .ack s = .next { s with pending := some .ack } ∧
      exec .notAck s = .next { s with pending := some .notAck })) ∧
  (∀ s : State, s.pending = none → s.owned = false →
    exec .ack s = .refused .primitiveOutOfTransaction ∧ exec .notAck s = .refused .primitiveOutOfTransaction)

/-- Each completed primitive appends exactly one event to `TRACE`, the one of the primitive, and no protocol element
appears without its primitive: a primitive that has not completed appends nothing, and the events a command appends are,
one by one, those of the primitives its step table issues (40_bus_primitives.md R118). -/
def Obligations.OneEventPerPrimitive : Prop :=
  (∀ (i : Instr) (p : Prim) (s t : State), i.prim? = some p → exec i s = .next t →
    (t.pending = none → ∃ e : Event, e.request = p ∧ t.trace = s.trace ++ [e]) ∧
    (t.pending.isSome = true → t.trace = s.trace)) ∧
  (∀ (i : Instr) (s t : State), i.opcode?.isSome = true → exec i s = .next t →
    ∃ (k : Nat) (es : List Event), t.trace = s.trace ++ es ∧ es.length = k ∧ k ≤ (planOf i).length ∧
      (t.pending = none → k = (planOf i).length) ∧
      (t.pending.isSome = true → t.seq = some k) ∧
      ∀ (j : Nat) (e : Event) (r : Row), es[j]? = some e → (planOf i)[j]? = some r →
        ∃ u : State, u.latches = instrLatches i ∧ u.buf = s.buf ∧ rowPrim u r = .next e.request)

/-- A primitive changes nothing but `OWNED`, `TRACE`, what it hands back, the pending primitive and `ENV`
(40_bus_primitives.md R110 to R116; 10_state.md R28: it latches no status). -/
def Obligations.PrimitiveFrame : Prop :=
  ∀ (i : Instr) (p : Prim) (s t : State), i.prim? = some p → exec i s = .next t →
    t.run = s.run ∧ t.op = s.op ∧ t.latches = s.latches ∧ t.tmp = s.tmp ∧ t.res = s.res ∧ t.seq = s.seq ∧
    t.idx = s.idx ∧ t.buf = s.buf ∧ t.program = s.program ∧
    (p ≠ .openBus → p ≠ .closeBus → t.owned = s.owned) ∧ (t.pending.isSome = true → t.env = s.env)

/-- A primitive requested while another is pending is refused (20_memory.md R63; assumption log 17). -/
def Obligations.RequestWhilePendingIsRefused : Prop :=
  ∀ (i : Instr) (s : State), i.prim?.isSome = true → s.pending.isSome = true →
    exec i s = .refused .primitivePending

/-! ### Commands -/

/-- ReadBytes: the read frame of `LEN` bytes, `BUF[0..LEN-1]` hold the bytes in the order received and the elements from
`LEN` on are untouched, nothing is returned, `NPRIM = 2·LEN + 6`; or it hangs (assumption log 4; 41_byte_transfers.md
R130, R131). -/
def Obligations.ReadBytesFillsTheBuffer : Prop :=
  ∀ (dev reg len : Byte) (s : State), Ready (.readBytes dev reg len) s →
    ∃ t, exec (.readBytes dev reg len) s = .next t ∧
      (s.env.CompletesFor (2 * len.toNat + 6) →
        CompletedFrom (.readBytes dev reg len) s t ∧ t.returned = .nothing ∧
        ∃ (sa sr sd : Status) (ds : List Byte), ds.length = len.toNat ∧
          t.trace = s.trace ++ readFrame dev reg sa sr sd ds ∧ t.buf = ds ++ s.buf.drop len.toNat) ∧
      (¬ s.env.CompletesFor (2 * len.toNat + 6) → Hung t)

/-- A zero-length ReadBytes is the address phase, then close: six primitives, no read-byte, no ack, no not-ack, and `BUF`
is not written (41_byte_transfers.md R131). -/
def Obligations.ZeroLengthReadIsTheAddressPhase : Prop :=
  ∀ (dev reg : Byte) (s : State), Ready (.readBytes dev reg 0) s → s.env.CompletesFor 6 →
    ∃ (t : State) (sa sr sd : Status), exec (.readBytes dev reg 0) s = .next t ∧ Completed t ∧ t.buf = s.buf ∧
      t.trace = s.trace ++
        [.opened, .tx dev sa, .tx reg sr, .restarted, .tx (dev ||| 0x01) sd, .closed]

/-- A ReadBytes of `LEN ≥ 1` bytes issues exactly `LEN - 1` acks and exactly one not-ack, in one transaction, and the bytes
received are `BUF[0..LEN-1]` in order (41_byte_transfers.md R130). -/
def Obligations.BurstReadAcknowledgesAllButTheLast : Prop :=
  ∀ (dev reg len : Byte) (s : State), Ready (.readBytes dev reg len) s → 1 ≤ len.toNat →
    s.env.CompletesFor (2 * len.toNat + 6) →
    ∃ (t : State) (es : List Event), exec (.readBytes dev reg len) s = .next t ∧ t.trace = s.trace ++ es ∧
      es.count .ack = len.toNat - 1 ∧ es.count .nack = 1 ∧ es.count .opened = 1 ∧ es.count .closed = 1 ∧
      es.filterMap Event.received = t.buf.take len.toNat

/-- WriteBytes: the write frame of the `LEN` bytes `BUF[0..LEN-1]` in order, `BUF` is not changed, nothing is returned,
`NPRIM = LEN + 4`, whatever the statuses; or it hangs (assumption log 4; 41_byte_transfers.md R132). -/
def Obligations.WriteBytesSendsTheBuffer : Prop :=
  ∀ (dev reg len : Byte) (s : State), Ready (.writeBytes dev reg len) s →
    ∃ t, exec (.writeBytes dev reg len) s = .next t ∧
      (s.env.CompletesFor (len.toNat + 4) →
        CompletedFrom (.writeBytes dev reg len) s t ∧ t.returned = .nothing ∧ t.buf = s.buf ∧
        ∃ (sa sr : Status) (sts : List Status), sts.length = len.toNat ∧
          t.trace = s.trace ++ writeFrame dev reg sa sr (s.buf.take len.toNat) sts) ∧
      (¬ s.env.CompletesFor (len.toNat + 4) → Hung t)

/-- ReadByte: the eight primitives of a one-byte read frame, the byte received is the result; `BUF` is untouched; or it
hangs (assumption log 4; 41_byte_transfers.md R133). -/
def Obligations.ReadByteReturnsTheByteReceived : Prop :=
  ∀ (dev reg : Byte) (s : State), Ready (.readByte dev reg) s →
    ∃ t, exec (.readByte dev reg) s = .next t ∧
      (s.env.CompletesFor 8 →
        CompletedFrom (.readByte dev reg) s t ∧ t.buf = s.buf ∧
        ∃ (sa sr sd : Status) (d : Byte), t.returned = .byte d ∧
          t.trace = s.trace ++ readFrame dev reg sa sr sd [d]) ∧
      (¬ s.env.CompletesFor 8 → Hung t)

/-- WriteByte: the five primitives of a one-byte write frame of `VALUE`, sent unchanged; nothing is returned; or it
hangs (assumption log 4; 41_byte_transfers.md R134). -/
def Obligations.WriteByteSendsTheValue : Prop :=
  ∀ (dev reg value : Byte) (s : State), Ready (.writeByte dev reg value) s →
    ∃ t, exec (.writeByte dev reg value) s = .next t ∧
      (s.env.CompletesFor 5 →
        CompletedFrom (.writeByte dev reg value) s t ∧ t.returned = .nothing ∧ t.buf = s.buf ∧
        ∃ sa sr sd : Status, t.trace = s.trace ++ writeFrame dev reg sa sr [value] [sd]) ∧
      (¬ s.env.CompletesFor 5 → Hung t)

/-- ReadBit: the trace of ReadByte; the result is `1 << BITPOS` if that bit of the byte received is 1 and 0 if it is
not, so non-zero exactly when the bit is 1; or it hangs (assumption log 4; 42_bit_access.md R150). -/
def Obligations.ReadBitReturnsTheMaskedBit : Prop :=
  ∀ (dev reg bitpos : Byte) (s : State), Ready (.readBit dev reg bitpos) s →
    ∃ t, exec (.readBit dev reg bitpos) s = .next t ∧
      (s.env.CompletesFor 8 →
        CompletedFrom (.readBit dev reg bitpos) s t ∧ t.buf = s.buf ∧
        ∃ (sa sr sd : Status) (d res : Byte), t.returned = .byte res ∧
          t.trace = s.trace ++ readFrame dev reg sa sr sd [d] ∧
          res = (if d.getLsbD bitpos.toNat then BitVec.ofNat 8 (2 ^ bitpos.toNat) else 0) ∧
          (res ≠ 0 ↔ d.getLsbD bitpos.toNat = true)) ∧
      (¬ s.env.CompletesFor 8 → Hung t)

/-- ReadBits: the trace of ReadByte; bit `k` of the result is bit `LOW + k` of the byte received for `k < FLEN`, and 0
above, with `LOW = BITSTART - FLEN + 1`; or it hangs (assumption log 4; 42_bit_access.md R151). -/
def Obligations.ReadBitsReturnsTheFieldRightAligned : Prop :=
  ∀ (dev reg bitstart flen : Byte) (s : State), Ready (.readBits dev reg bitstart flen) s →
    ∃ t, exec (.readBits dev reg bitstart flen) s = .next t ∧
      (s.env.CompletesFor 8 →
        CompletedFrom (.readBits dev reg bitstart flen) s t ∧ t.buf = s.buf ∧
        ∃ (sa sr sd : Status) (d res : Byte), t.returned = .byte res ∧
          t.trace = s.trace ++ readFrame dev reg sa sr sd [d] ∧ res.toNat < 2 ^ flen.toNat ∧
          ∀ k < 8, res.getLsbD k =
            (decide (k < flen.toNat) && d.getLsbD (bitstart.toNat + 1 - flen.toNat + k))) ∧
      (¬ s.env.CompletesFor 8 → Hung t)

/-- WriteBit: a complete read frame and then a complete write frame; the byte written has bit `BITPOS` set if `VALUE` is
non-zero and cleared if it is zero, and its other bits as read; nothing is returned; or it hangs (assumption log 4;
42_bit_access.md R152). -/
def Obligations.WriteBitReadsModifiesWrites : Prop :=
  ∀ (dev reg bitpos value : Byte) (s : State), Ready (.writeBit dev reg bitpos value) s →
    ∃ t, exec (.writeBit dev reg bitpos value) s = .next t ∧
      (s.env.CompletesFor 13 →
        CompletedFrom (.writeBit dev reg bitpos value) s t ∧ t.returned = .nothing ∧ t.buf = s.buf ∧
        ∃ (sa sr sd sa' sr' sd' : Status) (d d' : Byte),
          t.trace = s.trace ++ readFrame dev reg sa sr sd [d] ++ writeFrame dev reg sa' sr' [d'] [sd'] ∧
          ∀ k < 8, d'.getLsbD k = if k = bitpos.toNat then decide (value ≠ 0) else d.getLsbD k) ∧
      (¬ s.env.CompletesFor 13 → Hung t)

/-- WriteBits: a complete read frame and then a complete write frame; the byte written has its field bits
`BITSTART..LOW` equal to `VALUE[FLEN-1:0]` and every other bit equal to the bit read; nothing is returned; or it hangs
(assumption log 4; 42_bit_access.md R153). -/
def Obligations.WriteBitsReplacesTheFieldOnly : Prop :=
  ∀ (dev reg bitstart flen value : Byte) (s : State), Ready (.writeBits dev reg bitstart flen value) s →
    ∃ t, exec (.writeBits dev reg bitstart flen value) s = .next t ∧
      (s.env.CompletesFor 13 →
        CompletedFrom (.writeBits dev reg bitstart flen value) s t ∧ t.returned = .nothing ∧ t.buf = s.buf ∧
        ∃ (sa sr sd sa' sr' sd' : Status) (d d' : Byte),
          t.trace = s.trace ++ readFrame dev reg sa sr sd [d] ++ writeFrame dev reg sa' sr' [d'] [sd'] ∧
          ∀ k < 8, d'.getLsbD k =
            if bitstart.toNat + 1 - flen.toNat ≤ k ∧ k ≤ bitstart.toNat
            then value.getLsbD (k - (bitstart.toNat + 1 - flen.toNat)) else d.getLsbD k) ∧
      (¬ s.env.CompletesFor 13 → Hung t)

/-- The checks at issue, in their order, the first that fails refusing the command (30_encoding.md R88): `chk_idle`,
`chk_dev`, then the command's own. -/
def Obligations.IssueChecksRefuseInOrder : Prop :=
  ∀ (dev reg a b c : Byte) (s : State),
    (s.run = true → ∀ i : Instr, i.opcode?.isSome = true → exec i s = .refused .issueWhileRunning) ∧
    (s.run = false → dev.getLsbD 0 = true →
      ∀ i ∈ [Instr.readBytes dev reg a, .writeBytes dev reg a, .readByte dev reg, .writeByte dev reg c,
        .readBit dev reg a, .readBits dev reg a b, .writeBit dev reg a c, .writeBits dev reg a b c],
      exec i s = .refused .devBit0Set) ∧
    (s.run = false → dev.getLsbD 0 = false →
      (s.buf.length < a.toNat → ∀ i ∈ [Instr.readBytes dev reg a, .writeBytes dev reg a],
        exec i s = .refused .bufferTooShort) ∧
      (7 < a.toNat → ∀ i ∈ [Instr.readBit dev reg a, .writeBit dev reg a c],
        exec i s = .refused .bitPositionOutOfRange) ∧
      ((7 < a.toNat ∨ b.toNat = 0 ∨ 8 < b.toNat ∨ a.toNat + 1 < b.toNat) →
        ∀ i ∈ [Instr.readBits dev reg a b, .writeBits dev reg a b c], exec i s = .refused .bitFieldOutOfRange))

/-- A command never repeats a primitive, never abandons a frame part-way, and always issues its `Close()`; the only way it
fails to complete is a hang: when `ENV` completes each of its `NPRIM` primitives, it completes; the events appended are
those of its step table row by row, one event for each row and no other, so each row's primitive is issued once; and every
`Close()` is among them: each row that closes a frame gives a `CLOSE`, and the last event is one (41_byte_transfers.md
R139). -/
def Obligations.CommandCompletesUnlessItHangs : Prop :=
  ∀ (i : Instr) (s : State), i.opcode?.isSome = true → Ready i s → s.env.CompletesFor (nprimOf i) →
    ∃ (t : State) (es : List Event), exec i s = .next t ∧ CompletedFrom i s t ∧ t.trace = s.trace ++ es ∧
      es.length = nprimOf i ∧ es.length = (planOf i).length ∧ es.getLast? = some .closed ∧
      ∀ (j : Nat) (e : Event) (r : Row), es[j]? = some e → (planOf i)[j]? = some r →
        (∃ u : State, u.latches = instrLatches i ∧ u.buf = s.buf ∧ rowPrim u r = .next e.request) ∧
        (r = .closeBus ∨ r = .closeResult ∨ r = .closeModify → e = .closed)

/-- A hung command: if the primitive at position `SEQ = k` never completes, `RUN` stays 1, that primitive is pending,
`OWNED` is 1 unless it is the `Open()` of a frame, `k` events were appended, nothing is handed back, and there is no
further step (41_byte_transfers.md R141, 60_exceptions.md R173). That the hung state is a next state and the step from it
the fault is the model's form (assumption log 4). -/
def Obligations.HungCommandStaysAtItsPrimitive : Prop :=
  ∀ (i : Instr) (s : State) (k : Nat), i.opcode?.isSome = true → Ready i s → k < nprimOf i → s.env.HangsAt k →
    ∃ (t : State) (r : Row) (p : Prim), exec i s = .next t ∧ (planOf i)[k]? = some r ∧ rowPrim t r = .next p ∧
      t.run = true ∧ t.op = i.opcode? ∧ t.latches = instrLatches i ∧ t.seq = some k ∧ t.pending = some p ∧
      t.owned = decide (p ≠ .openBus) ∧ t.trace.length = s.trace.length + k ∧ t.returned = s.returned ∧
      t.program = s.program ∧ step t = .fault .hang

/-- No agent has a step while a pending primitive never completes (60_exceptions.md R173); a primitive that `ENV` then
completes ends the wait: a direct requester gets its response. -/
def Obligations.PendingPrimitiveIsPolled : Prop :=
  ∀ (s : State) (p : Prim), s.pending = some p →
    (s.env.next.completes = false → step s = .fault .hang) ∧
    (s.env.next.completes = true → s.run = false → ∃ a e, s.env.answer p = some (a, e) ∧
      step s = .next { s with pending := none, owned := ownedAfter s.owned p, trace := s.trace ++ [eventOf p a],
                              returned := responseOf p a, env := e }) ∧
    (s.env.next.completes = true → s.run = true → step s = goOn s)

/-- `NPRIM` is the number of rows of the step table (10_state.md R26, 41_byte_transfers.md R130, R132 to R134,
42_bit_access.md R150 to R153); the largest is 516. -/
def Obligations.NprimCountsTheStepTable : Prop :=
  (∀ (op : Opcode) (len : Nat), (plan op len).length = nprim op len) ∧
  (∀ i : Instr, nprimOf i ≤ 516) ∧ nprimOf (.readBytes 0x50 0x00 0xFF) = 516

/-- `SEQ` increases by exactly 1 at the completion of each primitive, and stays while one is pending; `IDX` becomes the
index of the buffer element the row is at (10_state.md R26). -/
def Obligations.SequencerAdvancesByOne : Prop :=
  ∀ (r : Row) (s t : State) (k : Nat), s.pending = none → s.seq = some k → doRow r s = .next t →
    (t.pending = none → t.seq = some (k + 1) ∧ t.trace.length = s.trace.length + 1) ∧
    (t.pending.isSome = true → t.seq = some k ∧ t.trace = s.trace ∧ t.owned = s.owned) ∧
    t.run = s.run ∧ t.op = s.op ∧ t.latches = s.latches ∧
    (∀ i, r = .receiveBuffer i ∨ r = .send (.buffer i) → t.idx = some i)

/-- The status never steers: for fixed operands and buffer, the sequence of primitives a command issues, and the bytes it
sends, are the same under every answer of `ENV`; only the byte written back by a read-modify-write (position 11) depends on
`ENV`, and it depends on the byte read (position 5) alone. A status is neither stored nor returned: what is handed back is
never a status, and the states after completion agree in everything but `RES` (handed over as `returned`), `BUF`, `TRACE` and
`ENV` itself (41_byte_transfers.md R138). -/
def Obligations.StatusNeverSteers : Prop :=
  ∀ (i : Instr) (s : State) (e1 e2 : Env) (t1 t2 : State), i.opcode?.isSome = true →
    e1.CompletesFor (nprimOf i) → e2.CompletesFor (nprimOf i) →
    exec i { s with env := e1 } = .next t1 → exec i { s with env := e2 } = .next t2 →
    let q1 := (t1.trace.drop s.trace.length).map Event.request
    let q2 := (t2.trace.drop s.trace.length).map Event.request
    (i.opcode? ≠ some .writeBit → i.opcode? ≠ some .writeBits → q1 = q2) ∧
    q1.eraseIdx 11 = q2.eraseIdx 11 ∧
    ((t1.trace.drop s.trace.length)[5]? = (t2.trace.drop s.trace.length)[5]? → q1 = q2) ∧
    (∀ st, t1.returned ≠ .status st) ∧
    t2 = { t1 with returned := t2.returned, buf := t2.buf, trace := t2.trace, env := t2.env }

/-- Between commands the sequencer keeps nothing: the outcome of a command depends only on its operands, the contents of
its buffer and the answers of `ENV`, never on an earlier command (10_state.md R21). From two states with the bus idle that
agree on buffer and `ENV`, it appends the same events, leaves the same buffer and `ENV`, and hands back the same. -/
def Obligations.OutcomeDependsOnOperandsBufferAndEnv : Prop :=
  ∀ (i : Instr) (s1 s2 t1 : State), i.opcode?.isSome = true → BootOk s1 → BootOk s2 →
    s1.env = s2.env → s1.buf = s2.buf → exec i s1 = .next t1 →
    exec i s2 = .next { t1 with
      trace := s2.trace ++ t1.trace.drop s1.trace.length, program := s2.program,
      returned := if t1.run then s2.returned else t1.returned }

/-- ReadByte is ReadBytes with length 1 into a single-element buffer, and WriteByte is WriteBytes with length 1: the same
events and the same `ENV`, the byte returned is the element read, the byte sent the element written (30_encoding.md
R95). -/
def Obligations.ByteCommandsAreBurstsOfOne : Prop :=
  ∀ (dev reg v b0 : Byte) (s : State), BootOk s → devOk dev = true →
    (s.env.CompletesFor 8 → ∃ (t u : State) (d : Byte),
      exec (.readByte dev reg) s = .next t ∧ exec (.readBytes dev reg 1) { s with buf := [b0] } = .next u ∧
      t.returned = .byte d ∧ u.buf = [d] ∧ t.trace = u.trace ∧ t.env = u.env) ∧
    (s.env.CompletesFor 5 → ∃ u : State,
      exec (.writeBytes dev reg 1) { s with buf := [v] } = .next u ∧
      exec (.writeByte dev reg v) s = .next { u with buf := s.buf })

/-- ReadBit and ReadBits are ReadByte followed by the mask, or the mask and the shift (30_encoding.md R95; 42_bit_access.md
R150, R151 "via ReadByte"). -/
def Obligations.BitReadsAreReadByteThenMask : Prop :=
  ∀ (dev reg bitpos bitstart flen : Byte) (s : State), BootOk s → devOk dev = true → s.env.CompletesFor 8 →
    ∃ (u : State) (b : Byte), exec (.readByte dev reg) s = .next u ∧ u.returned = .byte b ∧
      (bitposOk bitpos = true →
        exec (.readBit dev reg bitpos) s = .next { u with returned := .byte (b &&& shl8 1 bitpos.toNat) }) ∧
      (fieldOk bitstart flen = true →
        exec (.readBits dev reg bitstart flen) s =
          .next { u with returned := .byte (shr8 (b &&& fieldMask bitstart flen) (lowBit bitstart flen)) })

/-- WriteBit and WriteBits are ReadByte, 8-bit arithmetic, and WriteByte of the result: two complete transactions with the
bus free between them, so `ENV` may act there (30_encoding.md R95, 42_bit_access.md R152, R153, 20_memory.md R59). -/
def Obligations.ReadModifyWriteIsReadByteThenWriteByte : Prop :=
  ∀ (dev reg bitpos bitstart flen value : Byte) (s : State), BootOk s → devOk dev = true → s.env.CompletesFor 13 →
    ∃ (u : State) (b : Byte), exec (.readByte dev reg) s = .next u ∧ u.returned = .byte b ∧ u.owned = false ∧
      (bitposOk bitpos = true →
        exec (.writeBit dev reg bitpos value) s =
          exec (.writeByte dev reg (if value ≠ 0 then b ||| shl8 1 bitpos.toNat
            else b &&& ~~~ (shl8 1 bitpos.toNat))) u) ∧
      (fieldOk bitstart flen = true →
        exec (.writeBits dev reg bitstart flen value) s =
          exec (.writeByte dev reg ((b &&& keepMask bitstart flen) |||
            shr8 (shl8 value (8 - flen.toNat)) (7 - bitstart.toNat))) u)

/-! ### Arithmetic -/

/-- `KEEP[i] = 1` exactly when `i > BITSTART` or `i < LOW`, for every legal bit field (42_bit_access.md R156). -/
def Obligations.KeepMaskKeepsTheBitsOutsideTheField : Prop :=
  ∀ bitstart flen : Byte, fieldOk bitstart flen = true → ∀ k < 8,
    (keepMask bitstart flen).getLsbD k = true ↔
      (bitstart.toNat < k ∨ k < bitstart.toNat + 1 - flen.toNat)

/-- The loop of ReadBits masks what `FIELDMASK` masks, and every shift amount of the bit commands is in 0..7: `LOW`,
`8 - FLEN`, `7 - BITSTART` and each loop index of a legal field, and `BITPOS` of a legal ReadBit or WriteBit
(42_bit_access.md R150 to R154). -/
def Obligations.MaskingLoopIsTheFieldMask : Prop :=
  (∀ tmp bitstart flen : Byte, fieldOk bitstart flen = true →
    maskedBits tmp bitstart.toNat flen.toNat = tmp &&& fieldMask bitstart flen ∧
    lowBit bitstart flen ≤ 7 ∧ 8 - flen.toNat ≤ 7 ∧ 7 - bitstart.toNat ≤ 7 ∧
    ∀ k, lowBit bitstart flen ≤ k → k ≤ bitstart.toNat → k ≤ 7) ∧
  ∀ bitpos : Byte, bitposOk bitpos = true → bitpos.toNat ≤ 7

/-- The double shift of WriteBits puts `VALUE[FLEN-1:0]` at `LOW` and nothing outside the field, whatever the bits of
`VALUE` above the field (42_bit_access.md R155). -/
def Obligations.DoubleShiftPlacesTheField : Prop :=
  ∀ value bitstart flen : Byte, fieldOk bitstart flen = true →
    placedField value bitstart flen =
      shl8 (value &&& BitVec.ofNat 8 (2 ^ flen.toNat - 1)) (lowBit bitstart flen) ∧
    placedField value bitstart flen &&& keepMask bitstart flen = 0

/-- The round-trip law on bytes: for every legal bit field, every value and every prior byte, WriteBits followed by
ReadBits on the same field returns the value masked to `FLEN` bits, and all bits outside the field are unchanged
(42_bit_access.md R157). -/
def Obligations.FieldRoundTripOnBytes : Prop :=
  ∀ b value bitstart flen : Byte, fieldOk bitstart flen = true →
    writeBitsValue b bitstart flen value =
      (b &&& keepMask bitstart flen) |||
        shl8 (value &&& BitVec.ofNat 8 (2 ^ flen.toNat - 1)) (lowBit bitstart flen) ∧
    writeBitsValue b bitstart flen value &&& keepMask bitstart flen = b &&& keepMask bitstart flen ∧
    readBitsValue (writeBitsValue b bitstart flen value) bitstart flen =
      value &&& BitVec.ofNat 8 (2 ^ flen.toNat - 1)

/-! ### Invariants -/

/-- The reset state meets the invariant (10_state.md R38), and its bus is in canonical form: that the bus of the reset state
is the unknown one is the model's choice (assumption log 9), and so is what canonical form means (assumption log 11). -/
def Obligations.ResetStateMeetsTheInvariant : Prop := Coherent core.reset ∧ core.reset.env.bus.wf = true

/-- Every step keeps the invariant: between commands the sequencer holds no state, and while a command runs the latches,
`SEQ`, `OWNED`, `TMP`, `RES` and the pending primitive are where its step table says (10_state.md R21, R24 to R27, R30). -/
def Obligations.EveryStepKeepsTheInvariant : Prop := ∀ s t : State, Coherent s → step s = .next t → Coherent t

/-- A running command never issues an illegal request and never reads a latch without a value: from any state that meets
the invariant it goes on to a next state, or it hangs (10_state.md R30, R38; 41_byte_transfers.md R139). -/
def Obligations.RunningCommandIsNeverRefused : Prop :=
  ∀ s : State, Coherent s → s.run = true → (∃ t, step s = .next t) ∨ step s = .fault .hang

/-- Every step keeps the slaves' registers in canonical form and the slaves' addresses distinct. -/
def Obligations.EveryStepKeepsSlaveRegistersCanonical : Prop :=
  ∀ s t : State, s.env.bus.wf = true → step s = .next t → t.env.bus.wf = true

/-- `TRACE` only grows, except by the reset event: what has happened on the bus stays recorded (10_state.md R34). -/
def Obligations.EveryStepExtendsTheTrace : Prop :=
  ∀ s t : State, step s = .next t →
    (∃ es, t.trace = s.trace ++ es) ∨ (s.run = false ∧ s.program.head? = some .reset ∧ t.trace = [])

/-! ### Slaves -/

/-- ReadByte(addr, reg) after WriteByte(addr, reg, v) returns exactly v, with no intervening writer and a slave that stores
and returns (20_memory.md R64, with `SLAVE_REF`). -/
def Obligations.ByteRoundTripOnASlave : Prop :=
  ∀ (dev reg v : Byte) (sl : Slave) (s : State), BootOk s → devOk dev = true → s.env.IsFixture sl →
    sl.addr = dev.extractLsb' 1 7 → sl.regs.wf = true →
    ∃ t u, exec (.writeByte dev reg v) s = .next t ∧ exec (.readByte dev reg) t = .next u ∧ u.returned = .byte v ∧
      u.env.bus.register sl.addr reg = some v

/-- The round-trip law with `SLAVE_REF`, a slave that stores and returns, and no intervening writer: with `b` the register
before, the register after WriteBits is `b' = (b & KEEP) | shl8(VALUE[FLEN-1:0], LOW)`, so `b' & KEEP = b & KEEP`; every other
register is unchanged; and ReadBits on the same field then returns `VALUE[FLEN-1:0]` and changes no register
(42_bit_access.md R157). -/
def Obligations.FieldRoundTripOnASlave : Prop :=
  ∀ (dev reg bitstart flen value : Byte) (sl : Slave) (s : State), BootOk s → devOk dev = true →
    fieldOk bitstart flen = true → s.env.IsFixture sl → sl.addr = dev.extractLsb' 1 7 → sl.regs.wf = true →
    ∃ (t u : State) (b' : Byte), exec (.writeBits dev reg bitstart flen value) s = .next t ∧
      exec (.readBits dev reg bitstart flen) t = .next u ∧
      t.env.bus.register sl.addr reg = some b' ∧
      b' = (sl.reg reg &&& keepMask bitstart flen) |||
        shl8 (value &&& BitVec.ofNat 8 (2 ^ flen.toNat - 1)) (lowBit bitstart flen) ∧
      b' &&& keepMask bitstart flen = sl.reg reg &&& keepMask bitstart flen ∧
      (∀ r, r ≠ reg → t.env.bus.register sl.addr r = some (sl.reg r)) ∧
      u.returned = .byte (value &&& BitVec.ofNat 8 (2 ^ flen.toNat - 1)) ∧
      ∀ r, u.env.bus.register sl.addr r = t.env.bus.register sl.addr r

/-- A burst write against `SLAVE_REF` stores `BUF[k]` in register `REG + k` (modulo 256, the fixture's wrap) for each
`k < LEN` and leaves every other register unchanged (95_test_vectors.md section 1, 20_memory.md R54). -/
def Obligations.BurstWriteStoresTheBufferInASlave : Prop :=
  ∀ (dev reg len : Byte) (sl : Slave) (s : State), Ready (.writeBytes dev reg len) s → s.env.IsFixture sl →
    sl.addr = dev.extractLsb' 1 7 → sl.regs.wf = true →
    ∃ t, exec (.writeBytes dev reg len) s = .next t ∧
      ∀ r : Byte, t.env.bus.register sl.addr r =
        some (if (r - reg).toNat < len.toNat then s.buf.getD (r - reg).toNat 0 else sl.reg r)

/-- A burst read against `SLAVE_REF` returns registers `REG`, `REG + 1`, ... (modulo 256, the fixture's wrap) in order and
leaves every register unchanged (95_test_vectors.md section 1, 20_memory.md R54, R55). -/
def Obligations.BurstReadReturnsConsecutiveRegisters : Prop :=
  ∀ (dev reg len : Byte) (sl : Slave) (s : State), Ready (.readBytes dev reg len) s → s.env.IsFixture sl →
    sl.addr = dev.extractLsb' 1 7 →
    ∃ t, exec (.readBytes dev reg len) s = .next t ∧
      (∀ k < len.toNat, t.buf[k]? = some (sl.reg (reg + BitVec.ofNat 8 k))) ∧
      (∀ k, len.toNat ≤ k → t.buf[k]? = s.buf[k]?) ∧
      ∀ r : Byte, t.env.bus.register sl.addr r = some (sl.reg r)

/-- With the fixture `SLAVE_REF` attached (95_test_vectors.md section 1; assumption log 11) at another address than the
command's, a write completes exactly like one to a present slave and the host learns nothing (70_reset_and_hazards.md R207).
That every byte is then not acknowledged, and that no register changes, is the fixture's; on the hardware each status is
`ENV`'s. -/
def Obligations.WriteToAnAbsentSlaveIsUnnoticed : Prop :=
  ∀ (dev reg len : Byte) (sl : Slave) (s : State), Ready (.writeBytes dev reg len) s → s.env.IsFixture sl →
    sl.addr ≠ dev.extractLsb' 1 7 →
    ∃ t, exec (.writeBytes dev reg len) s = .next t ∧ Completed t ∧ t.returned = .nothing ∧
      t.trace = s.trace ++ writeFrame dev reg .noAck .noAck (s.buf.take len.toNat)
        (List.replicate len.toNat .noAck) ∧
      ∀ r : Byte, t.env.bus.register sl.addr r = some (sl.reg r)

/-- The frame of memory for the commands, with fixture slaves `SLAVE_REF` attached (95_test_vectors.md section 1; assumption
log 11) that see every primitive and that nobody else changes (`Env.Exclusive`, assumption log 12): a command stores only to
the registers `storedRegisters` names (the device of its address byte, `REG + k` for each data byte sent, as the fixture's
pointer advances; none for the four read commands), and every other register of every attached fixture reads as before, also
when the command hangs part-way. Of a bus that is unknown it says nothing. -/
def Obligations.CommandsLeaveOtherRegistersAlone : Prop :=
  ∀ (i : Instr) (s t : State), i.opcode?.isSome = true → BootOk s → s.env.Exclusive → s.env.bus.wf = true →
    exec i s = .next t →
    ∀ (a : Addr7) (r : Byte), (a, r) ∉ storedRegisters i → t.env.bus.register a r = s.env.bus.register a r

/-- The frame of memory for the primitives: only write-byte can change a register of a slave, and only the one the pointer
of a slave names that is selected for writing, has its pointer set and expects no address byte (95_test_vectors.md
section 1). -/
def Obligations.PrimitivesLeaveOtherRegistersAlone : Prop :=
  ∀ (i : Instr) (p : Prim) (s t : State), i.prim? = some p → s.env.Exclusive → s.env.bus.wf = true →
    exec i s = .next t →
    ∀ (slaves : List Slave), s.env.bus = .fixture slaves → ∀ (a : Addr7) (r : Byte),
      (∀ b, p = .writeByte b → ∀ sl ∈ slaves, sl.addr = a →
        ¬ (sl.expectAddr = false ∧ sl.sel = .write ∧ sl.first = false ∧ sl.ptr = r)) →
      t.env.bus.register a r = s.env.bus.register a r

/-- No command but ReadBytes changes the buffer, and ReadBytes changes no element from `LEN` on, whether it completes or
hangs (10_state.md R27). -/
def Obligations.OnlyReadBytesWritesTheBuffer : Prop :=
  ∀ (i : Instr) (s t : State), exec i s = .next t →
    t.buf.length = s.buf.length ∧
    ((∀ dev reg len, i ≠ .readBytes dev reg len) → t.buf = s.buf) ∧
    (∀ dev reg len, i = .readBytes dev reg len → t.buf.drop len.toNat = s.buf.drop len.toNat)

/-! ### Between and within transactions -/

/-- Nothing interleaves with the bytes of one frame (20_memory.md R59, 60_exceptions.md R187): while `OWNED = 1`, a primitive
at `BP`'s interface and a row of a running command leave the bus as it is, or as the attached slaves leave it when they
observe that primitive; nobody else changes a register (assumption log 12). -/
def Obligations.NothingInterleavesWithinATransaction : Prop :=
  ∀ (s t : State), s.owned = true →
    (∀ (i : Instr) (p : Prim), i.prim? = some p → exec i s = .next t →
      t.env.bus = s.env.bus ∨ t.env.bus = (s.env.bus.observe p).1) ∧
    (∀ r : Row, s.pending = none → doRow r s = .next t →
      t.env.bus = s.env.bus ∨ ∃ p, rowPrim s r = .next p ∧ t.env.bus = (s.env.bus.observe p).1)

/-- The lost update: between the two frames of a read-modify-write `OWNED = 0` and `ENV` may change the register; the write
frame then overwrites all eight bits with values computed from the byte read before, so the change is lost, whatever value
`v` the others wrote (20_memory.md R59, 70_reset_and_hazards.md R206, P7 of 95_test_vectors.md section 4). The attached slave
is the fixture `SLAVE_REF` (assumption log 11). -/
def Obligations.ChangeBetweenTheFramesIsLost : Prop :=
  ∀ (dev reg bitpos bitstart flen value v : Byte) (sl : Slave) (s : State), BootOk s → devOk dev = true →
    sl.addr = dev.extractLsb' 1 7 → sl.regs.wf = true → s.env.bus = .fixture [sl] →
    s.env.moves = List.replicate 8 Move.free ++ [{ pokes := [{ addr := sl.addr, reg := reg, value := v }] }] →
    (bitposOk bitpos = true → ∃ t, exec (.writeBit dev reg bitpos value) s = .next t ∧ Completed t ∧
      ∀ r, t.env.bus.register sl.addr r = some (if r = reg then
        (if value ≠ 0 then sl.reg reg ||| shl8 1 bitpos.toNat else sl.reg reg &&& ~~~ (shl8 1 bitpos.toNat))
        else sl.reg r)) ∧
    (fieldOk bitstart flen = true → ∃ t, exec (.writeBits dev reg bitstart flen value) s = .next t ∧ Completed t ∧
      ∀ r, t.env.bus.register sl.addr r = some (if r = reg then
        (sl.reg reg &&& keepMask bitstart flen) ||| shr8 (shl8 value (8 - flen.toNat)) (7 - bitstart.toNat)
        else sl.reg r))
end

