-- ==== Sys2Proof/Laws/Encoding.lean ====
section
/-! SUPPORT. Cutting words into fields and putting them together again (30_encoding.md R86, R90). -/
namespace Sys2Proof

/-- The fields of six fields put together are those fields. -/
theorem fieldsOf_descriptorOf (f : Fields) : fieldsOf (descriptorOf f) = f := by
  obtain ⟨op, dev, reg, a, b, c⟩ := f
  simp only [fieldsOf, descriptorOf, Fields.mk.injEq]
  refine ⟨?_, ?_, ?_, ?_, ?_, ?_⟩ <;>
  · apply BitVec.eq_of_getLsbD_eq
    intro i hi
    simp only [BitVec.getLsbD_extractLsb', BitVec.getLsbD_append, hi, decide_true, Bool.true_and]
    repeat' split
    all_goals first | omega | (congr 1; omega)

/-- A descriptor is its fields put together. -/
theorem descriptorOf_fieldsOf (d : BitVec 48) : descriptorOf (fieldsOf d) = d := by
  simp only [fieldsOf, descriptorOf]
  apply BitVec.eq_of_getLsbD_eq
  intro i hi
  simp only [BitVec.getLsbD_extractLsb', BitVec.getLsbD_append]
  repeat' split
  all_goals
    rename_i h
    try (rw [decide_eq_true (by omega), Bool.true_and]; congr 1; omega)

/-- `SEL` and `DATA` of a request put together. -/
theorem requestOf_parts (sel : BitVec 3) (data : Byte) :
    (requestOf sel data).extractLsb' 8 3 = sel ∧ (requestOf sel data).extractLsb' 0 8 = data := by
  simp only [requestOf]
  refine ⟨?_, ?_⟩ <;>
  · apply BitVec.eq_of_getLsbD_eq
    intro i hi
    simp only [BitVec.getLsbD_extractLsb', BitVec.getLsbD_append, hi, decide_true, Bool.true_and]
    repeat' split
    all_goals first | omega | (congr 1; omega)

/-- A request is its `SEL` and its `DATA` put together. -/
theorem requestOf_of_parts (r : BitVec 11) : requestOf (r.extractLsb' 8 3) (r.extractLsb' 0 8) = r := by
  simp only [requestOf]
  apply BitVec.eq_of_getLsbD_eq
  intro i hi
  simp only [BitVec.getLsbD_extractLsb', BitVec.getLsbD_append]
  repeat' split
  all_goals
    rename_i h
    try (rw [decide_eq_true (by omega), Bool.true_and]; congr 1; omega)

/-- Masking a descriptor masks each field. -/
theorem fieldsOf_and (d m : BitVec 48) : fieldsOf (d &&& m) =
   ⟨(fieldsOf d).op &&& (fieldsOf m).op, (fieldsOf d).dev &&& (fieldsOf m).dev, (fieldsOf d).reg &&& (fieldsOf m).reg,
    (fieldsOf d).a &&& (fieldsOf m).a, (fieldsOf d).b &&& (fieldsOf m).b, (fieldsOf d).c &&& (fieldsOf m).c⟩ := by
  simp only [fieldsOf, Fields.mk.injEq]
  refine ⟨?_, ?_, ?_, ?_, ?_, ?_⟩ <;>
  · apply BitVec.eq_of_getLsbD_eq
    intro i hi
    simp [hi]

/-- Two descriptors are equal when their fields are. -/
theorem descriptor_ext_iff (d m : BitVec 48) : d = m ↔ fieldsOf d = fieldsOf m := by
  constructor
  · rintro rfl; rfl
  · intro h; have := congrArg descriptorOf h; rwa [descriptorOf_fieldsOf, descriptorOf_fieldsOf] at this

end Sys2Proof
end

