-- ==== Sys2Proof/Laws/Memory.lean ====
section
/-! SUPPORT. The laws of a slave's registers as a canonical list of cells: read after write, the canonical form is kept,
and the environment keeps it. -/
namespace Sys2Proof.Machine

theorem Memory.read_write_same (m : Memory) (a : Nat) (v : Byte) (lo : Nat) (h : m.wfFrom lo = true) :
    (m.write a v).read a = v := by
  induction m generalizing lo with
  | nil => by_cases hv : v = Config.fixtureDefault <;> simp [Memory.write, Memory.read, hv]
  | cons c m ih =>
    obtain ⟨k, w⟩ := c
    simp only [Memory.wfFrom, Bool.and_eq_true, decide_eq_true_eq] at h
    obtain ⟨⟨hk, hw⟩, hm⟩ := h
    have below : ∀ (m : Memory) (lo a : Nat), m.wfFrom lo = true → a < lo → m.read a = Config.fixtureDefault := by
      intro m
      induction m with
      | nil => intros; rfl
      | cons c m ih =>
        intro lo a hm ha
        simp only [Memory.wfFrom, Bool.and_eq_true, decide_eq_true_eq] at hm
        have : c.1 ≠ a := by omega
        simp only [Memory.read, this, if_false]
        exact ih (c.1 + 1) a hm.2 (by omega)
    simp only [Memory.write]
    by_cases h1 : k < a
    · have : k ≠ a := by omega
      simp only [h1, if_true, Memory.read, this, if_false]
      exact ih (k + 1) hm
    · by_cases h2 : k = a
      · subst h2
        by_cases hv : v = Config.fixtureDefault
        · simp only [lt_irrefl, if_false, if_true, hv]
          exact below m (k + 1) k hm (by omega)
        · simp [hv, Memory.read]
      · by_cases hv : v = Config.fixtureDefault
        · simp only [h1, h2, if_false, hv, if_true, Memory.read]
          exact below m (k + 1) a hm (by omega)
        · simp [h1, h2, hv, Memory.read]

theorem Memory.read_write_other (m : Memory) (a b : Nat) (v : Byte) (hab : a ≠ b) :
    (m.write a v).read b = m.read b := by
  induction m with
  | nil => by_cases hv : v = Config.fixtureDefault <;> simp [Memory.write, Memory.read, hv, hab]
  | cons c m ih =>
    obtain ⟨k, w⟩ := c
    simp only [Memory.write]
    by_cases h1 : k < a
    · simp only [h1, if_true, Memory.read, ih]
    · by_cases h2 : k = a
      · subst h2
        by_cases hv : v = Config.fixtureDefault <;> simp [hv, Memory.read, hab]
      · by_cases hv : v = Config.fixtureDefault <;> simp [h1, h2, hv, Memory.read, hab]

theorem Memory.wfFrom_mono (m : Memory) {lo lo' : Nat} (h : lo' ≤ lo) (hm : m.wfFrom lo = true) :
    m.wfFrom lo' = true := by
  cases m with
  | nil => rfl
  | cons c m =>
    simp only [Memory.wfFrom, Bool.and_eq_true, decide_eq_true_eq] at hm ⊢
    exact ⟨⟨by omega, hm.1.2⟩, hm.2⟩

theorem Memory.write_wfFrom (m : Memory) (a : Nat) (v : Byte) (lo : Nat) (ha : lo ≤ a) (hm : m.wfFrom lo = true) :
    (m.write a v).wfFrom lo = true := by
  induction m generalizing lo with
  | nil =>
    by_cases hv : v = Config.fixtureDefault
    · simp [Memory.write, hv, Memory.wfFrom]
    · simp [Memory.write, hv, Memory.wfFrom, ha]
  | cons c m ih =>
    obtain ⟨k, w⟩ := c
    simp only [Memory.wfFrom, Bool.and_eq_true, decide_eq_true_eq] at hm
    obtain ⟨⟨hk, hw⟩, hm⟩ := hm
    simp only [Memory.write]
    by_cases h1 : k < a
    · simp [h1, Memory.wfFrom, hk, bne_iff_ne.mp hw, ih (k + 1) (by omega) hm]
    · by_cases h2 : k = a
      · subst h2
        by_cases hv : v = Config.fixtureDefault
        · simp only [lt_irrefl, if_false, if_true, hv]
          exact Memory.wfFrom_mono m (by omega) hm
        · simp [hv, Memory.wfFrom, ha, hm]
      · have h3 : a < k := by omega
        by_cases hv : v = Config.fixtureDefault
        · simp [h1, h2, hv, Memory.wfFrom, hk, bne_iff_ne.mp hw, hm]
        · simp [h1, h2, hv, Memory.wfFrom, ha, h3, bne_iff_ne.mp hw, hm]

/-- Every register write keeps the canonical form. -/
theorem Memory.write_wf (m : Memory) (a : Nat) (v : Byte) (hm : m.wf = true) : (m.write a v).wf = true :=
  Memory.write_wfFrom m a v 0 (Nat.zero_le a) hm

@[simp] theorem Slave.setReg_addr (sl : Slave) (r v : Byte) : (sl.setReg r v).addr = sl.addr := rfl

theorem Slave.setReg_wf (sl : Slave) (r v : Byte) (h : sl.regs.wf = true) : (sl.setReg r v).regs.wf = true :=
  Memory.write_wf _ _ _ h

theorem Slave.reg_setReg (sl : Slave) (r r' v : Byte) (h : sl.regs.wf = true) :
    (sl.setReg r v).reg r' = if r' = r then v else sl.reg r' := by
  by_cases hr : r' = r
  · subst hr
    simp [Slave.reg, Slave.setReg, Memory.read_write_same _ _ _ 0 h]
  · have : r.toNat ≠ r'.toNat := fun e => hr (BitVec.eq_of_toNat_eq e.symm)
    simp [Slave.reg, Slave.setReg, Memory.read_write_other _ _ _ _ this, hr]

@[simp] theorem Slave.observe_addr (sl : Slave) (p : Prim) : (sl.observe p).1.addr = sl.addr := by
  cases p <;> simp only [Slave.observe, Slave.onAddress, Slave.onData, Slave.onReceive] <;>
    (repeat' split) <;> rfl

theorem Slave.observe_wf (sl : Slave) (p : Prim) (h : sl.regs.wf = true) : (sl.observe p).1.regs.wf = true := by
  cases p <;> simp only [Slave.observe, Slave.onAddress, Slave.onData, Slave.onReceive] <;>
    (repeat' split) <;> first | exact h | exact Slave.setReg_wf _ _ _ h

theorem Bus.observe_wf (b : Bus) (p : Prim) (h : b.wf = true) : (b.observe p).1.wf = true := by
  cases b with
  | unknown => rfl
  | fixture sls =>
    simp only [Bus.wf, Bool.and_eq_true, List.all_eq_true, decide_eq_true_eq] at h
    simp only [Bus.observe, Bus.wf, Bool.and_eq_true, List.all_eq_true, decide_eq_true_eq, List.map_map]
    refine ⟨?_, ?_⟩
    · simp only [List.mem_map, Function.comp_apply, forall_exists_index, and_imp]
      rintro _ sl hsl rfl
      exact Slave.observe_wf sl p (h.1 sl hsl)
    · have : (Slave.addr ∘ Prod.fst ∘ fun sl : Slave => sl.observe p) = Slave.addr := by
        funext sl; exact Slave.observe_addr sl p
      rw [this]; exact h.2

theorem Bus.poke_wf (b : Bus) (k : Poke) (h : b.wf = true) : (b.poke k).wf = true := by
  cases b with
  | unknown => rfl
  | fixture sls =>
    simp only [Bus.wf, Bool.and_eq_true, List.all_eq_true, decide_eq_true_eq] at h
    simp only [Bus.poke, Bus.wf, Bool.and_eq_true, List.all_eq_true, decide_eq_true_eq, List.map_map]
    refine ⟨?_, ?_⟩
    · simp only [List.mem_map, forall_exists_index, and_imp]
      rintro _ sl hsl rfl
      split
      · exact Slave.setReg_wf _ _ _ (h.1 sl hsl)
      · exact h.1 sl hsl
    · have : (Slave.addr ∘ fun sl : Slave => if sl.addr = k.addr then sl.setReg k.reg k.value else sl) = Slave.addr := by
        funext sl; simp only [Function.comp_apply]; split <;> rfl
      rw [this]; exact h.2

theorem Bus.pokes_wf (ks : List Poke) (b : Bus) (h : b.wf = true) : (ks.foldl Bus.poke b).wf = true := by
  induction ks generalizing b with
  | nil => exact h
  | cons k ks ih => exact ih _ (Bus.poke_wf b k h)

end Sys2Proof.Machine
end

