-- ==== Sys2Proof/Laws/State.lean ====
section
/-! SUPPORT. One lemma per field per named update of the state, true by definition, so that no later proof unfolds a
record update. -/
namespace Sys2Proof.Machine

/-! ### `load` -/

@[simp] theorem load_run (op : Opcode) (l : Latches) (s : State) : (load op l s).run = true := rfl
@[simp] theorem load_op (op : Opcode) (l : Latches) (s : State) : (load op l s).op = some op := rfl
@[simp] theorem load_latches (op : Opcode) (l : Latches) (s : State) : (load op l s).latches = l := rfl
@[simp] theorem load_tmp (op : Opcode) (l : Latches) (s : State) : (load op l s).tmp = none := rfl
@[simp] theorem load_res (op : Opcode) (l : Latches) (s : State) : (load op l s).res = none := rfl
@[simp] theorem load_seq (op : Opcode) (l : Latches) (s : State) : (load op l s).seq = some 0 := rfl
@[simp] theorem load_idx (op : Opcode) (l : Latches) (s : State) : (load op l s).idx = some 0 := rfl
@[simp] theorem load_owned (op : Opcode) (l : Latches) (s : State) : (load op l s).owned = s.owned := rfl
@[simp] theorem load_pending (op : Opcode) (l : Latches) (s : State) : (load op l s).pending = s.pending := rfl
@[simp] theorem load_trace (op : Opcode) (l : Latches) (s : State) : (load op l s).trace = s.trace := rfl
@[simp] theorem load_buf (op : Opcode) (l : Latches) (s : State) : (load op l s).buf = s.buf := rfl
@[simp] theorem load_returned (op : Opcode) (l : Latches) (s : State) : (load op l s).returned = s.returned := rfl
@[simp] theorem load_program (op : Opcode) (l : Latches) (s : State) : (load op l s).program = s.program := rfl
@[simp] theorem load_env (op : Opcode) (l : Latches) (s : State) : (load op l s).env = s.env := rfl

/-! ### `finish` -/

@[simp] theorem finish_run (s : State) : (finish s).run = false := rfl
@[simp] theorem finish_op (s : State) : (finish s).op = none := rfl
@[simp] theorem finish_latches (s : State) : (finish s).latches = Latches.empty := rfl
@[simp] theorem finish_tmp (s : State) : (finish s).tmp = none := rfl
@[simp] theorem finish_res (s : State) : (finish s).res = none := rfl
@[simp] theorem finish_seq (s : State) : (finish s).seq = none := rfl
@[simp] theorem finish_idx (s : State) : (finish s).idx = none := rfl
@[simp] theorem finish_owned (s : State) : (finish s).owned = s.owned := rfl
@[simp] theorem finish_pending (s : State) : (finish s).pending = s.pending := rfl
@[simp] theorem finish_trace (s : State) : (finish s).trace = s.trace := rfl
@[simp] theorem finish_buf (s : State) : (finish s).buf = s.buf := rfl
@[simp] theorem finish_returned (s : State) : (finish s).returned = (match s.res with | some b => .byte b | none => .nothing) := rfl
@[simp] theorem finish_program (s : State) : (finish s).program = s.program := rfl
@[simp] theorem finish_env (s : State) : (finish s).env = s.env := rfl

/-! ### `present` -/

@[simp] theorem present_run (w : Word) (s : State) : (present w s).run = s.run := rfl
@[simp] theorem present_op (w : Word) (s : State) : (present w s).op = s.op := rfl
@[simp] theorem present_latches (w : Word) (s : State) : (present w s).latches = s.latches := rfl
@[simp] theorem present_tmp (w : Word) (s : State) : (present w s).tmp = s.tmp := rfl
@[simp] theorem present_res (w : Word) (s : State) : (present w s).res = s.res := rfl
@[simp] theorem present_seq (w : Word) (s : State) : (present w s).seq = s.seq := rfl
@[simp] theorem present_idx (w : Word) (s : State) : (present w s).idx = s.idx := rfl
@[simp] theorem present_owned (w : Word) (s : State) : (present w s).owned = s.owned := rfl
@[simp] theorem present_pending (w : Word) (s : State) : (present w s).pending = s.pending := rfl
@[simp] theorem present_trace (w : Word) (s : State) : (present w s).trace = s.trace := rfl
@[simp] theorem present_buf (w : Word) (s : State) : (present w s).buf = suitBuffer w s.buf := rfl
@[simp] theorem present_returned (w : Word) (s : State) : (present w s).returned = s.returned := rfl
@[simp] theorem present_program (w : Word) (s : State) : (present w s).program = presenting w :: s.program := rfl
@[simp] theorem present_env (w : Word) (s : State) : (present w s).env = s.env := rfl

/-! ### `bindBuffer` -/

@[simp] theorem bindBuffer_run (b : List Byte) (s : State) : (bindBuffer (some b) s).run = s.run := rfl
@[simp] theorem bindBuffer_op (b : List Byte) (s : State) : (bindBuffer (some b) s).op = s.op := rfl
@[simp] theorem bindBuffer_latches (b : List Byte) (s : State) : (bindBuffer (some b) s).latches = s.latches := rfl
@[simp] theorem bindBuffer_tmp (b : List Byte) (s : State) : (bindBuffer (some b) s).tmp = s.tmp := rfl
@[simp] theorem bindBuffer_res (b : List Byte) (s : State) : (bindBuffer (some b) s).res = s.res := rfl
@[simp] theorem bindBuffer_seq (b : List Byte) (s : State) : (bindBuffer (some b) s).seq = s.seq := rfl
@[simp] theorem bindBuffer_idx (b : List Byte) (s : State) : (bindBuffer (some b) s).idx = s.idx := rfl
@[simp] theorem bindBuffer_owned (b : List Byte) (s : State) : (bindBuffer (some b) s).owned = s.owned := rfl
@[simp] theorem bindBuffer_pending (b : List Byte) (s : State) : (bindBuffer (some b) s).pending = s.pending := rfl
@[simp] theorem bindBuffer_trace (b : List Byte) (s : State) : (bindBuffer (some b) s).trace = s.trace := rfl
@[simp] theorem bindBuffer_buf (b : List Byte) (s : State) : (bindBuffer (some b) s).buf = b := rfl
@[simp] theorem bindBuffer_returned (b : List Byte) (s : State) : (bindBuffer (some b) s).returned = s.returned := rfl
@[simp] theorem bindBuffer_program (b : List Byte) (s : State) : (bindBuffer (some b) s).program = s.program := rfl
@[simp] theorem bindBuffer_env (b : List Byte) (s : State) : (bindBuffer (some b) s).env = s.env := rfl

@[simp] theorem bindBuffer_none (s : State) : bindBuffer none s = s := rfl

end Sys2Proof.Machine
end

