-- ==== Sys2Proof/Laws/Ops.lean ====
section
/-! SUPPORT. One lemma per shared operation that says what it does: the chain, the checks, `ENV`'s answer, the request and
completion of a primitive, one row of a step table, and the start of a command. -/
namespace Sys2Proof.Machine

/-! ### Chains and checks -/

@[simp] theorem andThen_next {α β : Type} (a : α) (k : α → Result β) : andThen (.next a) k = k a := rfl
@[simp] theorem andThen_fault {α β : Type} (f : Fault) (k : α → Result β) : andThen (.fault f) k = .fault f := rfl
@[simp] theorem andThen_refused {α β : Type} (r : Refusal) (k : α → Result β) :
    andThen (.refused r) k = .refused r := rfl

theorem andThen_eq_next {α β : Type} {x : Result α} {k : α → Result β} {b : β} :
    andThen x k = .next b ↔ ∃ a, x = .next a ∧ k a = .next b := by
  cases x <;> simp [andThen]

@[simp] theorem require_true (r : Refusal) (go : Result State) : require true r go = go := rfl
@[simp] theorem require_false (r : Refusal) (go : Result State) : require false r go = .refused r := rfl

theorem require_eq_next {c : Bool} {r : Refusal} {go : Result State} {t : State} :
    require c r go = .next t ↔ c = true ∧ go = .next t := by
  cases c <;> simp

@[simp] theorem readLatch_some (b : Byte) : readLatch (some b) = .next b := rfl
@[simp] theorem readLatch_none : readLatch none = .fault .emptyLatch := rfl

/-! ### `ENV` -/

/-- `ENV` answers exactly when its next move completes (10_state.md R35, 60_exceptions.md R173). -/
theorem Env.answer_eq_none {e : Env} {p : Prim} : e.answer p = none ↔ e.next.completes = false := by
  unfold Env.answer
  cases h : e.next.completes <;> simp [h]

theorem Env.answer_of_completes {e : Env} (h : e.next.completes = true) (p : Prim) :
    ∃ a e', e.answer p = some (a, e') := by
  unfold Env.answer
  simp [h]

/-- Within a transaction a primitive finds the bus as the one before it left it (20_memory.md R59). -/
theorem Env.busAt_of_ne_openBus {e : Env} {p : Prim} (h : p ≠ .openBus) : e.busAt p = e.bus := by
  cases p <;> first | rfl | exact absurd rfl h

theorem Env.busAt_of_no_pokes {e : Env} (h : e.next.pokes = []) (p : Prim) : e.busAt p = e.bus := by
  cases p <;> simp [Env.busAt, h]

theorem Env.busAt_wf {e : Env} (h : e.bus.wf = true) (p : Prim) : (e.busAt p).wf = true := by
  cases p <;> first | exact Bus.pokes_wf _ _ h | exact h

/-- The bus after an answer: the one the primitive found, observed by the attached slaves or not. -/
theorem Env.answer_bus {e e' : Env} {p : Prim} {a : Answer} (h : e.answer p = some (a, e')) :
    e'.bus = if e.next.reaches then ((e.busAt p).observe p).1 else e.busAt p := by
  unfold Env.answer at h
  cases hc : e.next.completes <;> simp [hc] at h
  obtain ⟨-, rfl⟩ := h
  exact apply_ite Prod.fst _ _ _

/-- What an answer does to `ENV`: one move is used, one more answer is given, the slaves stay in canonical form. -/
theorem Env.answer_env {e e' : Env} {p : Prim} {a : Answer} (h : e.answer p = some (a, e')) :
    e.next.completes = true ∧ e'.moves = e.moves.tail ∧ e'.draws = e.draws + 1 ∧
      (e.bus.wf = true → e'.bus.wf = true) := by
  have hbus := Env.answer_bus h
  unfold Env.answer at h
  cases hc : e.next.completes <;> simp [hc] at h
  obtain ⟨-, rfl⟩ := h
  refine ⟨rfl, rfl, rfl, fun hb => ?_⟩
  have hp := Env.busAt_wf hb p
  rw [hbus]
  split
  · exact Bus.observe_wf _ _ hp
  · exact hp

theorem Env.completesFor_zero (e : Env) : e.CompletesFor 0 := by simp [Env.CompletesFor]

theorem Env.completesFor_succ {e : Env} {n : Nat} :
    e.CompletesFor (n + 1) ↔ e.next.completes = true ∧ ∀ m ∈ e.moves.tail.take n, m.completes = true := by
  unfold Env.CompletesFor Env.next
  cases h : e.moves with
  | nil => simp [Move.free]
  | cons m ms => simp

/-- The premise on `ENV` passes from the state before a primitive to the state after it. -/
theorem Env.completesFor_after {e e' : Env} {p : Prim} {a : Answer} {n : Nat} (h : e.answer p = some (a, e'))
    (hc : e.CompletesFor (n + 1)) : e'.CompletesFor n := by
  have := (Env.completesFor_succ.mp hc).2
  rwa [← (Env.answer_env h).2.1] at this

/-! ### `BP` -/

/-- A request is accepted exactly when nothing is pending and it is legal, and then it is pending. -/
theorem bpRequest_eq_next {p : Prim} {s t : State} :
    bpRequest p s = .next t ↔
      s.pending = none ∧ legalWhen s.owned p = true ∧ t = { s with pending := some p } := by
  simp only [bpRequest, require_eq_next, Option.isNone_iff_eq_none, Host.Outcome.next.injEq]
  constructor
  · rintro ⟨h1, h2, h3⟩; exact ⟨h1, h2, h3.symm⟩
  · rintro ⟨h1, h2, h3⟩; exact ⟨h1, h2, h3.symm⟩

/-- The state after `BP` has completed `p` with `ENV`'s answer. -/
def afterPrim (p : Prim) (a : Answer) (e : Env) (s : State) : State :=
  { s with pending := none, owned := ownedAfter s.owned p, trace := s.trace ++ [eventOf p a], env := e }

theorem bpComplete_of_answer {p : Prim} {s : State} {a : Answer} {e : Env} (h : s.env.answer p = some (a, e)) :
    bpComplete p s = some (a, afterPrim p a e s) := by
  simp [bpComplete, h, afterPrim]

theorem bpComplete_of_hang {p : Prim} {s : State} (h : s.env.answer p = none) : bpComplete p s = none := by
  simp [bpComplete, h]

/-- Everything a primitive at `BP`'s own interface can do when it answers a next state: it completed, or it hangs. -/
theorem perform_cases {p : Prim} {s t : State} (h : perform p s = .next t) :
    s.pending = none ∧ legalWhen s.owned p = true ∧
    ((s.env.answer p = none ∧ t = { s with pending := some p }) ∨
     (∃ a e, s.env.answer p = some (a, e) ∧ t = { afterPrim p a e s with returned := responseOf p a })) := by
  obtain ⟨s1, h1, h2⟩ := andThen_eq_next.mp h
  obtain ⟨hp, hl, rfl⟩ := bpRequest_eq_next.mp h1
  refine ⟨hp, hl, ?_⟩
  have h3 := Host.Outcome.next.inj h2
  cases ha : s.env.answer p with
  | none =>
    left
    rw [bpAwait, bpComplete_of_hang (by simpa using ha)] at h3
    exact ⟨rfl, h3.symm⟩
  | some ae =>
    obtain ⟨a, e⟩ := ae
    right
    rw [bpAwait, bpComplete_of_answer (by simpa using ha)] at h3
    exact ⟨a, e, rfl, h3.symm⟩

/-- A legal primitive that `ENV` answers completes. -/
theorem perform_completes {p : Prim} {s : State} {a : Answer} {e : Env} (hp : s.pending = none)
    (hl : legalWhen s.owned p = true) (ha : s.env.answer p = some (a, e)) :
    perform p s = .next { afterPrim p a e s with returned := responseOf p a } := by
  have : bpRequest p s = .next { s with pending := some p } := bpRequest_eq_next.mpr ⟨hp, hl, rfl⟩
  simp only [perform, this, andThen_next, bpAwait]
  rw [bpComplete_of_answer (s := { s with pending := some p }) ha]
  rfl

/-- A legal primitive that `ENV` never completes stays pending, and nothing else changes. -/
theorem perform_hangs {p : Prim} {s : State} (hp : s.pending = none) (hl : legalWhen s.owned p = true)
    (ha : s.env.answer p = none) : perform p s = .next { s with pending := some p } := by
  have : bpRequest p s = .next { s with pending := some p } := bpRequest_eq_next.mpr ⟨hp, hl, rfl⟩
  simp only [perform, this, andThen_next, bpAwait]
  rw [bpComplete_of_hang (s := { s with pending := some p }) ha]

/-! ### Rows of a step table -/

/-- One row from a state with nothing pending: its primitive completes and the answer is delivered, or it hangs. -/
theorem doRow_of_prim {r : Row} {s : State} {p : Prim} (hp : s.pending = none) (hr : rowPrim s r = .next p)
    (hl : legalWhen s.owned p = true) :
    doRow r s =
      match s.env.answer p with
      | none => .next { s with idx := (rowIndex r).or s.idx, pending := some p }
      | some (a, e) =>
        andThen (deliver r a (afterPrim p a e { s with idx := (rowIndex r).or s.idx })) fun s3 =>
          .next { s3 with seq := s3.seq.map (· + 1) } := by
  have hq : requestRow r s = .next { s with idx := (rowIndex r).or s.idx, pending := some p } := by
    simp only [requestRow, hp, Option.isSome_none, Bool.false_eq_true, if_false, hr, andThen_next]
    exact bpRequest_eq_next.mpr ⟨rfl, hl, rfl⟩
  simp only [doRow, hq, andThen_next]
  cases ha : s.env.answer p with
  | none => rw [bpComplete_of_hang (by simpa using ha)]
  | some ae =>
    obtain ⟨a, e⟩ := ae
    rw [bpComplete_of_answer (by simpa using ha)]
    rfl

@[simp] theorem runRows_nil (s : State) : runRows [] s = .next (finish s) := rfl

theorem runRows_cons (r : Row) (rs : List Row) (s : State) :
    runRows (r :: rs) s = andThen (doRow r s) fun s' => if s'.pending.isSome then .next s' else runRows rs s' := rfl

/-- Run a row whose primitive completes, then the rest. -/
theorem runRows_cons_of_row {r : Row} {rs : List Row} {s t : State} (h : doRow r s = .next t)
    (hp : t.pending = none) : runRows (r :: rs) s = runRows rs t := by
  simp [runRows_cons, h, hp]

/-- Run a row that hangs. -/
theorem runRows_cons_of_hang {r : Row} {rs : List Row} {s t : State} (h : doRow r s = .next t)
    (hp : t.pending.isSome = true) : runRows (r :: rs) s = .next t := by
  simp [runRows_cons, h, hp]

theorem readLoopRows_length (i n : Nat) : (readLoopRows i n).length = 2 * n := by
  induction n generalizing i with
  | zero => rfl
  | succ n ih => simp [readLoopRows, ih]; omega

theorem writeLoopRows_length (i n : Nat) : (writeLoopRows i n).length = n := by
  induction n generalizing i with
  | zero => rfl
  | succ n ih => simp [writeLoopRows, ih]

/-! ### The start of a command -/

/-- A burst command runs its step table from position 0, with `LEN` from its latch. -/
theorem launch_burst {op : Opcode} {l : Latches} {len : Byte} (hop : op = .readBytes ∨ op = .writeBytes)
    (hl : l.len = some len) {s : State} (hp : s.pending = none) :
    launch op l s = runRows (plan op len.toNat) (load op l s) := by
  rcases hop with rfl | rfl <;> simp [launch, goOn, currentPlan, hl, hp]

/-- A command of one data byte runs its step table from position 0. -/
theorem launch_single {op : Opcode} (hop : op ≠ .readBytes ∧ op ≠ .writeBytes) (l : Latches) {s : State}
    (hp : s.pending = none) : launch op l s = runRows (plan op 1) (load op l s) := by
  cases op <;> simp_all [launch, goOn, currentPlan]

/-- The checks of issue pass in a state where no command runs, for a device address with bit 0 clear. -/
theorem issueChecks_pass {dev : Byte} {s : State} (hr : s.run = false) (hd : devOk dev = true) (go : Result State) :
    issueChecks dev s go = go := by
  simp [issueChecks, hr, hd]

end Sys2Proof.Machine
end

