-- ==== Sys2Proof/Laws/Plan.lean ====
section
/-! SUPPORT. The step tables (41_byte_transfers.md R130 to R134, 42_bit_access.md R150 to R153): the row at each position, and
what each row needs of the rows before it. -/
namespace Sys2Proof.Machine

/-- The row is the open-bus of a frame. -/
def Row.opens : Row → Bool | .openBus => true | _ => false
/-- The row is the close-bus of a frame. -/
def Row.closes : Row → Bool | .closeBus | .closeResult | .closeModify => true | _ => false

/-- `OWNED` after a step table is decided by its last row. -/
theorem ownedAfterRows_snoc (l : List Row) (r : Row) : ownedAfterRows (l ++ [r]) = !Row.closes r := by
  cases l with
  | nil => cases r <;> rfl
  | cons x xs =>
    simp only [List.cons_append, ownedAfterRows]
    have : (x :: (xs ++ [r])).getLast? = some r := by
      rw [show x :: (xs ++ [r]) = (x :: xs) ++ [r] from rfl, List.getLast?_concat]
    rw [this]
    cases r <;> rfl

/-- What a row at a position of a command's step table needs: the bus free or owned, `TMP` received, the right
command. -/
structure RowOk (i : Instr) (pre : List Row) (r : Row) : Prop where
  owned : ownedAfterRows pre = !Row.opens r
  tmp : (r = .closeResult ∨ r = .closeModify ∨ r = .send .tmp) → Row.receiveTmp ∈ pre
  res : r = .closeResult → Row.closeResult ∉ pre
  res' : r = .closeResult → (∃ d g, i = .readByte d g) ∨ (∃ d g p, i = .readBit d g p) ∨ ∃ d g p n,
      i = .readBits d g p n
  md : r = .closeModify → (∃ d g p v, i = .writeBit d g p v) ∨ ∃ d g p n v, i = .writeBits d g p n v
  value : r = .send .value → ∃ d g v, i = .writeByte d g v
  buf : ∀ j, (r = .send (.buffer j) ∨ r = .receiveBuffer j) → j < bufferNeed i

/-- The loop of ReadBytes, position by position. -/
theorem readLoopRows_get (i n j : Nat) : (readLoopRows i n)[j]? =
    if j < 2 * n then (if j % 2 = 0 then some (.receiveBuffer (i + j/2)) else
      some (if j/2 + 1 = n then .notAck (i + j/2) else .ack (i + j/2))) else none := by
  induction n generalizing i j with
  | zero => simp [readLoopRows]
  | succ n ih =>
    match j with
    | 0 => simp [readLoopRows]
    | 1 =>
      by_cases hn : n = 0
      · simp [readLoopRows, hn]
      · have : ¬ (1 = n + 1) := by omega
        simp [readLoopRows, hn]; omega
    | j + 2 =>
      simp only [readLoopRows, List.getElem?_cons_succ, ih]
      have h1 : (j + 2) / 2 = j / 2 + 1 := by omega
      have h2 : (j + 2) % 2 = j % 2 := by omega
      have h3 : (j + 2 < 2 * (n + 1)) ↔ j < 2 * n := by omega
      have h4 : i + 1 + j / 2 = i + (j / 2 + 1) := by omega
      simp only [h1, h2, h3, h4]
      split
      · split
        · rfl
        · by_cases hh : j / 2 + 1 = n
          · have : (j/2 + 1 + 1 = n + 1) := by omega
            simp [hh]
          · have : ¬ (j/2 + 1 + 1 = n + 1) := by omega
            simp [hh]
      · rfl

/-- The loop of WriteBytes, position by position. -/
theorem writeLoopRows_get (i n j : Nat) :
    (writeLoopRows i n)[j]? = if j < n then some (.send (.buffer (i + j))) else none := by
  induction n generalizing i j with
  | zero => simp [writeLoopRows]
  | succ n ih =>
    match j with
    | 0 => simp [writeLoopRows]
    | j + 1 =>
      simp only [writeLoopRows, List.getElem?_cons_succ, ih]
      have : i + 1 + j = i + (j + 1) := by omega
      simp [this]

/-- The rows before position `k + 1` are those before `k` and the row at `k`. -/
theorem take_succ_of_get {α} (l : List α) (k : Nat) (r : α) (h : l[k]? = some r) : l.take (k+1) = l.take k ++ [r] := by
  rw [List.take_add_one, h]; rfl

/-- The step table of ReadBytes, position by position (R130). -/
theorem plan_readBytes_get (len k : Nat) : (plan .readBytes len)[k]? =
   if k < 5 then readPhaseRows[k]? else if k < 5 + 2 * len then (readLoopRows 0 len)[k-5]? else if k = 5 + 2*len then some .closeBus else none := by
  have hl : readPhaseRows.length = 5 := rfl
  simp only [plan]
  rw [List.append_assoc]
  by_cases h1 : k < 5
  · simp [h1, List.getElem?_append_left, hl]
  · rw [List.getElem?_append_right (by omega), hl]
    by_cases h2 : k < 5 + 2 * len
    · rw [List.getElem?_append_left (by rw [readLoopRows_length]; omega)]
      simp [h1, h2]
    · rw [List.getElem?_append_right (by rw [readLoopRows_length]; omega), readLoopRows_length]
      by_cases h3 : k = 5 + 2 * len
      · subst h3; simp [h1]
      · have : k - 5 - 2 * len ≠ 0 := by omega
        obtain ⟨m, hm⟩ := Nat.exists_eq_succ_of_ne_zero this
        simp [h1, h2, h3, hm]

/-- The step table of WriteBytes, position by position (R132). -/
theorem plan_writeBytes_get (len k : Nat) : (plan .writeBytes len)[k]? =
   if k < 3 then openRows[k]? else if k < 3 + len then some (.send (.buffer (k-3))) else if k = 3 + len then some .closeBus else none := by
  have hl : openRows.length = 3 := rfl
  simp only [plan]
  rw [List.append_assoc]
  by_cases h1 : k < 3
  · simp [h1, List.getElem?_append_left, hl]
  · rw [List.getElem?_append_right (by omega), hl]
    by_cases h2 : k < 3 + len
    · rw [List.getElem?_append_left (by rw [writeLoopRows_length]; omega), writeLoopRows_get]
      have : k - 3 < len := by omega
      simp [h1, h2, this]
    · rw [List.getElem?_append_right (by rw [writeLoopRows_length]; omega), writeLoopRows_length]
      by_cases h3 : k = 3 + len
      · subst h3; simp [h1]
      · have : k - 3 - len ≠ 0 := by omega
        obtain ⟨m, hm⟩ := Nat.exists_eq_succ_of_ne_zero this
        simp [h1, h2, h3, hm]

/-- `OWNED` at a position is decided by the row before it. -/
theorem ownedAfterRows_take (rows : List Row) (k : Nat) (r : Row) (hk : 0 < k) (h : rows[k-1]? = some r) :
    ownedAfterRows (rows.take k) = !Row.closes r := by
  obtain ⟨j, rfl⟩ := Nat.exists_eq_succ_of_ne_zero (by omega : k ≠ 0)
  rw [Nat.succ_eq_add_one, take_succ_of_get rows j r (by simpa using h), ownedAfterRows_snoc]

theorem rowOk_of_rows (i : Instr) (rows : List Row) (hrows : ∀ k < rows.length, ∀ r, rows[k]? = some r →
    RowOk i (rows.take k) r) (k : Nat) (r : Row) (h : rows[k]? = some r) :
  RowOk i (rows.take k) r := hrows k (by
    by_contra hc; rw [List.getElem?_eq_none (by omega)] at h; cases h) r h

/-- Every row of every step table has what it needs. -/
theorem planOf_rowOk (i : Instr) (k : Nat) (r : Row) (h : (planOf i)[k]? = some r) : RowOk i ((planOf i).take k) r := by
  cases i with
  | readBytes dev reg len =>
    have hp : planOf (.readBytes dev reg len) = plan .readBytes len.toNat := rfl
    rw [hp] at h ⊢
    have hg := plan_readBytes_get len.toNat k
    rw [h] at hg
    have notmem : Row.closeResult ∉ plan .readBytes len.toNat ∧ Row.closeModify ∉ plan .readBytes len.toNat ∧
        Row.send .tmp ∉ plan .readBytes len.toNat ∧ Row.send .value ∉ plan .readBytes len.toNat := by
      refine ⟨?_, ?_, ?_, ?_⟩ <;>
      · intro hm
        obtain ⟨j, hj⟩ := List.mem_iff_getElem?.mp hm
        rw [plan_readBytes_get] at hj
        split_ifs at hj with h1 h2 h3
        · have : j = 0 ∨ j = 1 ∨ j = 2 ∨ j = 3 ∨ j = 4 := by omega
          rcases this with rfl | rfl | rfl | rfl | rfl <;> simp [readPhaseRows, openRows] at hj
        · rw [readLoopRows_get] at hj
          split_ifs at hj <;> simp at hj
        · simp at hj
    have hmem := List.mem_of_getElem? h
    have hbuf : ∀ j, (r = .send (.buffer j) ∨ r = .receiveBuffer j) → j < len.toNat := by
      intro j hj
      split_ifs at hg with h1 h2 h3
      · have : k = 0 ∨ k = 1 ∨ k = 2 ∨ k = 3 ∨ k = 4 := by omega
        rcases this with rfl | rfl | rfl | rfl | rfl <;> simp [readPhaseRows, openRows] at hg <;> subst hg <;>
            simp at hj
      · rw [readLoopRows_get] at hg
        split_ifs at hg
        · simp at hg; subst hg; simp at hj; omega
        · simp at hg; subst hg; simp at hj
        · simp at hg; subst hg; simp at hj
      · simp at hg; subst hg; simp at hj
    refine ⟨?_, ?_, ?_, ?_, ?_, ?_, hbuf⟩
    · by_cases hk : k = 0
      · subst hk; simp [readPhaseRows, openRows] at hg; subst hg; rfl
      · have hr : Row.opens r = false := by
          split_ifs at hg with h1 h2 h3
          · have : k = 1 ∨ k = 2 ∨ k = 3 ∨ k = 4 := by omega
            rcases this with rfl | rfl | rfl | rfl <;> simp [readPhaseRows, openRows] at hg <;> subst hg <;> rfl
          · rw [readLoopRows_get] at hg
            split_ifs at hg <;> simp at hg <;> subst hg <;> rfl
          · simp at hg; subst hg; rfl
        have hlt : k < 6 + 2 * len.toNat := by
          split_ifs at hg <;> omega
        have hpred : ∃ r', (plan .readBytes len.toNat)[k-1]? = some r' ∧ Row.closes r' = false := by
          rw [plan_readBytes_get]
          split_ifs with h1 h2 h3
          · have : k = 1 ∨ k = 2 ∨ k = 3 ∨ k = 4 ∨ k = 5 := by omega
            rcases this with rfl | rfl | rfl | rfl | rfl <;> simp [readPhaseRows, openRows, Row.closes]
          · rw [readLoopRows_get]
            have : k - 1 - 5 < 2 * len.toNat := by omega
            simp only [this, if_true]
            split_ifs <;> simp [Row.closes]
          · omega
          · omega
        obtain ⟨r', h1, h2⟩ := hpred
        rw [ownedAfterRows_take _ k r' (by omega) h1, h2, hr]
    · rintro (rfl | rfl | rfl)
      · exact absurd hmem notmem.1
      · exact absurd hmem notmem.2.1
      · exact absurd hmem notmem.2.2.1
    · rintro rfl; exact absurd hmem notmem.1
    · rintro rfl; exact absurd hmem notmem.1
    · rintro rfl; exact absurd hmem notmem.2.1
    · rintro rfl; exact absurd hmem notmem.2.2.2
  | writeBytes dev reg len =>
    have hp : planOf (.writeBytes dev reg len) = plan .writeBytes len.toNat := rfl
    rw [hp] at h ⊢
    have hg := plan_writeBytes_get len.toNat k
    rw [h] at hg
    have notmem : Row.closeResult ∉ plan .writeBytes len.toNat ∧ Row.closeModify ∉ plan .writeBytes len.toNat ∧
        Row.send .tmp ∉ plan .writeBytes len.toNat ∧ Row.send .value ∉ plan .writeBytes len.toNat := by
      refine ⟨?_, ?_, ?_, ?_⟩ <;>
      · intro hm
        obtain ⟨j, hj⟩ := List.mem_iff_getElem?.mp hm
        rw [plan_writeBytes_get] at hj
        split_ifs at hj with h1 h2 h3
        · have : j = 0 ∨ j = 1 ∨ j = 2 := by omega
          rcases this with rfl | rfl | rfl <;> simp [openRows] at hj
        · simp at hj
        · simp at hj
    have hmem := List.mem_of_getElem? h
    have hbuf : ∀ j, (r = .send (.buffer j) ∨ r = .receiveBuffer j) → j < len.toNat := by
      intro j hj
      split_ifs at hg with h1 h2 h3
      · have : k = 0 ∨ k = 1 ∨ k = 2 := by omega
        rcases this with rfl | rfl | rfl <;> simp [openRows] at hg <;> subst hg <;> simp at hj
      · simp at hg; subst hg; simp at hj; omega
      · simp at hg; subst hg; simp at hj
    refine ⟨?_, ?_, ?_, ?_, ?_, ?_, hbuf⟩
    · by_cases hk : k = 0
      · subst hk; simp [openRows] at hg; subst hg; rfl
      · have hr : Row.opens r = false := by
          split_ifs at hg with h1 h2 h3
          · have : k = 1 ∨ k = 2 := by omega
            rcases this with rfl | rfl <;> simp [openRows] at hg <;> subst hg <;> rfl
          · simp at hg; subst hg; rfl
          · simp at hg; subst hg; rfl
        have hlt : k < 4 + len.toNat := by
          split_ifs at hg <;> omega
        have hpred : ∃ r', (plan .writeBytes len.toNat)[k-1]? = some r' ∧ Row.closes r' = false := by
          rw [plan_writeBytes_get]
          split_ifs with h1 h2 h3
          · have : k = 1 ∨ k = 2 ∨ k = 3 := by omega
            rcases this with rfl | rfl | rfl <;> simp [openRows, Row.closes]
          · simp [Row.closes]
          · omega
          · omega
        obtain ⟨r', h1, h2⟩ := hpred
        rw [ownedAfterRows_take _ k r' (by omega) h1, h2, hr]
    · rintro (rfl | rfl | rfl)
      · exact absurd hmem notmem.1
      · exact absurd hmem notmem.2.1
      · exact absurd hmem notmem.2.2.1
    · rintro rfl; exact absurd hmem notmem.1
    · rintro rfl; exact absurd hmem notmem.1
    · rintro rfl; exact absurd hmem notmem.2.1
    · rintro rfl; exact absurd hmem notmem.2.2.2
  | readByte | writeByte | readBit | readBits | writeBit | writeBits =>
    refine rowOk_of_rows _ _ ?_ k r h
    simp only [planOf, Instr.opcode?, plan, readByteRows, writeByteRows, readPhaseRows, openRows]
    intro k hk r hr
    simp at hk
    interval_cases k <;> simp at hr <;> subst hr <;>
      exact ⟨by decide, by simp, by simp, by simp, by simp, by simp, by simp⟩
  | _ => simp [planOf, Instr.opcode?] at h

/-- Only ReadBytes receives into the buffer, and only below `LEN`. -/
theorem planOf_receiveBuffer (i : Instr) (j : Nat) (h : Row.receiveBuffer j ∈ planOf i) : ∃ d g n,
    i = .readBytes d g n ∧ j < n.toNat := by
  obtain ⟨k, hk⟩ := List.mem_iff_getElem?.mp h
  have := (planOf_rowOk i k _ hk).buf j (by simp)
  cases i <;> simp [bufferNeed] at this
  · exact ⟨_, _, _, rfl, this⟩
  · exfalso
    rename_i d g n
    have h' : Row.receiveBuffer j ∈ plan .writeBytes n.toNat := h
    obtain ⟨k, hk⟩ := List.mem_iff_getElem?.mp h'
    rw [plan_writeBytes_get] at hk
    split_ifs at hk with h1 h2 h3
    · have : k = 0 ∨ k = 1 ∨ k = 2 := by omega
      rcases this with rfl | rfl | rfl <;> simp [openRows] at hk
    · simp at hk
    · simp at hk

end Sys2Proof.Machine
end

