-- ==== Sys2Proof/Laws/Sequencer.lean ====
section
/-! SUPPORT. The sequencer: everything one row of a step table can do,
    and everything a run of a step table can do from a
state that is where its table says. -/
namespace Sys2Proof.Machine

/-! ### One row -/

/-- Everything one row can do from a state with nothing pending: its primitive is legal, and it hangs,
    or it completes and
the answer is delivered. -/
theorem doRow_cases {r : Row} {s t : State} (hp : s.pending = none) (h : doRow r s = .next t) :
   ∃ p, rowPrim s r = .next p ∧ legalWhen s.owned p = true ∧
     ((s.env.answer p = none ∧ t = { s with idx := (rowIndex r).or s.idx, pending := some p }) ∨
      (∃ a e s3, s.env.answer p = some (a, e) ∧
          deliver r a (afterPrim p a e { s with idx := (rowIndex r).or s.idx }) = .next s3 ∧
          t = { s3 with seq := s3.seq.map (· + 1) })) := by
  have hreq : ∃ p, rowPrim s r = .next p ∧ legalWhen s.owned p = true := by
    simp only [doRow, requestRow, hp] at h
    obtain ⟨s1, h1, -⟩ := andThen_eq_next.mp h
    simp at h1
    obtain ⟨p, hp', h2⟩ := andThen_eq_next.mp h1
    exact ⟨p, hp', (bpRequest_eq_next.mp h2).2.1⟩
  obtain ⟨p, hr, hl⟩ := hreq
  refine ⟨p, hr, hl, ?_⟩
  rw [doRow_of_prim hp hr hl] at h
  cases ha : s.env.answer p with
  | none => rw [ha] at h; left; exact ⟨rfl, (Host.Outcome.next.inj h).symm⟩
  | some ae =>
    obtain ⟨a, e⟩ := ae
    rw [ha] at h
    obtain ⟨s3, h3, h4⟩ := andThen_eq_next.mp h
    right; exact ⟨a, e, s3, rfl, h3, (Host.Outcome.next.inj h4).symm⟩

/-- What the delivery of an answer leaves unchanged: everything but `TMP`, `RES` and the buffer element received
into. -/
theorem deliver_frame {r : Row} {a : Answer} {s t : State} (h : deliver r a s = .next t) :
   t.run = s.run ∧ t.op = s.op ∧ t.latches = s.latches ∧ t.seq = s.seq ∧ t.idx = s.idx ∧ t.owned = s.owned ∧
       t.pending = s.pending ∧ t.trace = s.trace ∧ t.returned = s.returned ∧ t.program = s.program ∧ t.env = s.env ∧
   ((∀ j, r ≠ .receiveBuffer j) → t.buf = s.buf) ∧ (∀ j, r = .receiveBuffer j → t.buf = s.buf.set j a.byte) := by
  cases r <;> simp only [deliver] at h
  case receiveBuffer j =>
    obtain ⟨h1, h2⟩ := require_eq_next.mp h
    cases h2; simp
  case closeResult =>
    obtain ⟨v, -, h2⟩ := andThen_eq_next.mp h
    obtain ⟨b, -, h3⟩ := andThen_eq_next.mp h2
    cases h3; simp
  case closeModify =>
    obtain ⟨v, -, h2⟩ := andThen_eq_next.mp h
    obtain ⟨b, -, h3⟩ := andThen_eq_next.mp h2
    cases h3; simp
  all_goals (cases h; simp)

/-- After a row that completed, the rest runs. -/
theorem runRows_rest {s' t : State} {rs : List Row} (hq : s'.pending = none)
    (h : (if s'.pending.isSome then (.next s' : Result State) else runRows rs s') = .next t) : runRows rs s' = .next t :=
        by
  simpa [hq] using h

/-- Membership in the rows before position `k + 1`. -/
theorem take_succ_mem {l : List Row} {k : Nat} {r x : Row} (h : l[k]? = some r) : x ∈ l.take (k+1) ↔ x ∈ l.take k ∨
    x = r := by
  rw [take_succ_of_get l k r h]; simp

/-- A position that has a row is inside the step table. -/
theorem succ_le_length_of_get {l : List Row} {k : Nat} {r : Row} (h : l[k]? = some r) : k + 1 ≤ l.length := by
  by_contra hc; rw [List.getElem?_eq_none (by omega)] at h; cases h

/-- The primitive of a row depends on the latches, `TMP` and the buffer alone. -/
theorem rowPrim_congr {s t : State} (r : Row) (h1 : t.latches = s.latches) (h2 : t.tmp = s.tmp) (h3 : t.buf = s.buf) :
    rowPrim t r = rowPrim s r := by
  cases r <;> simp only [rowPrim]
  rename_i src
  cases src <;> simp [sourceByte, h1, h2, h3]

/-- Every command loads `DEV` and `REG`. -/
theorem instrLatches_dev_reg {i : Instr} (h : i.opcode?.isSome = true) : ∃ d g, (instrLatches i).dev = some d ∧
    (instrLatches i).reg = some g := by
  cases i <;> first | exact ⟨_, _, rfl, rfl⟩ | simp [Instr.opcode?] at h

/-- The row at `SEQ` of a running command issues a primitive, and it is legal. -/
theorem RunningAt.rowPrim_legal {i : Instr} {k : Nat} {s : State} {r : Row} (hR : RunningAt i k s)
    (hr : (planOf i)[k]? = some r) :
    ∃ p, rowPrim s r = .next p ∧ legalWhen s.owned p = true ∧
        ownedAfter s.owned p = ownedAfterRows ((planOf i).take (k+1)) ∧ (p = .openBus ↔ Row.opens r = true) := by
  obtain ⟨hw, hb, hop, hsome, hl, hseq, hidx, hk, how, htmp, hres, hpend⟩ := hR
  have ok := planOf_rowOk i k r hr
  have hd : i.opcode?.isSome = true := by rw [← hop]; exact hsome
  obtain ⟨d, g, hd1, hd2⟩ := instrLatches_dev_reg hd
  have ho : s.owned = !Row.opens r := by rw [how, ok.owned]
  have ho2 : ownedAfterRows ((planOf i).take (k+1)) = !Row.closes r := by rw [take_succ_of_get _ k r hr,
      ownedAfterRows_snoc]
  rw [ho2, ho]
  cases r with
  | send src =>
    suffices ∃ b, sourceByte s src = .next b by
      obtain ⟨b, hb⟩ := this
      exact ⟨.writeByte b, by simp [rowPrim, hb], rfl, rfl, by simp [Row.opens]⟩
    cases src with
    | devWrite => exact ⟨writeForm d, by simp [sourceByte, hl, hd1]⟩
    | devRead => exact ⟨readForm d, by simp [sourceByte, hl, hd1]⟩
    | reg => exact ⟨g, by simp [sourceByte, hl, hd2]⟩
    | value =>
      obtain ⟨d, g, v, rfl⟩ := ok.value rfl
      exact ⟨v, by simp [sourceByte, hl, instrLatches]⟩
    | tmp =>
      obtain ⟨v, hv⟩ := Option.isSome_iff_exists.mp (htmp (ok.tmp (by simp)))
      exact ⟨v, by simp [sourceByte, hv]⟩
    | buffer j =>
      have := ok.buf j (by simp)
      have hj : j < s.buf.length := by omega
      exact ⟨s.buf[j], by simp [sourceByte, List.getElem?_eq_getElem hj]⟩
  | _ => exact ⟨_, rfl, rfl, rfl, by simp [Row.opens]⟩

/-- The row at `SEQ` of a running command, if `ENV` completes it. -/
theorem RunningAt.row_completes {i : Instr} {k : Nat} {s : State} {r : Row} {p : Prim} {a : Answer} {e : Env}
    (hR : RunningAt i k s) (hr : (planOf i)[k]? = some r)
    (hp : s.pending = none ∨ s.pending = some p) (hrow : rowPrim s r = .next p) (ha : s.env.answer p = some (a, e)) :
    ∃ t, doRow r s = .next t ∧ RunningAt i (k+1) t ∧ t.pending = none ∧ t.trace = s.trace ++ [eventOf p a] ∧ t.env = e ∧
      t.program = s.program ∧ t.returned = s.returned ∧ t.run = s.run ∧ t.buf.length = s.buf.length ∧
          ((∀ j, r ≠ .receiveBuffer j) → t.buf = s.buf) := by
  obtain ⟨p', hp', hleg, hown, hopen⟩ := RunningAt.rowPrim_legal hR hr
  rw [hrow] at hp'; cases hp'
  obtain ⟨hw, hb, hop, hsome, hl, hseq, hidx, hk, how, htmp, hres, hpend⟩ := hR
  have ok := planOf_rowOk i k r hr
  have hlen := succ_le_length_of_get hr
  obtain ⟨idx', hidx', hdo⟩ : ∃ idx' : Option Nat, idx'.isSome = true ∧
      doRow r s = andThen (deliver r a (afterPrim p a e { s with idx := idx' })) fun s3 =>
          .next { s3 with seq := s3.seq.map (· + 1) } := by
    rcases hp with hp | hp
    · refine ⟨(rowIndex r).or s.idx, ?_, ?_⟩
      · cases hri : rowIndex r <;> simp [hidx]
      · rw [doRow_of_prim hp hrow hleg, ha]
    · refine ⟨s.idx, hidx, ?_⟩
      simp only [doRow, requestRow, hp, Option.isSome_some, if_true, andThen_next]
      rw [bpComplete_of_answer ha]
      rfl
  rw [hdo]
  have mk : ∀ t : State, t.op = s.op → t.latches = s.latches → t.seq = s.seq → t.idx = idx' →
      t.owned = ownedAfter s.owned p → t.pending = none →
     bufferNeed i ≤ t.buf.length →
     (Row.receiveTmp ∈ (planOf i).take k ∨ Row.receiveTmp = r → t.tmp.isSome = true) →
         (t.res.isSome = true ↔ (Row.closeResult ∈ (planOf i).take k ∨ Row.closeResult = r)) →
     RunningAt i (k+1) { t with seq := t.seq.map (· + 1) } := by
    intro t h1 h2 h3 h4 h5 h6 h7 h8 h9
    refine ⟨hw, h7, by simp [h1, hop], by simp only [h1]; exact hsome, by simp [h2, hl], by simp [h3, hseq],
        by simp [h4, hidx'], hlen, ?_, ?_, ?_, ?_⟩
    · simp only [h5]; exact hown
    · simp only [take_succ_mem hr]; exact h8
    · simp only [take_succ_mem hr]; exact h9
    · intro q hq; simp [h6] at hq
  by_cases h1 : ∃ j, r = .receiveBuffer j
  · obtain ⟨j, rfl⟩ := h1
    have hj := ok.buf j (by simp)
    have hj' : j < s.buf.length := by omega
    refine ⟨{ (afterPrim p a e { s with idx := idx' }) with buf := s.buf.set j a.byte, seq := s.seq.map (· + 1) }, ?_,
        ?_, rfl, rfl, rfl, rfl, rfl, rfl, ?_, ?_⟩
    · simp [deliver, storeBuffer, afterPrim, hj']
    · exact mk { (afterPrim p a e { s with idx := idx' }) with buf := s.buf.set j a.byte } rfl rfl rfl rfl rfl rfl (by simpa using hb) (by simpa [afterPrim] using htmp) (by simpa [afterPrim] using hres)
    · simp
    · intro h; exact absurd rfl (h j)
  · by_cases h2 : r = .receiveTmp
    · subst h2
      refine ⟨{ (afterPrim p a e { s with idx := idx' }) with tmp := some a.byte, seq := s.seq.map (· + 1) }, rfl, ?_,
          rfl, rfl, rfl, rfl, rfl, rfl, rfl, fun _ => rfl⟩
      exact mk { (afterPrim p a e { s with idx := idx' }) with tmp := some a.byte } rfl rfl rfl rfl rfl rfl hb (by simp) (by simpa [afterPrim] using hres)
    · by_cases h3 : r = .closeResult
      · subst h3
        obtain ⟨v, hv⟩ := Option.isSome_iff_exists.mp (htmp (ok.tmp (by simp)))
        have : ∃ b, resultByte (afterPrim p a e { s with idx := idx' }) v = .next b := by
          rcases ok.res' rfl with ⟨d, g, rfl⟩ | ⟨d, g, q, rfl⟩ | ⟨d, g, q, n, rfl⟩
          · exact ⟨v, by simp [resultByte, afterPrim, hop, Instr.opcode?]⟩
          · exact ⟨readBitValue v q, by simp [resultByte, afterPrim, hop, Instr.opcode?, hl, instrLatches]⟩
          · exact ⟨readBitsValue v q n, by simp [resultByte, afterPrim, hop, Instr.opcode?, hl, instrLatches]⟩
        obtain ⟨b, hb'⟩ := this
        refine ⟨{ (afterPrim p a e { s with idx := idx' }) with res := some b, seq := s.seq.map (· + 1) }, ?_, ?_, rfl,
            rfl, rfl, rfl, rfl, rfl, rfl, fun _ => rfl⟩
        · have ht : (afterPrim p a e { s with idx := idx' }).tmp = some v := hv
          simp only [deliver, ht, readLatch_some, andThen_next, hb']; rfl
        · exact mk { (afterPrim p a e { s with idx := idx' }) with res := some b } rfl rfl rfl rfl rfl rfl hb (by simpa [afterPrim] using htmp) (by simp)
      · by_cases h4 : r = .closeModify
        · subst h4
          obtain ⟨v, hv⟩ := Option.isSome_iff_exists.mp (htmp (ok.tmp (by simp)))
          have : ∃ b, modifiedByte (afterPrim p a e { s with idx := idx' }) v = .next b := by
            rcases ok.md rfl with ⟨d, g, q, w, rfl⟩ | ⟨d, g, q, n, w, rfl⟩
            · exact ⟨writeBitValue v q w, by simp [modifiedByte, afterPrim, hop, Instr.opcode?, hl, instrLatches]⟩
            · exact ⟨writeBitsValue v q n w, by simp [modifiedByte, afterPrim, hop, Instr.opcode?, hl, instrLatches]⟩
          obtain ⟨b, hb'⟩ := this
          refine ⟨{ (afterPrim p a e { s with idx := idx' }) with tmp := some b, seq := s.seq.map (· + 1) }, ?_, ?_,
              rfl, rfl, rfl, rfl, rfl, rfl, rfl, fun _ => rfl⟩
          · have ht : (afterPrim p a e { s with idx := idx' }).tmp = some v := hv
            simp only [deliver, ht, readLatch_some, andThen_next, hb']; rfl
          · exact mk { (afterPrim p a e { s with idx := idx' }) with tmp := some b } rfl rfl rfl rfl rfl rfl hb (by simp) (by simpa [afterPrim] using hres)
        · refine ⟨{ (afterPrim p a e { s with idx := idx' }) with seq := s.seq.map (· + 1) }, ?_, ?_, rfl, rfl, rfl,
            rfl, rfl, rfl, rfl, fun _ => rfl⟩
          · cases r <;> simp_all [deliver] <;> rfl
          · have g2 : ¬ Row.receiveTmp = r := fun h => h2 h.symm
            have g3 : ¬ Row.closeResult = r := fun h => h3 h.symm
            exact mk (afterPrim p a e { s with idx := idx' }) rfl rfl rfl rfl rfl rfl hb (by simpa [afterPrim,
                g2] using htmp) (by simpa [afterPrim, g3] using hres)

/-- The row at `SEQ` of a running command, if `ENV` never completes it. -/
theorem RunningAt.row_hangs {i : Instr} {k : Nat} {s : State} {r : Row} {p : Prim} (hR : RunningAt i k s)
    (hr : (planOf i)[k]? = some r)
    (hp : s.pending = none ∨ s.pending = some p) (hrow : rowPrim s r = .next p) (ha : s.env.answer p = none) :
    ∃ idx', doRow r s = .next { s with idx := idx', pending := some p } ∧
        RunningAt i k { s with idx := idx', pending := some p } := by
  obtain ⟨p', hp', hleg, hown, hopen⟩ := RunningAt.rowPrim_legal hR hr
  rw [hrow] at hp'; cases hp'
  obtain ⟨hw, hb, hop, hsome, hl, hseq, hidx, hk, how, htmp, hres, hpend⟩ := hR
  obtain ⟨idx', hidx', hdo⟩ : ∃ idx' : Option Nat, idx'.isSome = true ∧
      doRow r s = .next { s with idx := idx', pending := some p } := by
    rcases hp with hp | hp
    · refine ⟨(rowIndex r).or s.idx, ?_, ?_⟩
      · cases hri : rowIndex r <;> simp [hidx]
      · rw [doRow_of_prim hp hrow hleg, ha]
    · refine ⟨s.idx, hidx, ?_⟩
      simp only [doRow, requestRow, hp, Option.isSome_some, if_true, andThen_next]
      rw [bpComplete_of_hang ha]
      rw [← hp]
  refine ⟨idx', hdo, hw, hb, hop, hsome, hl, hseq, hidx', hk, how, htmp, hres, ?_⟩
  intro q hq
  cases hq
  exact ⟨r, hr, by rw [← hrow]; exact rowPrim_congr r rfl rfl rfl⟩

/-! ### A run of rows -/

/-- Nothing is left at the end of a step table. -/
theorem drop_of_length {l : List Row} {k} (h : k = l.length) : l.drop k = [] := by simp [h]

/-- Every step table ends with a close-bus. -/
theorem planOf_last_closes (i : Instr) (h : i.opcode?.isSome = true) : ∃ r, (planOf i).getLast? = some r ∧
    Row.closes r = true := by
  cases i with
  | readBytes d g n => exact ⟨.closeBus, List.getLast?_concat, rfl⟩
  | writeBytes d g n => exact ⟨.closeBus, List.getLast?_concat, rfl⟩
  | readByte | writeByte | readBit | readBits | writeBit | writeBits => exact ⟨_, rfl, rfl⟩
  | _ => simp [Instr.opcode?] at h

/-- What `n` completed rows leave, from `s` to `u`. -/
structure Ran (s u : State) (n : Nat) : Prop where
  program : u.program = s.program
  returned : u.returned = s.returned
  run : u.run = s.run
  moves : u.env.moves = s.env.moves.drop n
  draws : u.env.draws = s.env.draws + n
  trace : ∃ es, es.length = n ∧ u.trace = s.trace ++ es
  buf : u.buf.length = s.buf.length

/-- A hang `j` primitives after an answer is a hang `j + 1` primitives from before it. -/
theorem Env.hangsAt_succ {e e' : Env} {p : Prim} {a : Answer} {j : Nat} (h : e.answer p = some (a, e'))
    (hh : e'.HangsAt j) : e.HangsAt (j+1) := by
  obtain ⟨h1, h2, h3, -⟩ := Env.answer_env h
  obtain ⟨g1, g2⟩ := hh
  refine ⟨Env.completesFor_succ.mpr ⟨h1, ?_⟩, ?_⟩
  · rw [← h2]; exact g1
  · rw [h2, List.drop_tail] at g2; exact g2

/-- Everything the rest of a step table can do: it completes when `ENV` completes each of its primitives, else it
hangs at the first one `ENV` does not complete. -/
theorem runRows_spec {i : Instr} (n : Nat) : ∀ {k : Nat} {s : State}, RunningAt i k s → (planOf i).length = k + n →
    ∃ t, runRows ((planOf i).drop k) s = .next t ∧
     ((s.env.CompletesFor n ∧ ∃ u, RunningAt i (k+n) u ∧ t = finish u ∧ u.pending = none ∧ Ran s u n ∧
          (n = 0 → u = s) ∧ (0 < n → u.trace.getLast? = some .closed)) ∨
      (∃ j, j < n ∧ s.env.HangsAt j ∧ RunningAt i (k+j) t ∧ t.pending.isSome = true ∧ Ran s t j)) := by
  induction n with
  | zero =>
    intro k s hR hlen
    refine ⟨finish s, by rw [drop_of_length (by omega)]; rfl, .inl ⟨Env.completesFor_zero _, s, hR, rfl, ?_, ⟨rfl, rfl,
        rfl, rfl, rfl, ⟨[], rfl, by simp⟩, rfl⟩, fun _ => rfl, by simp⟩⟩
    by_contra hc
    obtain ⟨p, hp⟩ := Option.ne_none_iff_exists'.mp hc
    obtain ⟨r, hr, -⟩ := hR.pending p hp
    have := succ_le_length_of_get hr
    omega
  | succ n ih =>
    intro k s hR hlen
    have hk : k < (planOf i).length := by omega
    obtain ⟨r, hr⟩ : ∃ r, (planOf i)[k]? = some r := ⟨_, List.getElem?_eq_getElem hk⟩
    have hdrop : (planOf i).drop k = r :: (planOf i).drop (k+1) := by
      rw [List.drop_eq_getElem_cons hk]
      congr 1
      rw [List.getElem?_eq_getElem hk] at hr; exact Option.some.inj hr
    obtain ⟨p, hrow, hleg, hown, hopen⟩ := RunningAt.rowPrim_legal hR hr
    have hp : s.pending = none ∨ s.pending = some p := by
      cases hq : s.pending with
      | none => exact .inl rfl
      | some q =>
        obtain ⟨r', hr', hrow'⟩ := hR.pending q hq
        rw [hr] at hr'; cases hr'
        rw [hrow] at hrow'; cases hrow'
        exact .inr rfl
    rw [hdrop]
    cases ha : s.env.answer p with
    | none =>
      obtain ⟨idx', hdo, hR'⟩ := RunningAt.row_hangs hR hr hp hrow ha
      refine ⟨_, runRows_cons_of_hang hdo rfl, .inr ⟨0, by omega, ⟨Env.completesFor_zero _, ?_⟩, hR', rfl, ⟨rfl, rfl,
          rfl, rfl, rfl, ⟨[], rfl, by simp⟩, rfl⟩⟩⟩
      have := Env.answer_eq_none.mp ha
      unfold Env.next at this
      cases hm : s.env.moves with
      | nil => rw [hm] at this; simp [Move.free] at this
      | cons m ms => rw [hm] at this; simpa using this
    | some ae =>
      obtain ⟨a, e⟩ := ae
      obtain ⟨t1, hdo, hR1, hp1, htr, he, hprog, hret, hrun, hbuf, -⟩ := RunningAt.row_completes hR hr hp hrow ha
      obtain ⟨t, ht, hcase⟩ := ih hR1 (by omega)
      obtain ⟨a1, a2, a3, -⟩ := Env.answer_env ha
      have lift : ∀ {u j}, Ran t1 u j → Ran s u (j+1) := by
        intro u j hu
        obtain ⟨es, hes, hes'⟩ := hu.trace
        refine ⟨hu.program.trans hprog, hu.returned.trans hret, hu.run.trans hrun, ?_, ?_, ⟨eventOf p a :: es,
            by simp [hes], ?_⟩, hu.buf.trans hbuf⟩
        · rw [hu.moves, he, a2, List.drop_tail]
        · rw [hu.draws, he, a3]; omega
        · rw [hes', htr]; simp
      refine ⟨t, (runRows_cons_of_row hdo hp1).trans ht, ?_⟩
      rcases hcase with ⟨hc, u, hu, rfl, hup, hur, h0, hlast⟩ | ⟨j, hj, hh, hRj, htp, htr'⟩
      · refine .inl ⟨?_, u, by rw [show k + (n+1) = k + 1 + n by omega]; exact hu, rfl, hup, lift hur, by omega,
          fun _ => ?_⟩
        · rw [Env.completesFor_succ]; refine ⟨a1, ?_⟩; rw [← a2, ← he]; exact hc
        · by_cases hn : n = 0
          · subst hn
            rw [h0 rfl, htr]
            have : ownedAfterRows ((planOf i).take (k+1)) = !Row.closes r := by rw [take_succ_of_get _ k r hr,
                ownedAfterRows_snoc]
            -- last row closes
            have hcl : Row.closes r = true := by
              have : (planOf i).getLast? = some r := by
                rw [List.getLast?_eq_getElem?, hlen]; exact hr
              obtain ⟨r', h1, h2⟩ := planOf_last_closes i (by rw [← hR.op]; exact hR.command)
              rw [this] at h1; cases h1; exact h2
            cases r <;> simp [Row.closes] at hcl <;> simp [rowPrim] at hrow <;> subst hrow <;> simp [eventOf]
          · exact hlast (by omega)
      · refine .inr ⟨j+1, by omega, ?_, by rw [show k + (j+1) = k + 1 + j by omega]; exact hRj, htp, lift htr'⟩
        rw [he] at hh
        exact Env.hangsAt_succ ha hh

/-- `ENV` that hangs at `j` does not complete more than `j` primitives. -/
theorem Env.not_completesFor_of_hangsAt {e : Env} {j n : Nat} (h : e.HangsAt j) (hj : j < n) : ¬ e.CompletesFor n := by
  intro hc
  obtain ⟨-, h2⟩ := h
  cases hm : (e.moves.drop j).head? with
  | none => simp [hm] at h2
  | some m =>
    rw [hm] at h2
    have hm' : e.moves[j]? = some m := by rw [List.head?_drop] at hm; exact hm
    have : m ∈ e.moves.take n := by
      rw [List.mem_iff_getElem?]
      exact ⟨j, by rw [List.getElem?_take]; simp [hj, hm']⟩
    have := hc m this
    simp [this] at h2

/-- `ENV` hangs at one place. -/
theorem Env.hangsAt_unique {e : Env} {j k : Nat} (h : e.HangsAt j) (h' : e.HangsAt k) : j = k := by
  rcases Nat.lt_trichotomy j k with hlt | heq | hgt
  · exact absurd h'.1 (Env.not_completesFor_of_hangsAt h hlt)
  · exact heq
  · exact absurd h.1 (Env.not_completesFor_of_hangsAt h' hgt)

/-! ### Commands and primitives -/

/-- A command that passes its checks runs its step table from position 0. -/
theorem exec_of_ready (i : Instr) (s : State) (h : i.opcode?.isSome = true) (hr : Ready i s) :
   ∃ op, i.opcode? = some op ∧ exec i s = runRows (planOf i) (load op (instrLatches i) s) ∧
       RunningAt i 0 (load op (instrLatches i) s) := by
  obtain ⟨⟨hrun, hown, hp⟩, hw, hb⟩ := hr
  obtain ⟨op, hop⟩ := Option.isSome_iff_exists.mp h
  refine ⟨op, hop, ?_, ⟨hw, hb, hop.symm, rfl, rfl, rfl, rfl, Nat.zero_le _, ?_, by simp, by simp [load], ?_⟩⟩
  · cases i <;> simp [Instr.opcode?] at hop <;> subst hop <;>
      simp [WellFormed, Instr.wellFormed, bufferNeed] at hw hb <;>
      simp [exec, execReadBytes, execWriteBytes, execReadByte, execWriteByte, execReadBit, execReadBits, execWriteBit,
          execWriteBits, issueChecks, hrun, hw, bufferOk, hb,
        launch, hp, goOn, currentPlan, planOf, Instr.opcode?, burstLength, instrLatches]
  · simp [load, hown, ownedAfterRows]
  · intro p hp'; simp [load, hp] at hp'

/-- The step table of the running command. -/
theorem RunningAt.currentPlan_eq {i : Instr} {k : Nat} {s : State} (hR : RunningAt i k s) :
    currentPlan s = .next (planOf i) := by
  obtain ⟨hw, hb, hop, hsome, hl, hseq, hidx, hk, how, htmp, hres, hpend⟩ := hR
  cases i <;> simp [Instr.opcode?] at hop <;> simp [hop] at hsome <;> simp [currentPlan, hop, hl, instrLatches, planOf,
      Instr.opcode?, burstLength]

/-- A running command goes on with the rest of its step table. -/
theorem RunningAt.goOn_eq {i : Instr} {k : Nat} {s : State} (hR : RunningAt i k s) :
    goOn s = runRows ((planOf i).drop k) s := by
  have h1 := RunningAt.currentPlan_eq hR
  obtain ⟨hw, hb, hop, hsome, hl, hseq, hidx, hk, how, htmp, hres, hpend⟩ := hR
  simp [goOn, hseq, h1, hk]

/-- A primitive is performed. -/
theorem exec_of_prim {i : Instr} {p : Prim} (h : i.prim? = some p) (s : State) : exec i s = perform p s := by
  cases i <;> simp [Instr.prim?] at h <;> subst h <;> rfl

/-- An instruction is a command or a primitive. -/
theorem command_or_primitive (i : Instr) : (i.opcode?.isSome = true ∧ i.prim? = none) ∨ (i.opcode? = none ∧
    i.prim?.isSome = true) := by
  cases i <;> simp [Instr.opcode?, Instr.prim?]

/-- A command that answers a next state passed all its checks. -/
theorem checks_of_exec_next {i : Instr} {s t : State} (h : i.opcode?.isSome = true) (hx : exec i s = .next t) :
   s.run = false ∧ s.pending = none ∧ WellFormed i ∧ bufferNeed i ≤ s.buf.length ∧ s.owned = false := by
  have key : ∀ {op l}, launch op l s = .next t → s.pending = none ∧ s.owned = false := by
    intro op l hl
    obtain ⟨h1, h2⟩ := require_eq_next.mp hl
    refine ⟨by simpa using h1, ?_⟩
    simp only [goOn, load_seq] at h2
    obtain ⟨rows, h3, h4⟩ := andThen_eq_next.mp h2
    simp at h4
    by_contra hc
    have ho : s.owned = true := by simpa using hc
    have hp : s.pending = none := by simpa using h1
    have hrows : ∃ rs, rows = .openBus :: rs := by
      cases op <;> simp [currentPlan, readLatch] at h3 <;> try (cases hlen : l.len <;> simp [hlen, andThen] at h3)
      all_goals (subst h3; exact ⟨_, rfl⟩)
    obtain ⟨rs, rfl⟩ := hrows
    rw [runRows_cons] at h4
    simp [doRow, requestRow, hp, rowPrim, bpRequest, legalWhen, ho] at h4
  cases i <;> simp [Instr.opcode?] at h <;>
    simp only [exec, execReadBytes, execWriteBytes, execReadByte, execWriteByte, execReadBit, execReadBits,
        execWriteBit, execWriteBits, issueChecks, require_eq_next] at hx <;>
    simp [WellFormed, Instr.wellFormed, bufferNeed]
  · obtain ⟨h1, h2, h3, h4⟩ := hx; have := key h4; simp [bufferOk] at h3; simp_all
  · obtain ⟨h1, h2, h3, h4⟩ := hx; have := key h4; simp [bufferOk] at h3; simp_all
  · obtain ⟨h1, h2, h4⟩ := hx; have := key h4; simp_all
  · obtain ⟨h1, h2, h4⟩ := hx; have := key h4; simp_all
  · obtain ⟨h1, h2, h3, h4⟩ := hx; have := key h4; simp_all
  · obtain ⟨h1, h2, h3, h4⟩ := hx; have := key h4; simp_all
  · obtain ⟨h1, h2, h3, h4⟩ := hx; have := key h4; simp_all
  · obtain ⟨h1, h2, h3, h4⟩ := hx; have := key h4; simp_all

/-- A command that answers a next state was ready. -/
theorem ready_of_exec_next {i : Instr} {s t : State} (h : i.opcode?.isSome = true) (hx : exec i s = .next t) :
    Ready i s := by
  obtain ⟨h1, h2, h3, h4, h5⟩ := checks_of_exec_next h hx
  exact ⟨⟨h1, h5, h2⟩, h3, h4⟩

end Sys2Proof.Machine
end

