-- ==== Sys2Proof/Laws/Frames.lean ====
section
/-! SUPPORT. The frames: what each part of a step table does when `ENV` answers its primitives (30_encoding.md R80,
R81). -/
namespace Sys2Proof.Machine

/-- A row whose primitive `ENV` answers, then the rest. -/
theorem runRows_of_answer {r : Row} {rs : List Row} {s s3 : State} {p : Prim} {a : Answer} {e : Env}
    (hp : s.pending = none) (hr : rowPrim s r = .next p)
  (hl : legalWhen s.owned p = true) (ha : s.env.answer p = some (a, e))
  (hd : deliver r a (afterPrim p a e { s with idx := (rowIndex r).or s.idx }) = .next s3) (hq : s3.pending = none) :
  runRows (r :: rs) s = runRows rs { s3 with seq := s3.seq.map (· + 1) } := by
  apply runRows_cons_of_row
  · rw [doRow_of_prim hp hr hl, ha]; simp only [hd, andThen_next]
  · exact hq

/-- `ENV` answers a list of primitives, one after the other. -/
inductive Env.Answers : Env → List Prim → List Answer → Env → Prop
  | nil (e : Env) : Env.Answers e [] [] e
  | cons {e e1 e2 : Env} {p : Prim} {a : Answer} {ps : List Prim} {as : List Answer} : e.answer p = some (a, e1) →
      Env.Answers e1 ps as e2 → Env.Answers e (p :: ps) (a :: as) e2

/-- `ENV` that completes the next primitives answers them. -/
theorem Env.Answers.exist (ps : List Prim) : ∀ {e : Env}, e.CompletesFor ps.length → ∃ as e', Env.Answers e ps as e' := by
  induction ps with
  | nil => intro e _; exact ⟨[], e, .nil e⟩
  | cons p ps ih =>
    intro e h
    obtain ⟨a, e1, h1⟩ := Env.answer_of_completes (Env.completesFor_succ.mp h).1 p
    obtain ⟨as, e2, h2⟩ := ih (Env.completesFor_after h1 h)
    exact ⟨a :: as, e2, .cons h1 h2⟩

/-- What answering a list of primitives does to `ENV`. -/
theorem Env.Answers.moves {e e' : Env} {ps as} (h : Env.Answers e ps as e') : e'.moves = e.moves.drop ps.length ∧
    e'.draws = e.draws + ps.length ∧ as.length = ps.length := by
  induction h with
  | nil => simp
  | cons h1 h2 ih =>
    obtain ⟨-, h3, h4, -⟩ := Env.answer_env h1
    obtain ⟨i1, i2, i3⟩ := ih
    refine ⟨by rw [i1, h3]; simp, by rw [i2, h4]; simp; omega, by simp [i3]⟩

/-- The answers to a list in two parts. -/
theorem Env.Answers.append_inv {ps qs : List Prim} : ∀ {e e' : Env} {as}, Env.Answers e (ps ++ qs) as e' →
    ∃ as1 as2 em, as = as1 ++ as2 ∧ Env.Answers e ps as1 em ∧ Env.Answers em qs as2 e' := by
  induction ps with
  | nil => intro e e' as h; exact ⟨[], as, e, rfl, .nil e, h⟩
  | cons p ps ih =>
    intro e e' as h
    cases h with
    | cons h1 h2 =>
      obtain ⟨as1, as2, em, rfl, h3, h4⟩ := ih h2
      exact ⟨_ :: as1, as2, em, rfl, .cons h1 h3, h4⟩

/-- `ENV` held in the state answers in one way. -/
theorem Env.Answers.unique {e e1 e2 : Env} {ps as1 as2} (h : Env.Answers e ps as1 e1) (h' : Env.Answers e ps as2 e2) :
    as1 = as2 ∧ e1 = e2 := by
  induction h generalizing as2 with
  | nil => cases h'; exact ⟨rfl, rfl⟩
  | cons h1 h2 ih =>
    cases h' with
    | cons h3 h4 =>
      rw [h1] at h3; cases h3
      obtain ⟨rfl, rfl⟩ := ih h4; exact ⟨rfl, rfl⟩

/-- Start, address byte, register address. -/
theorem runRows_openRows {d g : Byte} {s : State} {rs : List Row} {a0 a1 a2 : Answer} {e : Env} (hp : s.pending = none)
    (ho : s.owned = false) (hd : s.latches.dev = some d) (hg : s.latches.reg = some g)
   (h : Env.Answers s.env [.openBus, .writeByte d, .writeByte g] [a0, a1, a2] e) :
    runRows (openRows ++ rs) s = runRows rs
      { s with
        owned := true
        trace := s.trace ++ [.opened, .tx d a1.status, .tx g a2.status]
        seq := s.seq.map (· + 3)
        env := e } := by
  cases h with | cons h1 h =>
  cases h with | cons h2 h =>
  cases h with | cons h3 h =>
  cases h
  simp only [openRows, List.cons_append, List.nil_append]
  rw [runRows_of_answer (p := .openBus) hp rfl (by simp [legalWhen, ho]) h1 rfl rfl]
  rw [runRows_of_answer (p := .writeByte d) rfl (by simp [rowPrim, sourceByte, afterPrim, hd,
      writeForm]) rfl h2 rfl rfl]
  rw [runRows_of_answer (p := .writeByte g) rfl (by simp [rowPrim, sourceByte, afterPrim, hg]) rfl h3 rfl rfl]
  congr 1
  simp [afterPrim, ownedAfter, eventOf, rowIndex, Option.map_map, Function.comp_def, hp]

/-- The address phase of a read frame. -/
theorem runRows_readPhaseRows {d g : Byte} {s : State} {rs : List Row} {a0 a1 a2 a3 a4 : Answer} {e : Env}
    (hp : s.pending = none) (ho : s.owned = false) (hd : s.latches.dev = some d) (hg : s.latches.reg = some g)
   (h : Env.Answers s.env [.openBus, .writeByte d, .writeByte g, .restartBus, .writeByte (d ||| 0x01)] [a0, a1, a2, a3,
       a4] e) : runRows (readPhaseRows ++ rs) s = runRows rs
      { s with
        owned := true
        trace := s.trace ++ [.opened, .tx d a1.status, .tx g a2.status, .restarted, .tx (d ||| 0x01) a4.status]
        seq := s.seq.map (· + 5)
        env := e } := by
  cases h with | cons h1 h =>
  cases h with | cons h2 h =>
  cases h with | cons h3 h =>
  cases h with | cons h4 h =>
  cases h with | cons h5 h =>
  cases h
  rw [readPhaseRows, List.append_assoc, runRows_openRows hp ho hd hg (.cons h1 (.cons h2 (.cons h3 (.nil _))))]
  simp only [List.cons_append, List.nil_append]
  rw [runRows_of_answer (p := .restartBus) (by exact hp) rfl rfl h4 rfl rfl]
  rw [runRows_of_answer (p := .writeByte (d ||| 0x01)) rfl (by simp [rowPrim, sourceByte, afterPrim, hd,
      readForm]) rfl h5 rfl rfl]
  congr 1
  simp [afterPrim, ownedAfter, eventOf, rowIndex, Option.map_map, Function.comp_def, hp]

/-- The primitives of a one-byte read frame, up to its close. -/
def readFramePrims (d g : Byte) : List Prim := [.openBus, .writeByte d, .writeByte g, .restartBus,
    .writeByte (d ||| 0x01), .readByte, .notAck]
/-- The primitives of a one-byte write frame. -/
def writeFramePrims (d g v : Byte) : List Prim := [.openBus, .writeByte d, .writeByte g, .writeByte v, .closeBus]

/-- The read frame of one byte, up to its close. -/
theorem runRows_readByteRows {d g : Byte} {s : State} {c : Row} {rs : List Row} {a0 a1 a2 a3 a4 a5 a6 : Answer}
    {e : Env} (hp : s.pending = none) (ho : s.owned = false) (hd : s.latches.dev = some d) (hg : s.latches.reg = some g)
   (hi : s.idx = some 0) (h : Env.Answers s.env (readFramePrims d g) [a0, a1, a2, a3, a4, a5, a6] e) :
    runRows (readByteRows c ++ rs) s = runRows (c :: rs)
      { s with
        owned := true
        tmp := some a5.byte
        trace := s.trace ++ [.opened, .tx d a1.status, .tx g a2.status, .restarted, .tx (d ||| 0x01) a4.status, .rx a5.byte, .nack]
        seq := s.seq.map (· + 7)
        env := e } := by
  cases h with | cons h1 h =>
  cases h with | cons h2 h =>
  cases h with | cons h3 h =>
  cases h with | cons h4 h =>
  cases h with | cons h5 h =>
  cases h with | cons h6 h =>
  cases h with | cons h7 h =>
  cases h
  rw [readByteRows, List.append_assoc,
      runRows_readPhaseRows hp ho hd hg (.cons h1 (.cons h2 (.cons h3 (.cons h4 (.cons h5 (.nil _))))))]
  simp only [List.cons_append, List.nil_append]
  rw [runRows_of_answer (p := .readByte) (by exact hp) rfl rfl h6 rfl rfl]
  rw [runRows_of_answer (p := .notAck) rfl rfl rfl h7 rfl rfl]
  congr 1
  simp [afterPrim, ownedAfter, eventOf, rowIndex, Option.map_map, Function.comp_def, hp, hi]

/-- The write frame of one byte, to the completion of the command. -/
theorem runRows_writeByteRows {d g v : Byte} {src : Source} {s : State} {a0 a1 a2 a3 a4 : Answer} {e : Env}
    (hp : s.pending = none) (ho : s.owned = false) (hd : s.latches.dev = some d) (hg : s.latches.reg = some g)
   (hsrc : ∀ t : State, t.latches = s.latches → t.tmp = s.tmp → t.buf = s.buf → sourceByte t src = .next v)
       (hix : rowIndex (.send src) = none) (h : Env.Answers s.env (writeFramePrims d g v) [a0, a1, a2, a3, a4] e) :
    runRows (writeByteRows src) s = .next (finish
      { s with
        owned := false
        trace := s.trace ++ [.opened, .tx d a1.status, .tx g a2.status, .tx v a3.status, .closed]
        seq := s.seq.map (· + 5)
        env := e }) := by
  cases h with | cons h1 h =>
  cases h with | cons h2 h =>
  cases h with | cons h3 h =>
  cases h with | cons h4 h =>
  cases h with | cons h5 h =>
  cases h
  rw [writeByteRows, runRows_openRows hp ho hd hg (.cons h1 (.cons h2 (.cons h3 (.nil _))))]
  rw [runRows_of_answer (p := .writeByte v) (by exact hp) (by simp [rowPrim, hsrc]) rfl h4 rfl rfl]
  rw [runRows_of_answer (p := .closeBus) rfl rfl rfl h5 rfl rfl]
  rw [runRows_nil]
  congr 2
  simp [afterPrim, ownedAfter, eventOf, hix, show rowIndex .closeBus = none from rfl, Option.map_map,
      Function.comp_def, hp]

/-- The primitives of the loop of ReadBytes. -/
def readLoopPrims : Nat → List Prim
  | 0 => []
  | n + 1 => .readByte :: (if n = 0 then .notAck else .ack) :: readLoopPrims n

/-- The bytes received in the loop of ReadBytes: those of every other answer. -/
def receivedBytes : List Answer → List Byte
  | a :: _ :: as => a.byte :: receivedBytes as
  | _ => []

/-- Two primitives for each byte. -/
theorem readLoopPrims_length (n : Nat) : (readLoopPrims n).length = 2 * n := by
  induction n with
  | zero => rfl
  | succ n ih => simp [readLoopPrims, ih]; omega

/-- One byte for each two answers. -/
theorem receivedBytes_length (n : Nat) : ∀ as : List Answer, as.length = 2 * n → (receivedBytes as).length = n := by
  induction n with
  | zero => intro as h; simp at h; subst h; rfl
  | succ n ih =>
    intro as h
    match as with
    | [] => simp at h
    | [a] => simp at h; omega
    | a :: b :: as => simp [receivedBytes]; apply ih; simp at h; omega

/-- The loop of ReadBytes fills the buffer. -/
theorem runRows_readLoopRows (n : Nat) : ∀ {i : Nat} {s : State} {rs : List Row} {as : List Answer} {e : Env},
    s.pending = none → s.owned = true → i + n ≤ s.buf.length →
   Env.Answers s.env (readLoopPrims n) as e → ∃ idx, runRows (readLoopRows i n ++ rs) s = runRows rs
      { s with
        trace := s.trace ++ readData (receivedBytes as)
        buf := s.buf.take i ++ receivedBytes as ++ s.buf.drop (i+n)
        idx := idx
        seq := s.seq.map (· + 2*n)
        env := e } := by
  induction n with
  | zero =>
    intro i s rs as e hp ho hb h
    cases h
    refine ⟨s.idx, ?_⟩
    simp [readLoopRows, readData, receivedBytes]
  | succ n ih =>
    intro i s rs as e hp ho hb h
    cases h with | cons h2 h =>
    cases h with | cons h3 h =>
    rename_i e2 a2 e3 a3 as
    have hi : i < s.buf.length := by omega
    simp only [readLoopRows, List.cons_append]
    rw [runRows_of_answer (p := .readByte) hp rfl (by simp [legalWhen, ho]) h2 (s3 :=
        { (afterPrim .readByte a2 e2 { s with idx := some i }) with buf := s.buf.set i a2.byte }) (by simp [deliver,
        storeBuffer, afterPrim, hi, rowIndex]) rfl]
    by_cases hn : n = 0
    · subst hn
      simp only [if_true] at h3 ⊢
      cases h
      rw [runRows_of_answer (p := .notAck) rfl rfl (by simp [legalWhen, ho, ownedAfter, afterPrim]) h3 rfl rfl]
      refine ⟨some i, ?_⟩
      simp only [readLoopRows, List.nil_append]
      congr 1
      simp [afterPrim, ownedAfter, eventOf, rowIndex, Option.map_map, Function.comp_def, hp, readData, receivedBytes,
          List.set_eq_take_append_cons_drop, hi]
    · simp only [hn, if_false] at h3 ⊢
      rw [runRows_of_answer (p := .ack) rfl rfl (by simp [legalWhen, ho, ownedAfter, afterPrim]) h3 rfl rfl]
      obtain ⟨idx, h4⟩ := ih (i := i+1) (rs := rs) (as := as) (e := e)
          (s := { (afterPrim .ack a3 e3 { (afterPrim .readByte a2 e2 { s with idx := some i }) with buf := s.buf.set i a2.byte, seq := s.seq.map (· + 1) }) with seq := (s.seq.map (· + 1)).map (· + 1) }) rfl (by simp [afterPrim, ownedAfter, ho]) (by simp [afterPrim]; omega) h
      refine ⟨idx, ?_⟩
      refine Eq.trans ?_ (h4.trans ?_)
      · rfl
      · refine congrArg _ ?_
        have hlen := (Env.Answers.moves h).2.2
        rw [readLoopPrims_length] at hlen
        have hds := receivedBytes_length n as hlen
        obtain ⟨x, xs, hxs⟩ : ∃ x xs, receivedBytes as = x :: xs := by
          cases hh : receivedBytes as with
          | nil => rw [hh] at hds; simp at hds; omega
          | cons x xs => exact ⟨x, xs, rfl⟩
        have e1 : i + 1 + n = i + (n + 1) := by omega
        have e2 : List.take (i+1) (s.buf.set i a2.byte) = s.buf.take i ++ [a2.byte] := by
          rw [List.take_add_one]
          have : List.take i (s.buf.set i a2.byte) = List.take i s.buf := by
            rw [List.take_set, List.set_eq_of_length_le (by simp)]
          simp [hi, this]
        have e3 : List.drop (i + (n+1)) (s.buf.set i a2.byte) = s.buf.drop (i + (n+1)) := by
          rw [List.drop_set]; simp
        simp [afterPrim, ownedAfter, eventOf, Option.map_map, Function.comp_def, hp, receivedBytes, hxs, readData, e1,
            e2, e3, Nat.add_assoc, show 2 + 2 * n = 2 * (n + 1) by omega]

/-- The loop of WriteBytes sends the buffer. -/
theorem runRows_writeLoopRows (n : Nat) : ∀ {i : Nat} {s : State} {rs : List Row} {as : List Answer} {e : Env},
    s.pending = none → s.owned = true → i + n ≤ s.buf.length →
   Env.Answers s.env (((s.buf.drop i).take n).map Prim.writeByte) as e → ∃ idx,
       runRows (writeLoopRows i n ++ rs) s = runRows rs
      { s with
        trace := s.trace ++ writeData ((s.buf.drop i).take n) (as.map Answer.status)
        idx := idx
        seq := s.seq.map (· + n)
        env := e } := by
  induction n with
  | zero =>
    intro i s rs as e hp ho hb h
    simp at h
    cases h
    refine ⟨s.idx, ?_⟩
    simp [writeLoopRows, writeData]
  | succ n ih =>
    intro i s rs as e hp ho hb h
    have hi : i < s.buf.length := by omega
    have htk : (s.buf.drop i).take (n+1) = s.buf[i] :: (s.buf.drop (i+1)).take n := by
      rw [List.drop_eq_getElem_cons hi]; rfl
    rw [htk, List.map_cons] at h
    cases h with | cons h2 h =>
    rename_i e2 a2 as
    simp only [writeLoopRows, List.cons_append]
    rw [runRows_of_answer (p := .writeByte s.buf[i]) hp (by simp [rowPrim, sourceByte, hi]) (by simp [legalWhen,
        ho]) h2 rfl rfl]
    obtain ⟨idx, h4⟩ := ih (i := i+1) (rs := rs) (as := as) (e := e)
        (s := { (afterPrim (.writeByte s.buf[i]) a2 e2 { s with idx := some i }) with seq := s.seq.map (· + 1) }) rfl (by simp [afterPrim, ownedAfter, ho]) (by simp [afterPrim]; omega) h
    refine ⟨idx, ?_⟩
    refine Eq.trans ?_ (h4.trans ?_)
    · rfl
    · refine congrArg _ ?_
      simp [afterPrim, ownedAfter, eventOf, Option.map_map, Function.comp_def, hp, htk, writeData, Nat.add_assoc,
          Nat.add_comm 1 n]

end Sys2Proof.Machine
end

