-- ==== Sys2Proof/Laws/Operands.lean ====
section
/-! SUPPORT. Every formula of the bit commands, bit by bit (30_encoding.md R85, 42_bit_access.md R150 to R156). -/
namespace Sys2Proof.Machine

/-- `bitMask k` has bit `k` alone. -/
theorem bitMask_getLsbD (k j : Nat) (hk : k ≤ 7) : (bitMask k).getLsbD j = decide (j = k) := by
  unfold bitMask shl8
  simp only [BitVec.getLsbD_shiftLeft]
  rw [show (1 : Byte) = 1#8 from rfl, BitVec.getLsbD_one]
  by_cases h : j = k
  · subst h; simp; omega
  · simp [h]; omega

/-- The bounds of a legal bit field. -/
theorem fieldOk_bounds {b n : Byte} (h : fieldOk b n = true) : b.toNat ≤ 7 ∧ 1 ≤ n.toNat ∧ n.toNat ≤ 8 ∧
    n.toNat ≤ b.toNat + 1 := by
  simp [fieldOk] at h; omega

/-- `2^n - 1` has its `n` low bits set. -/
theorem lowOnes_getLsbD (n k : Nat) : (BitVec.ofNat 8 (2 ^ n - 1)).getLsbD k = decide (k < 8 ∧ k < n) := by
  simp [BitVec.getLsbD_ofNat, Nat.testBit_two_pow_sub_one]

/-- `FIELDMASK` has the bits `LOW..BITSTART`. -/
theorem fieldMask_getLsbD {b n : Byte} (h : fieldOk b n = true) (k : Nat) :
    (fieldMask b n).getLsbD k = decide (b.toNat + 1 - n.toNat ≤ k ∧ k ≤ b.toNat) := by
  have := fieldOk_bounds h
  unfold fieldMask shl8 lowBit
  simp only [BitVec.getLsbD_shiftLeft, lowOnes_getLsbD]
  obtain ⟨low, hl⟩ : ∃ low, low = b.toNat + 1 - n.toNat := ⟨_, rfl⟩
  rw [← hl, Bool.eq_iff_iff]
  simp
  omega

/-- `KEEP` has the other bits. -/
theorem keepMask_getLsbD {b n : Byte} (h : fieldOk b n = true) (k : Nat) (hk : k < 8) :
    (keepMask b n).getLsbD k = !decide (b.toNat + 1 - n.toNat ≤ k ∧ k ≤ b.toNat) := by
  unfold keepMask
  rw [BitVec.getLsbD_not, fieldMask_getLsbD h]; simp [hk]

/-- The loop of ReadBits keeps the bits `BITSTART - n + 1..BITSTART`. -/
theorem maskedBits_getLsbD (t : Byte) (b : Nat) (hb : b ≤ 7) (n : Nat) (hn : n ≤ b + 1) (k : Nat) :
    (maskedBits t b n).getLsbD k = (t.getLsbD k && decide (b + 1 - n ≤ k ∧ k ≤ b)) := by
  induction n with
  | zero => simp [maskedBits]
  | succ n ih =>
    simp only [maskedBits, BitVec.getLsbD_or, BitVec.getLsbD_and, ih (by omega),
        bitMask_getLsbD _ _ (show b - n ≤ 7 by omega)]
    cases t.getLsbD k <;> simp
    by_cases h1 : k = b - n <;> by_cases h2 : b + 1 - n ≤ k <;> by_cases h3 : k ≤ b <;> simp [h1, h3] <;> omega

/-- Bit `k` of the result of ReadBits is bit `LOW + k` of the byte read. -/
theorem readBitsValue_getLsbD {t b n : Byte} (h : fieldOk b n = true) (k : Nat) :
    (readBitsValue t b n).getLsbD k = (decide (k < n.toNat) && t.getLsbD (b.toNat + 1 - n.toNat + k)) := by
  have := fieldOk_bounds h
  unfold readBitsValue shr8 lowBit
  rw [BitVec.getLsbD_ushiftRight, maskedBits_getLsbD _ _ (by omega) _ (by omega)]
  cases t.getLsbD (b.toNat + 1 - n.toNat + k) <;> simp
  omega

/-- Bit `k` of the field in place is bit `k - LOW` of `VALUE`. -/
theorem placedField_getLsbD {v b n : Byte} (h : fieldOk b n = true) (k : Nat) :
    (placedField v b n).getLsbD k = (decide (b.toNat + 1 - n.toNat ≤ k ∧
    k ≤ b.toNat) && v.getLsbD (k - (b.toNat + 1 - n.toNat))) := by
  have := fieldOk_bounds h
  unfold placedField shr8 shl8
  rw [BitVec.getLsbD_ushiftRight, BitVec.getLsbD_shiftLeft]
  by_cases h1 : b.toNat + 1 - n.toNat ≤ k <;> by_cases h2 : k ≤ b.toNat <;> simp [h1, h2]
  · rw [show 7 - b.toNat + k - (8 - n.toNat) = k - (b.toNat + 1 - n.toNat) by omega]
    cases v.getLsbD (k - (b.toNat + 1 - n.toNat)) <;> simp; omega
  · intro; omega
  · intro; omega
  · intro; omega

/-- Bit `k` of the byte WriteBits writes back. -/
theorem writeBitsValue_getLsbD {t b n v : Byte} (h : fieldOk b n = true) (k : Nat) (hk : k < 8) :
    (writeBitsValue t b n v).getLsbD k = if b.toNat + 1 - n.toNat ≤ k ∧
    k ≤ b.toNat then v.getLsbD (k - (b.toNat + 1 - n.toNat)) else t.getLsbD k := by
  unfold writeBitsValue
  rw [BitVec.getLsbD_or, BitVec.getLsbD_and, keepMask_getLsbD h k hk, placedField_getLsbD h]
  by_cases hc : b.toNat + 1 - n.toNat ≤ k ∧ k ≤ b.toNat
  · simp only [hc]; simp
  · simp only [hc, decide_false]; simp

/-- Bit `k` of the byte WriteBit writes back. -/
theorem writeBitValue_getLsbD {t p v : Byte} (h : p.toNat ≤ 7) (k : Nat) (hk : k < 8) :
    (writeBitValue t p v).getLsbD k = if k = p.toNat then decide (v ≠ 0) else t.getLsbD k := by
  have hz : isNonzero v = decide (v ≠ 0) := by
    unfold isNonzero
    by_cases hv : v = 0
    · subst hv; rfl
    · have : (v != 0) = true := bne_iff_ne.mpr hv
      rw [this]; exact (decide_eq_true hv).symm
  unfold writeBitValue
  rw [hz]
  by_cases hv : v = 0
  · simp only [hv, ne_eq, not_true_eq_false, decide_false, Bool.false_eq_true, if_false, BitVec.getLsbD_and,
      BitVec.getLsbD_not, bitMask_getLsbD _ _ h, hk, decide_true, Bool.true_and]
    by_cases hkp : k = p.toNat <;> simp only [hkp, decide_true, decide_false, if_true, if_false] <;> simp
  · simp only [ne_eq, hv, not_false_eq_true, decide_true, if_true, BitVec.getLsbD_or, bitMask_getLsbD _ _ h]
    by_cases hkp : k = p.toNat <;> simp only [hkp, decide_true, decide_false, if_true, if_false] <;> simp

end Sys2Proof.Machine
end

