-- ==== Sys2Proof/Laws/PerInstr.lean ====
section
/-! SUPPORT. One family of statements made per instruction. `OpField`: the encoded word of a command is a descriptor whose
`OP` field is the command's code (30_encoding.md R86, R87), and the encoded word of a primitive is a `PRIM11` request. -/
namespace Sys2Proof.Laws.OpField

/-- The `OP` field of the word of an instruction. -/
def Statement (i : Instr) : Prop :=
  match encode i with
  | .cmd48 d => ∃ op, i.opcode? = some op ∧ (fieldsOf d).op = op.code
  | .prim11 _ => i.opcode? = none

/-- The `OP` field of six fields put together is the first of them. -/
theorem op_of_descriptor (f : Fields) : (fieldsOf (descriptorOf f)).op = f.op := by rw [fieldsOf_descriptorOf]

theorem readBytes (dev reg len : Byte) : Statement (.readBytes dev reg len) := ⟨.readBytes, rfl, op_of_descriptor _⟩
theorem writeBytes (dev reg len : Byte) : Statement (.writeBytes dev reg len) := ⟨.writeBytes, rfl, op_of_descriptor _⟩
theorem readByte (dev reg : Byte) : Statement (.readByte dev reg) := ⟨.readByte, rfl, op_of_descriptor _⟩
theorem writeByte (dev reg value : Byte) : Statement (.writeByte dev reg value) :=
  ⟨.writeByte, rfl, op_of_descriptor _⟩
theorem readBit (dev reg bitpos : Byte) : Statement (.readBit dev reg bitpos) := ⟨.readBit, rfl, op_of_descriptor _⟩
theorem readBits (dev reg bitstart flen : Byte) : Statement (.readBits dev reg bitstart flen) :=
  ⟨.readBits, rfl, op_of_descriptor _⟩
theorem writeBit (dev reg bitpos value : Byte) : Statement (.writeBit dev reg bitpos value) :=
  ⟨.writeBit, rfl, op_of_descriptor _⟩
theorem writeBits (dev reg bitstart flen value : Byte) : Statement (.writeBits dev reg bitstart flen value) :=
  ⟨.writeBits, rfl, op_of_descriptor _⟩
theorem openBus : Statement .openBus := rfl
theorem restartBus : Statement .restartBus := rfl
theorem closeBus : Statement .closeBus := rfl
theorem sendByte (b : Byte) : Statement (.sendByte b) := rfl
theorem receiveByte : Statement .receiveByte := rfl
theorem ack : Statement .ack := rfl
theorem notAck : Statement .notAck := rfl

end Sys2Proof.Laws.OpField
end

