-- ==== Sys2Proof/Laws/Slaves.lean ====
section
/-! SUPPORT. `ENV` with fixture slaves attached: what an answer does to them (95_test_vectors.md section 1). -/
namespace Sys2Proof.Machine

/-- A primitive that is not the store of a data byte into the register leaves the register alone. -/
theorem Slave.observe_reg {sl : Slave} {p : Prim} {r : Byte}
    (h : ∀ b, p = .writeByte b → sl.expectAddr = true ∨ sl.sel ≠ .write ∨ sl.first = true ∨ sl.ptr ≠ r) :
    (sl.observe p).1.reg r = sl.reg r := by
  cases p with
  | writeByte b =>
    have := h b rfl
    simp only [Slave.observe, Slave.onAddress, Slave.onData]
    cases he : sl.expectAddr
    · cases hs : sl.sel
      · simp
      · cases hf : sl.first
        · have hp : sl.ptr ≠ r := by simpa [he, hs, hf] using this
          exact Memory.read_write_other _ _ _ _ fun e => hp (BitVec.eq_of_toNat_eq e)
        · simp; rfl
      · simp
    · simp only [if_true]; split <;> rfl
  | readByte => simp only [Slave.observe, Slave.onReceive]; split <;> rfl
  | openBus | restartBus | closeBus | ack | notAck => rfl

/-- The slave at an address, after the attached slaves observed a primitive. -/
theorem find_slave_observe (p : Prim) (a : Addr7) (slaves : List Slave) :
    ((slaves.map fun sl => sl.observe p).map Prod.fst).find? (fun sl => sl.addr == a) =
      (slaves.find? fun sl => sl.addr == a).map fun sl => (sl.observe p).1 := by
  induction slaves with
  | nil => rfl
  | cons s slaves ih =>
    simp only [List.map_cons, List.find?_cons, Slave.observe_addr]
    cases s.addr == a
    · exact ih
    · rfl

/-- `ENV` that lets the attached slaves see every primitive, with no other writer: an answer is the slaves' observation. -/
theorem Env.answer_exclusive {e e' : Env} {p : Prim} {a : Answer} (hx : e.Exclusive) (h : e.answer p = some (a, e')) :
    e'.Exclusive ∧ e'.bus = (e.bus.observe p).1 := by
  have hm := (Env.answer_env h).2.1
  refine ⟨fun m hm' => hx m (List.mem_of_mem_tail (hm ▸ hm')), ?_⟩
  have hn : e.next.pokes = [] ∧ e.next.reaches = true := by
    unfold Env.next
    cases hh : e.moves with
    | nil => exact ⟨rfl, rfl⟩
    | cons m ms => exact hx m (by rw [hh]; simp)
  rw [Env.answer_bus h, hn.2, Env.busAt_of_no_pokes hn.1, if_pos rfl]

/-- `ENV` that is one fixture slave answers with the slave's acknowledge and the byte it drives. -/
theorem Env.answer_fixture {e : Env} {sl : Slave} (h : e.IsFixture sl) (p : Prim) :
    ∃ a e', e.answer p = some (a, e') ∧ e'.IsFixture (sl.observe p).1 ∧
      a.status = (if (sl.observe p).2.acked then .ok else .noAck) ∧
      ∀ b, (sl.observe p).2.data = some b → a.byte = b := by
  obtain ⟨h1, h2⟩ := h
  have hn : e.next = Move.free := by
    unfold Env.next
    cases hm : e.moves with
    | nil => rfl
    | cons m ms => exact h1 m (by rw [hm]; simp)
  have hb := Env.busAt_of_no_pokes (e := e) (by rw [hn]; rfl) p
  refine ⟨_, _, by unfold Env.answer; rw [hn, hb]; rfl, ⟨fun m hm => h1 m (List.mem_of_mem_tail hm), ?_⟩, ?_, ?_⟩
  · simp [Move.free, h2, Bus.observe]
  · simp [Move.free, h2, Bus.observe]
  · intro b hb
    simp [Move.free, h2, Bus.observe, hb]

end Sys2Proof.Machine
end

