-- ==== Sys2Proof/Tests/Slice0.lean ====
section
/-! SUPPORT. Tests and witnesses. Expected results are from 95_test_vectors.md (sections 2 to 4) and the tables of
30_encoding.md; a witness shows that the hypotheses of a statement can be met together. -/
namespace Sys2Proof.Tests
open Sys2Proof Sys2Proof.Machine

/-! ### Helpers -/

/-- The next state, if there is one. -/
def nextOf : Result State → Option State
  | .next t => some t
  | .fault _ | .refused _ => none

/-- The refusal, if there is one. -/
def refusalOf : Result State → Option Refusal
  | .refused r => some r
  | .next _ | .fault _ => none

/-- The fault, if there is one. -/
def faultOf : Result State → Option Fault
  | .fault f => some f
  | .next _ | .refused _ => none

/-- `SLAVE_REF(0x28)` with the registers given, from reset. -/
def slaved (regs : Memory) : State :=
  { State.reset with env := { bus := .fixture [{ addr := 0x28, regs := regs }] } }

/-- `SLAVE_REF(0x28)` whose `n + 1`-st move is `m`. -/
def moved (regs : Memory) (n : Nat) (m : Move) : State :=
  { slaved regs with env := { (slaved regs).env with moves := List.replicate n Move.free ++ [m] } }

/-- `ENV` never completes the `n + 1`-st primitive. -/
def hanging (n : Nat) : State := moved [] n { completes := false }

/-- The bus owned, and the next move of `ENV`. -/
def owning (m : Move) : State := { State.reset with owned := true, env := { moves := [m] } }

/-- What one instruction appends to an empty `TRACE` and hands back. -/
def outcomeOf (i : Instr) (s : State) : Option (List Event × Response) :=
  (nextOf (exec i s)).map fun t => (t.trace, t.returned)

/-- What one instruction leaves in a register of the slave at 0x28. -/
def registerAfter (i : Instr) (s : State) (r : Byte) : Option Byte :=
  (nextOf (exec i s)).bind fun t => t.env.bus.register 0x28 r

/-! ### WellFormed refuses each ill-formed operand (30_encoding.md R88) -/

theorem test_wf_dev_bit0 : (Instr.writeByte 0x51 0x10 0).wellFormed = false := by decide
theorem test_wf_bitpos : (Instr.readBit 0x50 0x10 8).wellFormed = false := by decide
theorem test_wf_writeBit_bitpos : (Instr.writeBit 0x50 0x10 8 1).wellFormed = false := by decide
theorem test_wf_field_start : (Instr.readBits 0x50 0x10 8 1).wellFormed = false := by decide
theorem test_wf_field_zero : (Instr.readBits 0x50 0x10 4 0).wellFormed = false := by decide
theorem test_wf_field_long : (Instr.writeBits 0x50 0x10 7 9 0).wellFormed = false := by decide
theorem test_wf_field_underflow : (Instr.writeBits 0x50 0x10 2 4 0).wellFormed = false := by decide
theorem test_wf_whole_byte : (Instr.readBits 0x50 0x10 7 8).wellFormed = true := by decide

/-! ### Decoding: `OP`, `DEV`, `REG`, `A`, `B`, `C` (R86), `SEL`, `DATA` (R90), written out from the tables -/

theorem test_decode_readBytes : decode (.cmd48 0x00_50_10_03_00_00) = .ok (.readBytes 0x50 0x10 3) := by decide
theorem test_decode_writeBytes : decode (.cmd48 0x01_50_20_03_00_00) = .ok (.writeBytes 0x50 0x20 3) := by decide
theorem test_decode_readByte : decode (.cmd48 0x02_50_10_00_00_00) = .ok (.readByte 0x50 0x10) := by decide
theorem test_decode_writeByte : decode (.cmd48 0x03_50_10_00_00_AB) = .ok (.writeByte 0x50 0x10 0xAB) := by decide
theorem test_decode_readBit : decode (.cmd48 0x04_50_10_07_00_00) = .ok (.readBit 0x50 0x10 7) := by decide
theorem test_decode_readBits : decode (.cmd48 0x05_50_10_04_03_00) = .ok (.readBits 0x50 0x10 4 3) := by decide
theorem test_decode_writeBit : decode (.cmd48 0x06_50_10_02_00_01) = .ok (.writeBit 0x50 0x10 2 1) := by decide
theorem test_decode_writeBits : decode (.cmd48 0x07_50_10_04_03_FA) = .ok (.writeBits 0x50 0x10 4 3 0xFA) := by decide
theorem test_decode_openBus : decode (.prim11 0b000_00000000) = .ok .openBus := by decide
theorem test_decode_restartBus : decode (.prim11 0b001_00000000) = .ok .restartBus := by decide
theorem test_decode_closeBus : decode (.prim11 0b010_00000000) = .ok .closeBus := by decide
theorem test_decode_sendByte : decode (.prim11 0b011_01010000) = .ok (.sendByte 0x50) := by decide
theorem test_decode_receiveByte : decode (.prim11 0b100_00000000) = .ok .receiveByte := by decide
theorem test_decode_ack : decode (.prim11 0b101_00000000) = .ok .ack := by decide
theorem test_decode_notAck : decode (.prim11 0b110_00000000) = .ok .notAck := by decide
theorem test_decode_writeBytes_c : decode (.cmd48 0x01_50_10_02_00_FF) = .error .illegalDescriptor := by decide
theorem test_decode_readByte_a : decode (.cmd48 0x02_50_10_01_00_00) = .error .illegalDescriptor := by decide
theorem test_decode_op8 : decode (.cmd48 0x08_50_10_00_00_00) = .error .illegalDescriptor := by decide
theorem test_decode_sel7 : decode (.prim11 0b111_00000000) = .error .illegalPrimitive := by decide
theorem test_decode_data : decode (.prim11 0b100_00000001) = .error .illegalPrimitive := by decide
theorem test_table_word : decodeTableWord 48 0x075010040302 = some (.writeBits 0x50 0x10 4 3 2) := by decide
theorem test_table_request : decodeTableWord 16 0x600 = some .notAck := by decide
theorem test_table_upper_bits : decodeTableWord 16 0x800 = none := by decide

/-! ### One instruction, one step -/

/-- B2: two acknowledges, one not-acknowledge. -/
theorem test_readBytes_b2 :
    (nextOf (exec (.readBytes 0x50 0x10 3)
      { slaved [(0x10, 0x11), (0x11, 0x22), (0x12, 0x33)] with buf := [0, 0, 0, 9] })).map (fun t => (t.trace, t.buf)) =
      some ([.opened, .tx 0x50 .ok, .tx 0x10 .ok, .restarted, .tx 0x51 .ok, .rx 0x11, .ack, .rx 0x22, .ack, .rx 0x33,
        .nack, .closed], [0x11, 0x22, 0x33, 9]) := by decide

/-- B4: a zero-length read. -/
theorem test_readBytes_b4 : outcomeOf (.readBytes 0x50 0x10 0) (slaved []) =
    some ([.opened, .tx 0x50 .ok, .tx 0x10 .ok, .restarted, .tx 0x51 .ok, .closed], .nothing) := by decide

/-- B5. -/
theorem test_writeBytes_b5 : outcomeOf (.writeBytes 0x50 0x10 2) { slaved [] with buf := [0xAA, 0x55] } =
    some ([.opened, .tx 0x50 .ok, .tx 0x10 .ok, .tx 0xAA .ok, .tx 0x55 .ok, .closed], .nothing) := by decide

theorem test_writeBytes_b5_registers :
    registerAfter (.writeBytes 0x50 0x10 2) { slaved [] with buf := [0xAA, 0x55] } 0x11 = some 0x55 := by decide

/-- B9. -/
theorem test_readByte_b9 : outcomeOf (.readByte 0x50 0x10) (slaved [(0x10, 0x69)]) =
    some ([.opened, .tx 0x50 .ok, .tx 0x10 .ok, .restarted, .tx 0x51 .ok, .rx 0x69, .nack, .closed], .byte 0x69) := by
  decide

/-- B14: the `Restart()` never completes. -/
theorem test_readByte_b14 : (nextOf (exec (.readByte 0x50 0x10) (hanging 3))).map
    (fun t => (t.trace, t.pending, faultOf (step t))) =
      some ([.opened, .tx 0x50 .ok, .tx 0x10 .ok], some .restartBus, some .hang) := by decide

/-- B13: a write-collision on the third byte sent does not stop the command. -/
theorem test_writeByte_b13 : outcomeOf (.writeByte 0x50 0x10 0xAB) (moved [] 3 { status := some .writeCollision }) =
    some ([.opened, .tx 0x50 .ok, .tx 0x10 .ok, .tx 0xAB .writeCollision, .closed], .nothing) := by decide

/-- B11: nothing answers at 0x29. -/
theorem test_writeByte_b11 : outcomeOf (.writeByte 0x52 0x00 0x55) (slaved [(0, 0x11)]) =
    some ([.opened, .tx 0x52 .noAck, .tx 0x00 .noAck, .tx 0x55 .noAck, .closed], .nothing) := by decide

/-- Section 3.4, ReadBit: 0x69, bit 3; not normalised. -/
theorem test_readBit : (outcomeOf (.readBit 0x50 0x10 3) (slaved [(0x10, 0x69)])).map Prod.snd =
    some (.byte 0x08) := by decide

theorem test_readBit_clear : (outcomeOf (.readBit 0x50 0x10 7) (slaved [(0x10, 0x7F)])).map Prod.snd =
    some (.byte 0x00) := by decide

/-- S1. -/
theorem test_readBits_s1 : (outcomeOf (.readBits 0x50 0x10 4 3) (slaved [(0x10, 0x69)])).map Prod.snd =
    some (.byte 0x02) := by decide

/-- Section 3.4, ReadBits: 0xA5, 7, 4. -/
theorem test_readBits_high : (outcomeOf (.readBits 0x50 0x10 7 4) (slaved [(0x10, 0xA5)])).map Prod.snd =
    some (.byte 0x0A) := by decide

/-- Section 3.4, WriteBit: 0x69, bit 1, `VALUE` 0x80. -/
theorem test_writeBit : registerAfter (.writeBit 0x50 0x10 1 0x80) (slaved [(0x10, 0x69)]) 0x10 = some 0x6B := by decide

/-- P7: another party changes the register between the two frames, and its change is lost. -/
theorem test_writeBit_p7 :
    (let s := moved [(0x10, 0x69)] 8 { pokes := [{ addr := 0x28, reg := 0x10, value := 0xE9 }] }
     ((outcomeOf (.writeBit 0x50 0x10 2 1) s).map fun o => o.1.drop 8, registerAfter (.writeBit 0x50 0x10 2 1) s 0x10)) =
      (some [.opened, .tx 0x50 .ok, .tx 0x10 .ok, .tx 0x6D .ok, .closed], some 0x6D) := by decide

/-- R59, R187: within the frame (here before the read-byte) nobody else changes the register. -/
theorem test_poke_inside_a_frame_is_none :
    (outcomeOf (.readByte 0x50 0x10) (moved [(0x10, 0x69)] 5 { pokes := [{ addr := 0x28, reg := 0x10, value := 0xE9 }] })).map
      Prod.snd = some (.byte 0x69) := by decide

/-- S2. -/
theorem test_writeBits_s2 : registerAfter (.writeBits 0x50 0x10 4 3 0x02) (slaved [(0x10, 0xAF)]) 0x10 = some 0xAB := by
  decide

/-- Section 3.4, WriteBits: the bits of `VALUE` above the field are shifted out. -/
theorem test_writeBits_excess : writeBitsValue 0xAF 4 3 0xFA = 0xAB := by decide

theorem test_openBus : (nextOf (exec .openBus State.reset)).map (fun t => (t.owned, t.trace, t.returned)) =
    some (true, [.opened], .nothing) := by decide
theorem test_openBus_owned : refusalOf (exec .openBus (owning {})) = some .primitiveOutOfTransaction := by decide
theorem test_restartBus : outcomeOf .restartBus (owning {}) = some ([.restarted], .nothing) := by decide
theorem test_closeBus : (nextOf (exec .closeBus (owning {}))).map (fun t => (t.owned, t.trace)) =
    some (false, [.closed]) := by decide
theorem test_closeBus_hang : (nextOf (exec .closeBus (owning { completes := false }))).map
    (fun t => (t.owned, t.trace, faultOf (step t))) = some (true, [], some .hang) := by decide
theorem test_sendByte : outcomeOf (.sendByte 0xAB) (owning { status := some .writeCollision }) =
    some ([.tx 0xAB .writeCollision], .status .writeCollision) := by decide
theorem test_sendByte_free : refusalOf (exec (.sendByte 0x50) State.reset) = some .primitiveOutOfTransaction := by decide
theorem test_receiveByte : outcomeOf .receiveByte (owning { byte := some 0x69 }) = some ([.rx 0x69], .byte 0x69) := by
  decide
theorem test_ack : outcomeOf .ack (owning {}) = some ([.ack], .nothing) := by decide
theorem test_notAck : outcomeOf .notAck (owning {}) = some ([.nack], .nothing) := by decide

/-- The checks at issue (section 3.1). -/
theorem test_issue_dev : refusalOf (exec (.writeByte 0x51 0x10 0) State.reset) = some .devBit0Set := by decide
theorem test_issue_buffer : refusalOf (exec (.readBytes 0x50 0x10 4) { slaved [] with buf := [0, 0, 0] }) =
    some .bufferTooShort := by decide

/-- The first step after reset runs the word placed. -/
theorem test_fetch_command :
    (nextOf (step ((slaved [(0x10, 0x69)]).withFetchWord 48 0x025010000000))).map (fun t => t.returned) =
      some (.byte 0x69) := by decide
theorem test_fetch_primitive : (nextOf (step (State.reset.withFetchWord 16 0x000))).map (fun t => t.trace) =
    some [.opened] := by decide
theorem test_fetch_burst : (nextOf (step ((slaved []).withFetchWord 48 0x005010020000))).map (fun t => t.buf) =
    some [0, 0] := by decide

/-! ### Witnesses: the hypotheses of each statement, met together -/

/-- A command that hangs at its `Restart()`. -/
def hung : State := (nextOf (exec (.readByte 0x50 0x10) (hanging 3))).getD State.reset

/-- An idle state with the slave attached, a buffer of three and one entry presented. -/
def presented (op : HostOp) : State := { slaved [] with buf := [1, 2, 3], program := [op] }

theorem witness_EncodeInvertsDecode :
    decode (.cmd48 0x055010070800) = .ok (.readBits 0x50 0x10 7 8) ∧ decode (.prim11 0x3FF) = .ok (.sendByte 0xFF) := by
  decide

theorem witness_DescriptorDecodesByMatchAndMask :
    (⟨.writeBit, 0x060000000000, 0xFF000000FF00⟩ : CmdRow) ∈ cmdRows ∧
    (CmdRow.selects ⟨.writeBit, 0x060000000000, 0xFF000000FF00⟩ 0x06FFFFFF00FF) = true ∧
    (CmdRow.selects ⟨.writeBit, 0x060000000000, 0xFF000000FF00⟩ 0x06FFFFFF01FF) = false := by decide

theorem witness_UnmatchedDescriptorIsRefused :
    let s := presented (.issue 0x080000000000 none)
    s.run = false ∧ s.pending = none ∧ s.program = [.issue 0x080000000000 none] ∧
      ∀ row ∈ cmdRows, row.selects 0x080000000000 = false := by decide

theorem witness_IllegalRequestIsRefused :
    let s := presented (.request 0x601)
    s.run = false ∧ s.pending = none ∧ s.program = [.request 0x601] ∧
      decode (.prim11 0x601) = .error .illegalPrimitive ∧ decode (.prim11 0x700) = .error .illegalPrimitive := by decide

theorem witness_StepRunsThePresentedInstruction :
    (presented (.issue 0x025010000000 none)).run = false ∧ (presented (.issue 0x025010000000 none)).pending = none ∧
    (presented (.issue 0x025010000000 (some [7]))).program = [.issue 0x025010000000 (some [7])] ∧
    (presented (.issue 0x025010000000 none)).program = [.issue 0x025010000000 none] ∧
    decode (.cmd48 0x025010000000) = .ok (.readByte 0x50 0x10) ∧
    (presented (.request 0x000)).program = [.request 0x000] ∧ decode (.prim11 0x000) = .ok .openBus := by decide

theorem witness_FetchWordIsRunByTheNextStep :
    State.reset.run = false ∧ State.reset.pending = none ∧
    decodeTableWord 48 0x005010030000 = some (.readBytes 0x50 0x10 3) ∧ decodeTableWord 16 0x000 = some .openBus := by
  decide

theorem witness_ResetEventRestoresResetValues :
    (presented .reset).run = false ∧ (presented .reset).pending = none ∧ (presented .reset).program = [.reset] ∧
    hung.run = true := by decide

theorem witness_IdleMachineStaysIdle :
    (slaved []).run = false ∧ (slaved []).pending = none ∧ (slaved []).program = [] := by decide

/-- Open-bus: free and answered, free and hanging, owned. -/
theorem witness_OpenBusTakesTheBus :
    State.reset.pending = none ∧ State.reset.owned = false ∧ (∃ a e, State.reset.env.answer .openBus = some (a, e)) ∧
    (hanging 0).pending = none ∧ (hanging 0).owned = false ∧ (hanging 0).env.next.completes = false ∧
    (owning {}).pending = none ∧ (owning {}).owned = true ∧ (Instr.readByte 0x50 0x10).opcode?.isSome = true :=
  ⟨rfl, rfl, ⟨_, _, rfl⟩, rfl, rfl, rfl, rfl, rfl, rfl⟩

/-- The other primitives: owned and answered, owned and hanging, free. -/
theorem witness_RestartBusKeepsTheBus :
    (owning {}).pending = none ∧ (owning {}).owned = true ∧ (∃ a e, (owning {}).env.answer .restartBus = some (a, e)) ∧
    (owning { completes := false }).env.next.completes = false ∧ State.reset.owned = false :=
  ⟨rfl, rfl, ⟨_, _, rfl⟩, rfl, rfl⟩

theorem witness_CloseBusReleasesTheBus :
    (owning {}).pending = none ∧ (owning {}).owned = true ∧ (∃ a e, (owning {}).env.answer .closeBus = some (a, e)) ∧
    (owning { completes := false }).env.next.completes = false ∧ State.reset.owned = false ∧
    (Instr.writeBytes 0x50 0x10 0).opcode?.isSome = true ∧ (planOf (.writeBit 0x50 0x10 7 1))[7 + 1]? = some .openBus :=
  ⟨rfl, rfl, ⟨_, _, rfl⟩, rfl, rfl, rfl, rfl⟩

theorem witness_WriteBytePrimitiveReturnsStatus :
    (owning {}).pending = none ∧ (owning {}).owned = true ∧
    (∃ a e, (owning { status := some .noAck }).env.answer (.writeByte 0xFF) = some (a, e) ∧ a.status = .noAck) ∧
    (owning { completes := false }).env.next.completes = false ∧ State.reset.owned = false :=
  ⟨rfl, rfl, ⟨_, _, rfl, rfl⟩, rfl, rfl⟩

theorem witness_ReadBytePrimitiveReturnsByte :
    (owning {}).pending = none ∧ (owning {}).owned = true ∧
    (∃ a e, (owning { byte := some 0xFF }).env.answer .readByte = some (a, e) ∧ a.byte = 0xFF) ∧
    (owning { completes := false }).env.next.completes = false ∧ State.reset.owned = false :=
  ⟨rfl, rfl, ⟨_, _, rfl, rfl⟩, rfl, rfl⟩

theorem witness_MasterAcknowledgeAppendsItsEvent :
    (owning {}).pending = none ∧ (owning {}).owned = true ∧ (∃ a e, (owning {}).env.answer .ack = some (a, e)) ∧
    (∃ a e, (owning {}).env.answer .notAck = some (a, e)) ∧
    (owning { completes := false }).env.next.completes = false ∧ State.reset.owned = false :=
  ⟨rfl, rfl, ⟨_, _, rfl⟩, ⟨_, _, rfl⟩, rfl, rfl⟩

/-- A primitive and a command, each completing and each hanging. -/
theorem witness_OneEventPerPrimitive :
    (∃ t, exec (.sendByte 0x50) (owning {}) = .next t ∧ t.pending = none) ∧
    (∃ t, exec (.sendByte 0x50) (owning { completes := false }) = .next t ∧ t.pending.isSome = true) ∧
    (∃ t, exec (.writeByte 0x50 0x10 0xAB) (slaved []) = .next t ∧ t.pending = none) ∧
    (∃ t, exec (.readByte 0x50 0x10) (hanging 3) = .next t ∧ t.pending.isSome = true) :=
  ⟨⟨_, rfl, rfl⟩, ⟨_, rfl, rfl⟩, ⟨_, rfl, rfl⟩, ⟨_, rfl, rfl⟩⟩

theorem witness_PrimitiveFrame :
    Instr.ack.prim? = some .ack ∧ (∃ t, exec .ack (owning {}) = .next t) ∧
    (∃ t, exec .ack (owning { completes := false }) = .next t ∧ t.pending.isSome = true) :=
  ⟨rfl, ⟨_, rfl⟩, ⟨_, rfl, rfl⟩⟩

theorem witness_RequestWhilePendingIsRefused :
    Instr.closeBus.prim?.isSome = true ∧ hung.pending.isSome = true := by decide

/-- A burst of no byte, of one byte and of 255 bytes, each completing; and one that hangs. -/
theorem witness_ReadBytesFillsTheBuffer :
    Ready (.readBytes 0x50 0x10 0) (slaved []) ∧ (slaved []).env.CompletesFor 6 ∧
    Ready (.readBytes 0x50 0x10 1) { slaved [] with buf := [0] } ∧
    Ready (.readBytes 0x50 0x10 255) { slaved [] with buf := List.replicate 255 0 } ∧
    (slaved []).env.CompletesFor 516 ∧
    Ready (.readBytes 0x50 0x10 0) (hanging 5) ∧ ¬ (hanging 5).env.CompletesFor 6 :=
  ⟨⟨⟨rfl, rfl, rfl⟩, rfl, Nat.zero_le _⟩, by simp [Env.CompletesFor, slaved], ⟨⟨rfl, rfl, rfl⟩, rfl, by decide⟩,
    ⟨⟨rfl, rfl, rfl⟩, rfl, Nat.le_of_eq List.length_replicate.symm⟩, by simp [Env.CompletesFor, slaved],
    ⟨⟨rfl, rfl, rfl⟩, rfl, Nat.zero_le _⟩, by unfold Env.CompletesFor; decide⟩

theorem witness_ZeroLengthReadIsTheAddressPhase :
    Ready (.readBytes 0x50 0x10 0) (slaved []) ∧ (slaved []).env.CompletesFor 6 :=
  ⟨⟨⟨rfl, rfl, rfl⟩, rfl, Nat.zero_le _⟩, by simp [Env.CompletesFor, slaved]⟩

theorem witness_BurstReadAcknowledgesAllButTheLast :
    Ready (.readBytes 0x50 0x10 1) { slaved [] with buf := [0] } ∧ 1 ≤ (1 : Byte).toNat ∧
    (slaved []).env.CompletesFor 8 :=
  ⟨⟨⟨rfl, rfl, rfl⟩, rfl, by decide⟩, by decide, by simp [Env.CompletesFor, slaved]⟩

theorem witness_WriteBytesSendsTheBuffer :
    Ready (.writeBytes 0x50 0x10 0) (slaved []) ∧ (slaved []).env.CompletesFor 4 ∧
    Ready (.writeBytes 0x50 0x10 255) { slaved [] with buf := List.replicate 255 0 } ∧
    (slaved []).env.CompletesFor 259 ∧
    Ready (.writeBytes 0x50 0x10 0) (hanging 3) ∧ ¬ (hanging 3).env.CompletesFor 4 :=
  ⟨⟨⟨rfl, rfl, rfl⟩, rfl, Nat.zero_le _⟩, by simp [Env.CompletesFor, slaved],
    ⟨⟨rfl, rfl, rfl⟩, rfl, Nat.le_of_eq List.length_replicate.symm⟩, by simp [Env.CompletesFor, slaved],
    ⟨⟨rfl, rfl, rfl⟩, rfl, Nat.zero_le _⟩, by unfold Env.CompletesFor; decide⟩

theorem witness_ReadByteReturnsTheByteReceived :
    Ready (.readByte 0x50 0x10) (slaved []) ∧ (slaved []).env.CompletesFor 8 ∧
    Ready (.readByte 0x50 0x10) (hanging 7) ∧ ¬ (hanging 7).env.CompletesFor 8 :=
  ⟨⟨⟨rfl, rfl, rfl⟩, rfl, Nat.zero_le _⟩, by simp [Env.CompletesFor, slaved], ⟨⟨rfl, rfl, rfl⟩, rfl, Nat.zero_le _⟩,
    by unfold Env.CompletesFor; decide⟩

theorem witness_WriteByteSendsTheValue :
    Ready (.writeByte 0x50 0x10 0xAB) (slaved []) ∧ (slaved []).env.CompletesFor 5 ∧
    Ready (.writeByte 0x50 0x10 0xAB) (hanging 0) ∧ ¬ (hanging 0).env.CompletesFor 5 :=
  ⟨⟨⟨rfl, rfl, rfl⟩, rfl, Nat.zero_le _⟩, by simp [Env.CompletesFor, slaved], ⟨⟨rfl, rfl, rfl⟩, rfl, Nat.zero_le _⟩,
    by unfold Env.CompletesFor; decide⟩

/-- The lowest and the highest bit position. -/
theorem witness_ReadBitReturnsTheMaskedBit :
    Ready (.readBit 0x50 0x10 0) (slaved []) ∧ Ready (.readBit 0x50 0x10 7) (slaved []) ∧
    (slaved []).env.CompletesFor 8 ∧ ¬ (hanging 7).env.CompletesFor 8 :=
  ⟨⟨⟨rfl, rfl, rfl⟩, rfl, Nat.zero_le _⟩, ⟨⟨rfl, rfl, rfl⟩, rfl, Nat.zero_le _⟩, by simp [Env.CompletesFor, slaved],
    by unfold Env.CompletesFor; decide⟩

/-- The smallest field and the whole byte. -/
theorem witness_ReadBitsReturnsTheFieldRightAligned :
    Ready (.readBits 0x50 0x10 0 1) (slaved []) ∧ Ready (.readBits 0x50 0x10 7 8) (slaved []) ∧
    (slaved []).env.CompletesFor 8 ∧ ¬ (hanging 7).env.CompletesFor 8 :=
  ⟨⟨⟨rfl, rfl, rfl⟩, rfl, Nat.zero_le _⟩, ⟨⟨rfl, rfl, rfl⟩, rfl, Nat.zero_le _⟩, by simp [Env.CompletesFor, slaved],
    by unfold Env.CompletesFor; decide⟩

theorem witness_WriteBitReadsModifiesWrites :
    Ready (.writeBit 0x50 0x10 0 0) (slaved []) ∧ Ready (.writeBit 0x50 0x10 7 0xFF) (slaved []) ∧
    (slaved []).env.CompletesFor 13 ∧ ¬ (hanging 12).env.CompletesFor 13 :=
  ⟨⟨⟨rfl, rfl, rfl⟩, rfl, Nat.zero_le _⟩, ⟨⟨rfl, rfl, rfl⟩, rfl, Nat.zero_le _⟩, by simp [Env.CompletesFor, slaved],
    by unfold Env.CompletesFor; decide⟩

theorem witness_WriteBitsReplacesTheFieldOnly :
    Ready (.writeBits 0x50 0x10 0 1 0xFF) (slaved []) ∧ Ready (.writeBits 0x50 0x10 7 8 0) (slaved []) ∧
    (slaved []).env.CompletesFor 13 ∧ ¬ (hanging 12).env.CompletesFor 13 :=
  ⟨⟨⟨rfl, rfl, rfl⟩, rfl, Nat.zero_le _⟩, ⟨⟨rfl, rfl, rfl⟩, rfl, Nat.zero_le _⟩, by simp [Env.CompletesFor, slaved],
    by unfold Env.CompletesFor; decide⟩

/-- Each check fails at the edge of its range. -/
theorem witness_IssueChecksRefuseInOrder :
    hung.run = true ∧ (slaved []).run = false ∧ (0x51 : Byte).getLsbD 0 = true ∧ (0x50 : Byte).getLsbD 0 = false ∧
    (slaved []).buf.length < (1 : Byte).toNat ∧ 7 < (8 : Byte).toNat ∧ (0 : Byte).toNat = 0 ∧ 8 < (9 : Byte).toNat ∧
    (2 : Byte).toNat + 1 < (4 : Byte).toNat := by decide

/-- A read-modify-write whose thirteen primitives complete, also where the one after them would not. -/
theorem witness_CommandCompletesUnlessItHangs :
    (Instr.writeBit 0x50 0x10 7 1).opcode?.isSome = true ∧ Ready (.writeBit 0x50 0x10 7 1) (slaved []) ∧
    (slaved []).env.CompletesFor 13 ∧ Ready (.writeBit 0x50 0x10 7 1) (hanging 13) ∧
    (hanging 13).env.CompletesFor (nprimOf (.writeBit 0x50 0x10 7 1)) :=
  ⟨rfl, ⟨⟨rfl, rfl, rfl⟩, rfl, Nat.zero_le _⟩, by simp [Env.CompletesFor, slaved],
    ⟨⟨rfl, rfl, rfl⟩, rfl, Nat.zero_le _⟩, by unfold Env.CompletesFor; decide⟩

/-- Hung at the first and at the last primitive. -/
theorem witness_HungCommandStaysAtItsPrimitive :
    Ready (.readByte 0x50 0x10) (hanging 0) ∧ 0 < nprimOf (.readByte 0x50 0x10) ∧ (hanging 0).env.HangsAt 0 ∧
    Ready (.readByte 0x50 0x10) (hanging 7) ∧ 7 < nprimOf (.readByte 0x50 0x10) ∧ (hanging 7).env.HangsAt 7 :=
  ⟨⟨⟨rfl, rfl, rfl⟩, rfl, Nat.zero_le _⟩, by decide, by unfold Env.HangsAt Env.CompletesFor; decide,
    ⟨⟨rfl, rfl, rfl⟩, rfl, Nat.zero_le _⟩, by decide, by unfold Env.HangsAt Env.CompletesFor; decide⟩

/-- A pending primitive that never completes; one that completes for a direct requester; one of a running command. -/
theorem witness_PendingPrimitiveIsPolled :
    hung.pending = some .restartBus ∧ hung.env.next.completes = false ∧
    ({ State.reset with owned := true, pending := some .ack } : State).env.next.completes = true ∧
    ({ hung with env := {} } : State).env.next.completes = true ∧ ({ hung with env := {} } : State).run = true := by
  decide

theorem witness_SequencerAdvancesByOne :
    (∃ t, doRow (.receiveBuffer 0) { owning {} with seq := some 5, buf := [0] } = .next t ∧ t.pending = none) ∧
    (∃ t, doRow .openBus { hanging 0 with seq := some 0 } = .next t ∧ t.pending.isSome = true) :=
  ⟨⟨_, rfl, rfl⟩, ⟨_, rfl, rfl⟩⟩

theorem witness_StatusNeverSteers :
    (slaved []).env.CompletesFor 8 ∧ (moved [] 1 { status := some .noAck }).env.CompletesFor 8 ∧
    (∃ t, exec (.readByte 0x50 0x10) { State.reset with env := (slaved []).env } = .next t) ∧
    (∃ t, exec (.readByte 0x50 0x10) { State.reset with env := (moved [] 1 { status := some .noAck }).env } = .next t) :=
  ⟨by simp [Env.CompletesFor, slaved], by unfold Env.CompletesFor; decide, ⟨_, rfl⟩, ⟨_, rfl⟩⟩

theorem witness_OutcomeDependsOnOperandsBufferAndEnv :
    (Instr.readByte 0x50 0x10).opcode?.isSome = true ∧ BootOk (slaved []) ∧
    BootOk { slaved [] with trace := [.opened], returned := .byte 7, tmp := some 9 } ∧
    (∃ t, exec (.readByte 0x50 0x10) (slaved []) = .next t) :=
  ⟨rfl, ⟨rfl, rfl, rfl⟩, ⟨rfl, rfl, rfl⟩, ⟨_, rfl⟩⟩

theorem witness_ByteCommandsAreBurstsOfOne :
    BootOk (slaved []) ∧ devOk 0x50 = true ∧ (slaved []).env.CompletesFor 8 ∧ (slaved []).env.CompletesFor 5 :=
  ⟨⟨rfl, rfl, rfl⟩, rfl, by simp [Env.CompletesFor, slaved], by simp [Env.CompletesFor, slaved]⟩

theorem witness_BitReadsAreReadByteThenMask :
    BootOk (slaved []) ∧ devOk 0x50 = true ∧ (slaved []).env.CompletesFor 8 ∧ bitposOk 7 = true ∧ fieldOk 7 8 = true ∧
    fieldOk 0 1 = true :=
  ⟨⟨rfl, rfl, rfl⟩, rfl, by simp [Env.CompletesFor, slaved], rfl, rfl, rfl⟩

theorem witness_ReadModifyWriteIsReadByteThenWriteByte :
    BootOk (slaved []) ∧ devOk 0x50 = true ∧ (slaved []).env.CompletesFor 13 ∧ bitposOk 7 = true ∧
    fieldOk 7 8 = true :=
  ⟨⟨rfl, rfl, rfl⟩, rfl, by simp [Env.CompletesFor, slaved], rfl, rfl⟩

/-- The smallest field at each end, and the whole byte: the fields of the arithmetic statements. -/
theorem witness_KeepMaskKeepsTheBitsOutsideTheField : fieldOk 0 1 = true ∧ fieldOk 7 1 = true ∧ fieldOk 7 8 = true := by
  decide
/-- Fields at both ends of the byte, the last loop index of the whole byte, and both ends of `BITPOS`. -/
theorem witness_MaskingLoopIsTheFieldMask : fieldOk 0 1 = true ∧ fieldOk 7 1 = true ∧ fieldOk 7 8 = true ∧
    lowBit 7 8 ≤ 7 ∧ 7 ≤ (7 : Byte).toNat ∧ bitposOk 0 = true ∧ bitposOk 7 = true := by decide
theorem witness_DoubleShiftPlacesTheField : fieldOk 0 1 = true ∧ fieldOk 7 1 = true ∧ fieldOk 7 8 = true := by decide
theorem witness_FieldRoundTripOnBytes : fieldOk 0 1 = true ∧ fieldOk 7 1 = true ∧ fieldOk 7 8 = true := by decide

/-- A running state that meets the invariant. -/
theorem hung_coherent : Coherent hung := by
  have hp : hung.pending = some .restartBus := by decide
  refine ⟨fun h => absurd h (by decide), fun _ => ⟨.readByte 0x50 0x10, 3, ?_⟩⟩
  refine ⟨by decide, by decide, by decide, by decide, by decide, by decide, by decide, by decide, by decide, by decide,
    by decide, fun p h => ?_⟩
  rw [hp] at h
  cases h
  exact ⟨.restartBus, by decide, rfl⟩

/-- The invariant, with a step from an idle state and from a running one that goes on. -/
theorem witness_EveryStepKeepsTheInvariant :
    (Coherent (slaved []) ∧ ∃ t, step (slaved []) = .next t) ∧ Coherent { hung with env := {} } ∧
    ∃ t, step { hung with env := {} } = .next t := by
  refine ⟨⟨⟨fun _ => ⟨rfl, rfl, rfl, rfl, rfl, rfl, rfl⟩, fun h => by cases h⟩, ⟨_, rfl⟩⟩, ?_, ⟨_, rfl⟩⟩
  obtain ⟨i, k, h⟩ := hung_coherent.2 (by decide)
  refine ⟨fun h => absurd h (by decide), fun _ => ⟨i, k, ?_⟩⟩
  exact ⟨h.wellFormed, h.buffer, h.op, h.command, h.latches, h.seq, h.idx, h.bound, h.owned, h.tmp, h.res, h.pending⟩

theorem witness_RunningCommandIsNeverRefused : Coherent hung ∧ hung.run = true := ⟨hung_coherent, by decide⟩

theorem witness_EveryStepKeepsSlaveRegistersCanonical :
    (presented (.issue 0x0350100000AB none)).env.bus.wf = true ∧
    ∃ t, step (presented (.issue 0x0350100000AB none)) = .next t := ⟨by decide, ⟨_, rfl⟩⟩

/-- A step that appends, and a reset event. -/
theorem witness_EveryStepExtendsTheTrace :
    (∃ t, step (presented (.issue 0x0350100000AB none)) = .next t) ∧ ∃ t, step (presented .reset) = .next t :=
  ⟨⟨_, rfl⟩, ⟨_, rfl⟩⟩

theorem slaved_fixture (regs : Memory) : (slaved regs).env.IsFixture { addr := 0x28, regs := regs } :=
  ⟨by simp [Env.Undisturbed, slaved], rfl⟩

theorem witness_ByteRoundTripOnASlave :
    BootOk (slaved []) ∧ devOk 0x50 = true ∧ (slaved []).env.IsFixture { addr := 0x28 } ∧
    (0x28 : Addr7) = (0x50 : Byte).extractLsb' 1 7 ∧ Memory.wf [] = true :=
  ⟨⟨rfl, rfl, rfl⟩, rfl, slaved_fixture [], by decide, rfl⟩

theorem witness_FieldRoundTripOnASlave :
    BootOk (slaved [(0x10, 0xAF)]) ∧ devOk 0x50 = true ∧ fieldOk 7 8 = true ∧ fieldOk 0 1 = true ∧
    (slaved [(0x10, 0xAF)]).env.IsFixture { addr := 0x28, regs := [(0x10, 0xAF)] } ∧
    (0x28 : Addr7) = (0x50 : Byte).extractLsb' 1 7 ∧ Memory.wf [(0x10, 0xAF)] = true ∧ (0x11 : Byte) ≠ 0x10 :=
  ⟨⟨rfl, rfl, rfl⟩, rfl, rfl, rfl, slaved_fixture _, by decide, by decide, by decide⟩

/-- A burst of two that wraps from register 0xFF, and a burst of none. -/
theorem witness_BurstWriteStoresTheBufferInASlave :
    Ready (.writeBytes 0x50 0xFF 2) { slaved [] with buf := [1, 2] } ∧ Ready (.writeBytes 0x50 0xFF 0) (slaved []) ∧
    (slaved []).env.IsFixture { addr := 0x28 } ∧ (0x28 : Addr7) = (0x50 : Byte).extractLsb' 1 7 ∧
    Memory.wf [] = true :=
  ⟨⟨⟨rfl, rfl, rfl⟩, rfl, by decide⟩, ⟨⟨rfl, rfl, rfl⟩, rfl, Nat.zero_le _⟩, slaved_fixture [], by decide, rfl⟩

theorem witness_BurstReadReturnsConsecutiveRegisters :
    Ready (.readBytes 0x50 0xFF 2) { slaved [] with buf := [1, 2, 3] } ∧ (slaved []).env.IsFixture { addr := 0x28 } ∧
    (0x28 : Addr7) = (0x50 : Byte).extractLsb' 1 7 :=
  ⟨⟨⟨rfl, rfl, rfl⟩, rfl, by decide⟩, slaved_fixture [], by decide⟩

theorem witness_WriteToAnAbsentSlaveIsUnnoticed :
    Ready (.writeBytes 0x52 0x00 1) { slaved [] with buf := [0x55] } ∧ (slaved []).env.IsFixture { addr := 0x28 } ∧
    (0x28 : Addr7) ≠ (0x52 : Byte).extractLsb' 1 7 :=
  ⟨⟨⟨rfl, rfl, rfl⟩, rfl, by decide⟩, slaved_fixture [], by decide⟩

/-- A store beside another register, and a command that hangs part-way. -/
theorem witness_CommandsLeaveOtherRegistersAlone :
    BootOk (slaved []) ∧ (slaved []).env.Exclusive ∧ (slaved []).env.bus.wf = true ∧
    (∃ t, exec (.writeByte 0x50 0x10 0xAB) (slaved []) = .next t) ∧
    ((0x28 : Addr7), (0x11 : Byte)) ∉ storedRegisters (.writeByte 0x50 0x10 0xAB) ∧
    BootOk (hanging 3) ∧ (hanging 3).env.Exclusive ∧ (∃ t, exec (.writeByte 0x50 0x10 0xAB) (hanging 3) = .next t) :=
  ⟨⟨rfl, rfl, rfl⟩, by simp [Env.Exclusive, slaved], by decide, ⟨_, rfl⟩, by decide, ⟨rfl, rfl, rfl⟩,
    by unfold Env.Exclusive; decide, ⟨_, rfl⟩⟩

/-- A slave that expects its address byte; a slave selected for writing beside the register. -/
theorem witness_PrimitivesLeaveOtherRegistersAlone :
    let s : State := { owning {} with env := { bus := .fixture [{ addr := 0x28, sel := .write, ptr := 0x10 }] } }
    Instr.prim? (.sendByte 0x50) = some (.writeByte 0x50) ∧ s.env.Exclusive ∧ s.env.bus.wf = true ∧
    (∃ t, exec (.sendByte 0x50) s = .next t) ∧
    (∀ sl ∈ [({ addr := 0x28, sel := .write, ptr := 0x10 } : Slave)], sl.addr = 0x28 →
      ¬ (sl.expectAddr = false ∧ sl.sel = .write ∧ sl.first = false ∧ sl.ptr = 0x11)) :=
  ⟨rfl, by simp [Env.Exclusive], by decide, ⟨_, rfl⟩, by decide⟩

/-- A move that carries another writer's change while the bus is owned, for a primitive and for a row of a command. -/
theorem witness_NothingInterleavesWithinATransaction :
    let m : Move := { pokes := [{ addr := 0x28, reg := 0x10, value := 0xE9 }] }
    (owning m).owned = true ∧ (owning m).pending = none ∧ Instr.prim? .closeBus = some .closeBus ∧
    (∃ t, exec .closeBus (owning m) = .next t) ∧ ∃ t, doRow .closeBus (owning m) = .next t :=
  ⟨rfl, rfl, rfl, ⟨_, rfl⟩, ⟨_, rfl⟩⟩

/-- P7. -/
theorem witness_ChangeBetweenTheFramesIsLost :
    let s := moved [(0x10, 0x69)] 8 { pokes := [{ addr := 0x28, reg := 0x10, value := 0xE9 }] }
    BootOk s ∧ devOk 0x50 = true ∧ (0x28 : Addr7) = (0x50 : Byte).extractLsb' 1 7 ∧ Memory.wf [(0x10, 0x69)] = true ∧
    s.env.bus = .fixture [{ addr := 0x28, regs := [(0x10, 0x69)] }] ∧
    s.env.moves = List.replicate 8 Move.free ++ [{ pokes := [{ addr := 0x28, reg := 0x10, value := 0xE9 }] }] ∧
    bitposOk 7 = true ∧ fieldOk 7 8 = true ∧ fieldOk 0 1 = true :=
  ⟨⟨rfl, rfl, rfl⟩, rfl, by decide, by decide, rfl, rfl, rfl, rfl, rfl⟩

theorem witness_OnlyReadBytesWritesTheBuffer :
    (∃ t, exec (.writeBytes 0x50 0x10 1) { slaved [] with buf := [1, 2] } = .next t) ∧
    (∃ t, exec (.readBytes 0x50 0x10 1) { slaved [] with buf := [1, 2] } = .next t) :=
  ⟨⟨_, rfl⟩, ⟨_, rfl⟩⟩

end Sys2Proof.Tests
end

/-! ### The sequencer's rows from any state, and what a run of rows keeps -/
namespace Sys2Proof.Machine

/-- Everything one row can do, whether or not its primitive is already pending: `p` is pending with `IDX` at `ix`, and it
hangs, or it completes and the answer is delivered. -/
theorem doRow_outcome {r : Row} {s t : State} (h : doRow r s = .next t) :
    ∃ (p : Prim) (ix : Option Nat),
      (s.env.answer p = none ∧ t = { s with idx := ix, pending := some p }) ∨
      (∃ a e s3, s.env.answer p = some (a, e) ∧ deliver r a (afterPrim p a e { s with idx := ix }) = .next s3 ∧
        t = { s3 with seq := s3.seq.map (· + 1) }) := by
  cases hp : s.pending with
  | none =>
    obtain ⟨p, -, -, hcase⟩ := doRow_cases hp h
    exact ⟨p, _, hcase⟩
  | some p =>
    refine ⟨p, s.idx, ?_⟩
    simp only [doRow, requestRow, hp, Option.isSome_some, if_true, andThen_next] at h
    cases ha : s.env.answer p with
    | none =>
      rw [bpComplete_of_hang ha] at h
      exact .inl ⟨rfl, by rw [← hp]; exact (Host.Outcome.next.inj h).symm⟩
    | some ae =>
      obtain ⟨a, e⟩ := ae
      rw [bpComplete_of_answer ha] at h
      obtain ⟨s3, hd, ht⟩ := andThen_eq_next.mp h
      exact .inr ⟨a, e, s3, rfl, hd, (Host.Outcome.next.inj ht).symm⟩

/-- A relation that every row of a step table keeps, and completion too, holds from the start of a run to its end. -/
theorem runRows_induction {R : State → State → Prop} (trans : ∀ {a b c}, R a b → R b c → R a c)
    (done : ∀ s, R s (finish s)) {rs : List Row} (row : ∀ r ∈ rs, ∀ s t, doRow r s = .next t → R s t)
    {s t : State} (h : runRows rs s = .next t) : R s t := by
  induction rs generalizing s with
  | nil =>
    cases h
    exact done s
  | cons r rs ih =>
    obtain ⟨u, hu, hrest⟩ := andThen_eq_next.mp h
    have hsu := row r (by simp) s u hu
    split at hrest
    · cases hrest
      exact hsu
    · exact trans hsu (ih (fun r' hr' => row r' (by simp [hr'])) hrest)

/-! ### What an instruction and a step can do -/

/-- An instruction that answers a next state was a ready command that ran its step table from position 0, or a primitive
that was performed. -/
theorem exec_cases {i : Instr} {s t : State} (h : exec i s = .next t) :
    (∃ op, runRows (planOf i) (load op (instrLatches i) s) = .next t ∧ RunningAt i 0 (load op (instrLatches i) s)) ∨
    (∃ p, i.prim? = some p ∧ perform p s = .next t) := by
  rcases command_or_primitive i with ⟨hc, -⟩ | ⟨-, hprim⟩
  · obtain ⟨op, -, hx, hR⟩ := exec_of_ready i s hc (ready_of_exec_next hc h)
    exact .inl ⟨op, hx ▸ h, hR⟩
  · obtain ⟨p, hp⟩ := Option.isSome_iff_exists.mp hprim
    exact .inr ⟨p, hp, exec_of_prim hp s ▸ h⟩

/-- Going on is a run of some rows. -/
theorem runRows_of_goOn {s t : State} (h : goOn s = .next t) : ∃ rs, runRows rs s = .next t := by
  unfold goOn at h
  split at h
  · cases h
  · obtain ⟨rows, -, hrun⟩ := andThen_eq_next.mp h
    split at hrun
    · exact ⟨_, hrun⟩
    · cases hrun

/-- The state after the reset event: the hardware's state is the reset state's, what is `HOST`'s and `ENV` stay
(10_state.md R38, 70_reset_and_hazards.md R200). -/
def afterReset (s : State) : State :=
  { State.reset with buf := s.buf, returned := s.returned, program := s.program, env := s.env }

theorem resetEvent_idle {s : State} (hr : s.run = false) : resetEvent s = .next (afterReset s) := by
  simp [resetEvent, hr, afterReset]

theorem resetEvent_running {s : State} (hr : s.run = true) : resetEvent s = .refused .resetWhileRunning := by
  simp [resetEvent, hr]

theorem runWord_of_decode {w : Word} {i : Instr} (h : decode w = .ok i) (s : State) : runWord w s = exec i s := by
  simp [runWord, h]

/-- A word that answers a next state is the word of an instruction. -/
theorem exec_of_runWord {w : Word} {s t : State} (h : runWord w s = .next t) : ∃ i, exec i s = .next t := by
  unfold runWord at h
  split at h
  · exact ⟨_, h⟩
  · cases h

/-- With a primitive pending that `ENV` never completes there is no step. -/
theorem step_pending_hang {s : State} {p : Prim} (hp : s.pending = some p) (hc : s.env.next.completes = false) :
    step s = .fault .hang := by
  simp [step, advance, hp, hc]

/-- With a primitive pending that `ENV` completes, a running command goes on. -/
theorem step_pending_running {s : State} {p : Prim} (hp : s.pending = some p) (hc : s.env.next.completes = true)
    (hr : s.run = true) : step s = goOn s := by
  simp [step, advance, hp, hc, hr]

/-- With a primitive pending that `ENV` completes and no command running, the direct requester's wait ends. -/
theorem step_pending_idle {s : State} {p : Prim} (hp : s.pending = some p) (hc : s.env.next.completes = true)
    (hr : s.run = false) : step s = .next (bpAwait p s) := by
  simp [step, advance, hp, hc, hr]

/-- With nothing pending a running command goes on. -/
theorem step_running {s : State} (hp : s.pending = none) (hr : s.run = true) : step s = goOn s := by
  simp [step, advance, hp, hr]

/-- An idle machine with nothing presented stays as it is. -/
theorem step_idle_nil {s : State} (hr : s.run = false) (hp : s.pending = none) (hq : s.program = []) :
    step s = .next s := by
  simp [step, advance, hp, hr, hq]

/-- An idle machine takes what is presented next. -/
theorem step_idle_cons {s : State} {op : HostOp} {rest : List HostOp} (hr : s.run = false) (hp : s.pending = none)
    (hq : s.program = op :: rest) : step s = accept op { s with program := rest } := by
  simp [step, advance, hp, hr, hq]

/-- What a presented entry can do: an instruction runs, with the buffer bound to it, or the reset event is taken. -/
theorem accept_cases {op : HostOp} {s t : State} (h : accept op s = .next t) :
    (∃ i buf, exec i { s with buf := buf } = .next t) ∨ (op = .reset ∧ resetEvent s = .next t) := by
  cases op with
  | issue d b =>
    obtain ⟨i, hi⟩ := exec_of_runWord h
    cases b with
    | none => exact .inl ⟨i, s.buf, hi⟩
    | some buf => exact .inl ⟨i, buf, hi⟩
  | request r =>
    obtain ⟨i, hi⟩ := exec_of_runWord h
    exact .inl ⟨i, s.buf, hi⟩
  | reset => exact .inr ⟨rfl, h⟩

/-- Everything a step can do when it answers a next state. -/
inductive StepTo (s : State) : State → Prop
  /-- A running command goes on. -/
  | running {t : State} (hr : s.run = true) (h : goOn s = .next t) : StepTo s t
  /-- The wait of a direct requester ends. -/
  | waited {p : Prim} (hr : s.run = false) (hp : s.pending = some p) : StepTo s (bpAwait p s)
  /-- An idle machine with nothing presented stays as it is. -/
  | idle (hr : s.run = false) (hp : s.pending = none) (hq : s.program = []) : StepTo s s
  /-- An idle machine runs the instruction presented next. -/
  | presented {t : State} {op : HostOp} {rest : List HostOp} {buf : List Byte} {i : Instr} (hr : s.run = false)
      (hp : s.pending = none) (hq : s.program = op :: rest)
      (h : exec i { s with program := rest, buf := buf } = .next t) : StepTo s t
  /-- An idle machine takes the reset event. -/
  | reset {rest : List HostOp} (hr : s.run = false) (hp : s.pending = none) (hq : s.program = .reset :: rest) :
      StepTo s (afterReset { s with program := rest })

theorem stepTo_of_step {s t : State} (h : step s = .next t) : StepTo s t := by
  cases hp : s.pending with
  | some p =>
    cases hc : s.env.next.completes with
    | false => rw [step_pending_hang hp hc] at h; cases h
    | true =>
      cases hr : s.run with
      | true => exact .running hr (step_pending_running hp hc hr ▸ h)
      | false =>
        rw [step_pending_idle hp hc hr] at h
        cases h
        exact .waited hr hp
  | none =>
    cases hr : s.run with
    | true => exact .running hr (step_running hp hr ▸ h)
    | false =>
      cases hq : s.program with
      | nil =>
        rw [step_idle_nil hr hp hq] at h
        cases h
        exact .idle hr hp hq
      | cons op rest =>
        rw [step_idle_cons hr hp hq] at h
        rcases accept_cases h with ⟨i, buf, hi⟩ | ⟨rfl, hreset⟩
        · exact .presented hr hp hq hi
        · rw [resetEvent_idle (s := { s with program := rest }) hr] at hreset
          cases hreset
          exact .reset hr hp hq

/-! ### The outcome of a command (10_state.md R21) -/

/-- `s` as a machine with the history of `b` has it: the events from the `n`-th on follow the trace of `b`, and what the
last command handed back and what is presented next are those of `b`. -/
def retell (n : Nat) (b s : State) : State :=
  { s with trace := b.trace ++ s.trace.drop n, program := b.program, returned := b.returned }

/-- A completed primitive appends its event to the retold history too. -/
theorem afterPrim_retell {n : Nat} (b : State) {s : State} (hn : n ≤ s.trace.length) (p : Prim) (a : Answer) (e : Env) :
    afterPrim p a e (retell n b s) = retell n b (afterPrim p a e s) := by
  simp [afterPrim, retell, List.drop_append_of_le_length hn]

/-- The delivery of an answer does not see the history. -/
theorem deliver_retell {n : Nat} (b : State) {r : Row} {a : Answer} {s t : State} (h : deliver r a s = .next t) :
    deliver r a (retell n b s) = .next (retell n b t) := by
  cases r with
  | receiveBuffer j =>
    obtain ⟨hj, ht⟩ := require_eq_next.mp h
    cases ht
    exact require_eq_next.mpr ⟨hj, rfl⟩
  | closeResult | closeModify =>
    obtain ⟨v, hv, h⟩ := andThen_eq_next.mp h
    obtain ⟨x, hx, h⟩ := andThen_eq_next.mp h
    cases h
    exact andThen_eq_next.mpr ⟨v, hv, andThen_eq_next.mpr ⟨x, hx, rfl⟩⟩
  | openBus | restartBus | closeBus | send _ | receiveTmp | ack _ | notAck _ =>
    cases h
    rfl

/-- A row does not see the history. -/
theorem doRow_retell {n : Nat} (b : State) {r : Row} {s t : State} (hp : s.pending = none) (hn : n ≤ s.trace.length)
    (h : doRow r s = .next t) : doRow r (retell n b s) = .next (retell n b t) := by
  obtain ⟨p, hrow, hl, hcase⟩ := doRow_cases hp h
  have hrow' : rowPrim (retell n b s) r = .next p := (rowPrim_congr r rfl rfl rfl).trans hrow
  rw [doRow_of_prim (s := retell n b s) hp hrow' hl]
  rcases hcase with ⟨ha, rfl⟩ | ⟨a, e, s3, ha, hd, rfl⟩
  · rw [show (retell n b s).env.answer p = none from ha]
    rfl
  · rw [show (retell n b s).env.answer p = some (a, e) from ha]
    have hd' := deliver_retell (n := n) b hd
    rw [← afterPrim_retell b (by exact hn)] at hd'
    exact andThen_eq_next.mpr ⟨_, hd', rfl⟩

/-- A row keeps `RUN` and takes nothing away from `TRACE`. -/
theorem doRow_run_trace {r : Row} {s t : State} (h : doRow r s = .next t) :
    t.run = s.run ∧ ∃ es, t.trace = s.trace ++ es := by
  obtain ⟨p, ix, ⟨-, rfl⟩ | ⟨a, e, s3, -, hd, rfl⟩⟩ := doRow_outcome h
  · exact ⟨rfl, [], by simp⟩
  · obtain ⟨hrun, -, -, -, -, -, -, htrace, -⟩ := deliver_frame hd
    exact ⟨hrun, _, htrace⟩

/-- A run of rows does not see the history: it gives the retold state, but what a completed command hands back is its
own. -/
theorem runRows_retell {n : Nat} (b : State) (rs : List Row) : ∀ {s t : State}, s.run = true → s.pending = none →
    n ≤ s.trace.length → runRows rs s = .next t →
    runRows rs (retell n b s) = .next { retell n b t with returned := if t.run then b.returned else t.returned } := by
  induction rs with
  | nil =>
    intro s t hrun hp hn h
    cases h
    rfl
  | cons r rs ih =>
    intro s t hrun hp hn h
    obtain ⟨u, hu, hrest⟩ := andThen_eq_next.mp h
    obtain ⟨hurun, es, hutrace⟩ := doRow_run_trace hu
    have hu' := doRow_retell b hp hn hu
    cases hup : u.pending with
    | some q =>
      have hq : u.pending.isSome = true := by simp [hup]
      rw [if_pos hq] at hrest
      cases hrest
      rw [runRows_cons_of_hang hu' hq, if_pos (hurun.trans hrun)]
      rfl
    | none =>
      rw [runRows_cons_of_row hu' hup]
      exact ih (hurun.trans hrun) hup (by rw [hutrace, List.length_append]; omega) (runRows_rest hup hrest)

/-- Settles O38: the second run is the first one retold with the history of its own state. -/
theorem outcomeDependsOnOperandsBufferAndEnv : Obligations.OutcomeDependsOnOperandsBufferAndEnv := by
  intro i s1 s2 t1 hi hb1 hb2 henv hbuf h
  have hready1 : Ready i s1 := ready_of_exec_next hi h
  have hready2 : Ready i s2 := ⟨hb2, hready1.2.1, hbuf ▸ hready1.2.2⟩
  obtain ⟨op, hop, hx1, -⟩ := exec_of_ready i s1 hi hready1
  obtain ⟨op', hop', hx2, -⟩ := exec_of_ready i s2 hi hready2
  obtain rfl : op = op' := Option.some.inj (hop.symm.trans hop')
  obtain ⟨-, howned1, hpending1⟩ := hb1
  obtain ⟨-, howned2, hpending2⟩ := hb2
  have hload : load op (instrLatches i) s2 = retell s1.trace.length s2 (load op (instrLatches i) s1) := by
    simp [load, retell, henv, hbuf, howned1, howned2, hpending1, hpending2]
  rw [hx2, hload]
  exact runRows_retell s2 (planOf i) rfl hpending1 (Nat.le_refl _) (hx1 ▸ h)

/-! ### The invariant -/

theorem Quiet.coherent {s : State} (h : Quiet s) : Coherent s :=
  ⟨fun _ => h, fun hr => absurd hr (by simp [h.1])⟩

theorem Quiet.finish (s : State) : Quiet (finish s) := ⟨rfl, rfl, rfl, rfl, rfl, rfl, rfl⟩

/-- Performing a primitive, or waiting for one, does not touch the sequencer. -/
theorem Quiet.bpAwait {s : State} (h : Quiet s) (p : Prim) : Quiet (bpAwait p s) := by
  cases ha : s.env.answer p with
  | none => rw [Machine.bpAwait, bpComplete_of_hang ha]; exact h
  | some ae => rw [Machine.bpAwait, bpComplete_of_answer ha]; exact h

theorem Quiet.perform {s t : State} {p : Prim} (h : Quiet s) (ht : perform p s = .next t) : Quiet t := by
  obtain ⟨-, -, ⟨-, rfl⟩ | ⟨a, e, -, rfl⟩⟩ := perform_cases ht <;> exact h

/-- From a state that is where its step table says, the rest of the table ends in a state that meets the invariant. -/
theorem RunningAt.runRows_coherent {i : Instr} {k : Nat} {s : State} (hR : RunningAt i k s) (hr : s.run = true) :
    ∃ t, runRows ((planOf i).drop k) s = .next t ∧ Coherent t := by
  obtain ⟨t, ht, hcase⟩ := runRows_spec ((planOf i).length - k) hR (by have := hR.bound; omega)
  refine ⟨t, ht, ?_⟩
  rcases hcase with ⟨-, u, -, rfl, -⟩ | ⟨j, -, -, hRj, -, hran⟩
  · exact (Quiet.finish u).coherent
  · have htr : t.run = true := hran.run.trans hr
    exact ⟨fun hf => absurd htr (by simp [hf]), fun _ => ⟨i, k + j, hRj⟩⟩

/-- A running command that meets the invariant goes on to a state that meets it. -/
theorem Coherent.goOn {s : State} (h : Coherent s) (hr : s.run = true) : ∃ t, goOn s = .next t ∧ Coherent t := by
  obtain ⟨i, k, hR⟩ := h.2 hr
  rw [hR.goOn_eq]
  exact hR.runRows_coherent hr

/-- An instruction presented while the sequencer holds no state ends in a state that meets the invariant. -/
theorem Quiet.exec_coherent {i : Instr} {s t : State} (h : Quiet s) (ht : exec i s = .next t) : Coherent t := by
  rcases exec_cases ht with ⟨op, hrun, hR⟩ | ⟨p, -, hperf⟩
  · obtain ⟨t', ht', hcoh⟩ := hR.runRows_coherent rfl
    cases hrun.symm.trans ht'
    exact hcoh
  · exact (h.perform hperf).coherent

/-- Settles O47, over the cases of a step. -/
theorem everyStepKeepsTheInvariant : Obligations.EveryStepKeepsTheInvariant := by
  intro s t hs h
  cases stepTo_of_step h with
  | running hr hgo =>
    obtain ⟨t', ht', hcoh⟩ := hs.goOn hr
    cases hgo.symm.trans ht'
    exact hcoh
  | waited hr _ => exact ((hs.1 hr).bpAwait _).coherent
  | idle => exact hs
  | @presented _ _ rest buf _ hr _ _ hx =>
    have hquiet : Quiet { s with program := rest, buf := buf } := hs.1 hr
    exact hquiet.exec_coherent hx
  | reset => exact Quiet.coherent ⟨rfl, rfl, rfl, rfl, rfl, rfl, rfl⟩

/-- Settles O48: a pending primitive that never completes is the hang, and otherwise the command goes on. -/
theorem runningCommandIsNeverRefused : Obligations.RunningCommandIsNeverRefused := by
  intro s hs hr
  obtain ⟨t, hgo, -⟩ := hs.goOn hr
  cases hp : s.pending with
  | none => exact .inl ⟨t, (step_running hp hr).trans hgo⟩
  | some p =>
    cases hc : s.env.next.completes with
    | false => exact .inr (step_pending_hang hp hc)
    | true => exact .inl ⟨t, (step_pending_running hp hc hr).trans hgo⟩

/-- Settles O46. -/
theorem resetStateMeetsTheInvariant : Obligations.ResetStateMeetsTheInvariant :=
  ⟨Quiet.coherent ⟨rfl, rfl, rfl, rfl, rfl, rfl, rfl⟩, rfl⟩

/-! ### What every step keeps of `TRACE` and of the bus -/

/-- `TRACE` only grew from `s` to `t`, and a bus in canonical form stayed so. -/
structure Extends (s t : State) : Prop where
  trace : ∃ es, t.trace = s.trace ++ es
  busWf : s.env.bus.wf = true → t.env.bus.wf = true

/-- A change that touches neither `TRACE` nor `ENV`. -/
theorem Extends.of_eq {s t : State} (htrace : t.trace = s.trace) (henv : t.env = s.env) : Extends s t :=
  ⟨⟨[], by simp [htrace]⟩, by simp [henv]⟩

theorem Extends.trans {s t u : State} (h : Extends s t) (h' : Extends t u) : Extends s u := by
  obtain ⟨es, hes⟩ := h.trace
  obtain ⟨es', hes'⟩ := h'.trace
  exact ⟨⟨es ++ es', by rw [hes', hes, List.append_assoc]⟩, fun hb => h'.busWf (h.busWf hb)⟩

/-- A completed primitive appends its event, and the attached slaves keep their registers canonical. -/
theorem Extends.afterPrim {s t : State} {p : Prim} {a : Answer} {e : Env} (ha : s.env.answer p = some (a, e))
    (htrace : t.trace = s.trace ++ [eventOf p a]) (henv : t.env = e) : Extends s t := by
  obtain ⟨-, -, -, hwf⟩ := Env.answer_env ha
  exact ⟨⟨_, htrace⟩, henv ▸ hwf⟩

theorem doRow_extends {r : Row} {s t : State} (h : doRow r s = .next t) : Extends s t := by
  obtain ⟨p, ix, ⟨-, rfl⟩ | ⟨a, e, s3, ha, hd, rfl⟩⟩ := doRow_outcome h
  · exact .of_eq rfl rfl
  · obtain ⟨-, -, -, -, -, -, -, htrace, -, -, henv, -⟩ := deliver_frame hd
    exact .afterPrim ha htrace henv

theorem runRows_extends {rs : List Row} {s t : State} (h : runRows rs s = .next t) : Extends s t :=
  runRows_induction (R := Extends) Extends.trans (fun _ => .of_eq rfl rfl) (fun _ _ _ _ => doRow_extends) h

theorem bpAwait_extends (p : Prim) (s : State) : Extends s (bpAwait p s) := by
  cases ha : s.env.answer p with
  | none => rw [bpAwait, bpComplete_of_hang ha]; exact .of_eq rfl rfl
  | some ae => rw [bpAwait, bpComplete_of_answer ha]; exact .afterPrim ha rfl rfl

theorem exec_extends {i : Instr} {s t : State} (h : exec i s = .next t) : Extends s t := by
  rcases exec_cases h with ⟨op, hrun, -⟩ | ⟨p, -, hperf⟩
  · have hload : Extends s (load op (instrLatches i) s) := .of_eq rfl rfl
    exact hload.trans (runRows_extends hrun)
  · obtain ⟨-, -, ⟨-, rfl⟩ | ⟨a, e, ha, rfl⟩⟩ := perform_cases hperf
    · exact .of_eq rfl rfl
    · exact .afterPrim ha rfl rfl

/-- Every step extends `TRACE` and keeps the bus canonical, but for the reset event, which empties the one and leaves the
other as it is. -/
theorem step_extends {s t : State} (h : step s = .next t) :
    Extends s t ∨ (s.run = false ∧ s.program.head? = some .reset ∧ t.trace = [] ∧ t.env = s.env) := by
  cases stepTo_of_step h with
  | running _ hgo =>
    obtain ⟨rs, hrs⟩ := runRows_of_goOn hgo
    exact .inl (runRows_extends hrs)
  | waited => exact .inl (bpAwait_extends _ s)
  | idle => exact .inl (.of_eq rfl rfl)
  | @presented _ _ rest buf _ _ _ _ hx =>
    have hsame : Extends s { s with program := rest, buf := buf } := .of_eq rfl rfl
    exact .inl (hsame.trans (exec_extends hx))
  | reset hr _ hq => exact .inr ⟨hr, by simp [hq], rfl, rfl⟩

/-- Settles O49. -/
theorem everyStepKeepsSlaveRegistersCanonical : Obligations.EveryStepKeepsSlaveRegistersCanonical := by
  intro s t hs h
  rcases step_extends h with hext | ⟨-, -, -, henv⟩
  · exact hext.busWf hs
  · rw [henv]
    exact hs

/-- Settles O50. -/
theorem everyStepExtendsTheTrace : Obligations.EveryStepExtendsTheTrace := by
  intro s t h
  rcases step_extends h with hext | ⟨hr, hq, htrace, -⟩
  · exact .inl hext.trace
  · exact .inr ⟨hr, hq, htrace⟩

/-! ### The buffer (10_state.md R27) -/

/-- The number of buffer elements an instruction receives into: `LEN` of ReadBytes. -/
def receivedLength : Instr → Nat
  | .readBytes _ _ len => len.toNat
  | _ => 0

theorem receivedLength_eq_zero {i : Instr} (h : ∀ dev reg len, i ≠ .readBytes dev reg len) : receivedLength i = 0 := by
  cases i with
  | readBytes dev reg len => exact absurd rfl (h dev reg len)
  | _ => rfl

/-- The buffer kept its length and every element from `n` on. -/
def BufferKept (n : Nat) (s t : State) : Prop := t.buf.length = s.buf.length ∧ t.buf.drop n = s.buf.drop n

theorem BufferKept.trans {n : Nat} {s t u : State} (h : BufferKept n s t) (h' : BufferKept n t u) : BufferKept n s u :=
  ⟨h'.1.trans h.1, h'.2.trans h.2⟩

theorem BufferKept.of_eq {n : Nat} {s t : State} (h : t.buf = s.buf) : BufferKept n s t := by simp [BufferKept, h]

/-- A row keeps the buffer from `n` on if every element it receives into is below `n`. -/
theorem doRow_bufferKept {n : Nat} {r : Row} {s t : State} (hr : ∀ j, r = .receiveBuffer j → j < n)
    (h : doRow r s = .next t) : BufferKept n s t := by
  obtain ⟨p, ix, ⟨-, rfl⟩ | ⟨a, e, s3, -, hd, rfl⟩⟩ := doRow_outcome h
  · exact .of_eq rfl
  · obtain ⟨-, -, -, -, -, -, -, -, -, -, -, hother, hset⟩ := deliver_frame hd
    by_cases hj : ∃ j, r = .receiveBuffer j
    · obtain ⟨j, rfl⟩ := hj
      have hbuf : s3.buf = s.buf.set j a.byte := hset j rfl
      exact ⟨by simp [hbuf], by simp [hbuf, List.drop_set_of_lt (hr j rfl)]⟩
    · exact .of_eq (hother fun j hj' => hj ⟨j, hj'⟩)

/-- An instruction keeps the buffer's length and every element it does not receive into. -/
theorem exec_bufferKept {i : Instr} {s t : State} (h : exec i s = .next t) : BufferKept (receivedLength i) s t := by
  rcases exec_cases h with ⟨op, hrun, -⟩ | ⟨p, -, hperf⟩
  · have hload : BufferKept (receivedLength i) s (load op (instrLatches i) s) := .of_eq rfl
    refine hload.trans (runRows_induction (R := BufferKept (receivedLength i)) BufferKept.trans (fun _ => .of_eq rfl)
      (fun r hr s t => doRow_bufferKept ?_) hrun)
    rintro j rfl
    obtain ⟨dev, reg, len, rfl, hj⟩ := planOf_receiveBuffer i j hr
    exact hj
  · obtain ⟨-, -, ⟨-, rfl⟩ | ⟨a, e, -, rfl⟩⟩ := perform_cases hperf <;> exact .of_eq rfl

/-- Settles O58: what is kept is the whole buffer where nothing is received into it. -/
theorem onlyReadBytesWritesTheBuffer : Obligations.OnlyReadBytesWritesTheBuffer := by
  intro i s t h
  obtain ⟨hlen, hdrop⟩ := exec_bufferKept h
  refine ⟨hlen, fun hi => ?_, ?_⟩
  · simpa [receivedLength_eq_zero hi] using hdrop
  · rintro dev reg len rfl
    exact hdrop

/-! ### Primitives, the step table and `SEQ` -/

/-- Only open-bus and close-bus move `OWNED` (40_bus_primitives.md R110 to R116). -/
theorem ownedAfter_of_ne {p : Prim} (hopen : p ≠ .openBus) (hclose : p ≠ .closeBus) (owned : Bool) :
    ownedAfter owned p = owned := by
  cases p with
  | openBus => exact absurd rfl hopen
  | closeBus => exact absurd rfl hclose
  | _ => rfl

/-- Settles O19: a performed primitive hangs or completes, and each is an update of a few fields. -/
theorem primitiveFrame : Obligations.PrimitiveFrame := by
  intro i p s t hi h
  rw [exec_of_prim hi] at h
  obtain ⟨-, -, ⟨-, rfl⟩ | ⟨a, e, -, rfl⟩⟩ := perform_cases h
  · exact ⟨rfl, rfl, rfl, rfl, rfl, rfl, rfl, rfl, rfl, fun _ _ => rfl, fun _ => rfl⟩
  · exact ⟨rfl, rfl, rfl, rfl, rfl, rfl, rfl, rfl, rfl, fun ho hc => ownedAfter_of_ne ho hc s.owned,
      (nomatch ·)⟩

/-- The step table of a command has `NPRIM` rows. -/
theorem plan_length (op : Opcode) (len : Nat) : (plan op len).length = nprim op len := by
  cases op with
  | readBytes => simp [plan, nprim, readPhaseRows, openRows, readLoopRows_length]
  | writeBytes => simp [plan, nprim, openRows, writeLoopRows_length]
  | _ => rfl

/-- The longest step table is that of a ReadBytes of 255 bytes. -/
theorem nprimOf_le (i : Instr) : nprimOf i ≤ 516 := by
  cases i with
  | readBytes dev reg len => simp only [nprimOf, Instr.opcode?, nprim, burstLength]; have := len.isLt; omega
  | writeBytes dev reg len => simp only [nprimOf, Instr.opcode?, nprim, burstLength]; have := len.isLt; omega
  | _ => simp [nprimOf, Instr.opcode?, nprim]

/-- Settles O35. -/
theorem nprimCountsTheStepTable : Obligations.NprimCountsTheStepTable :=
  ⟨plan_length, nprimOf_le, rfl⟩

/-- Settles O36, by the two outcomes of a row. -/
theorem sequencerAdvancesByOne : Obligations.SequencerAdvancesByOne := by
  intro r s t k hp hseq h
  have hidx : ∀ i, r = .receiveBuffer i ∨ r = .send (.buffer i) → (rowIndex r).or s.idx = some i := by
    rintro i (rfl | rfl) <;> rfl
  obtain ⟨p, -, -, ⟨-, rfl⟩ | ⟨a, e, s3, -, hd, rfl⟩⟩ := doRow_cases hp h
  · exact ⟨(nomatch ·), fun _ => ⟨hseq, rfl, rfl⟩, rfl, rfl, rfl, hidx⟩
  · obtain ⟨hrun, hop, hlatches, hseq3, hidx3, -, hpend, htrace, -⟩ := deliver_frame hd
    refine ⟨fun _ => ⟨?_, ?_⟩, fun hsome => ?_, hrun, hop, hlatches, fun i hi => hidx3.trans (hidx i hi)⟩
    · simp [hseq3, afterPrim, hseq]
    · simp [htrace, afterPrim]
    · simp [hpend, afterPrim] at hsome

/-! ### Steps of an idle machine, reset and pending primitives -/

/-- Settles O7. -/
theorem stepRunsThePresentedInstruction : Obligations.StepRunsThePresentedInstruction := by
  intro s rest i hr hp
  refine ⟨fun d b hq hd => ?_, fun d hq hd => ?_, fun r hq hd => ?_⟩ <;>
  · rw [step_idle_cons hr hp hq]
    exact runWord_of_decode hd _

/-- Settles O9. -/
theorem resetEventRestoresResetValues : Obligations.ResetEventRestoresResetValues := by
  intro s rest
  refine ⟨fun hr hp hq => ⟨afterReset { s with program := rest }, ?_, ?_⟩, resetEvent_running⟩
  · rw [step_idle_cons hr hp hq]
    exact resetEvent_idle hr
  · exact ⟨rfl, rfl, rfl, rfl, rfl, rfl, rfl, rfl, rfl, rfl, rfl, rfl, rfl, rfl⟩

/-- Settles O10. -/
theorem resetStateHasResetValues : Obligations.ResetStateHasResetValues :=
  ⟨rfl, rfl, rfl, rfl, rfl, rfl, rfl, rfl, rfl, rfl, rfl, rfl, rfl, rfl, rfl⟩

/-- Settles O11. -/
theorem idleMachineStaysIdle : Obligations.IdleMachineStaysIdle := fun _ hr hp hq => step_idle_nil hr hp hq

/-- Settles O34. -/
theorem pendingPrimitiveIsPolled : Obligations.PendingPrimitiveIsPolled := by
  intro s p hp
  refine ⟨step_pending_hang hp, fun hc hr => ?_, fun hc hr => step_pending_running hp hc hr⟩
  obtain ⟨a, e, ha⟩ := Env.answer_of_completes hc p
  refine ⟨a, e, ha, ?_⟩
  rw [step_pending_idle hp hc hr, bpAwait, bpComplete_of_answer ha]
  rfl

/-! ### The checks at issue (30_encoding.md R88) -/

/-- `chk_idle` comes first. -/
theorem issueChecks_running {s : State} (hr : s.run = true) (dev : Byte) (go : Result State) :
    issueChecks dev s go = .refused .issueWhileRunning := by
  simp [issueChecks, hr]

/-- `chk_dev` comes second. -/
theorem issueChecks_dev {s : State} {dev : Byte} (hr : s.run = false) (hd : dev.getLsbD 0 = true) (go : Result State) :
    issueChecks dev s go = .refused .devBit0Set := by
  have hc : devOk dev = false := by rw [devOk, hd]; rfl
  simp [issueChecks, hr, hc]

/-- The command's own check comes last. -/
theorem issueChecks_own {s : State} {dev : Byte} (hr : s.run = false) (hd : dev.getLsbD 0 = false) {check : Bool}
    (hc : check = false) (reason : Refusal) (go : Result State) :
    issueChecks dev s (require check reason go) = .refused reason := by
  have hdev : devOk dev = true := by rw [devOk, hd]; rfl
  rw [issueChecks_pass hr hdev, hc, require_false]

theorem bufferOk_eq_false {len : Byte} {s : State} (h : s.buf.length < len.toNat) : bufferOk len s = false := by
  simpa [bufferOk] using h

theorem bitposOk_eq_false {bitpos : Byte} (h : 7 < bitpos.toNat) : bitposOk bitpos = false := by
  simpa [bitposOk] using h

theorem fieldOk_eq_false {bitstart flen : Byte} (h : 7 < bitstart.toNat ∨ flen.toNat = 0 ∨ 8 < flen.toNat ∨
    bitstart.toNat + 1 < flen.toNat) : fieldOk bitstart flen = false := by
  simp only [fieldOk, Bool.and_eq_false_iff, decide_eq_false_iff_not]
  omega

/-- Settles O31: each check in turn, for the commands it applies to. -/
theorem issueChecksRefuseInOrder : Obligations.IssueChecksRefuseInOrder := by
  intro dev reg a b c s
  refine ⟨fun hr i hi => ?_, fun hr hd => ?_, fun hr hd => ⟨fun hbuf => ?_, fun hpos => ?_, fun hfield => ?_⟩⟩
  · cases i with
    | readBytes | writeBytes | readByte | writeByte | readBit | readBits | writeBit | writeBits =>
      exact issueChecks_running hr _ _
    | openBus | restartBus | closeBus | sendByte | receiveByte | ack | notAck => cases hi
  · simp only [List.forall_mem_cons]
    exact ⟨issueChecks_dev hr hd _, issueChecks_dev hr hd _, issueChecks_dev hr hd _, issueChecks_dev hr hd _,
      issueChecks_dev hr hd _, issueChecks_dev hr hd _, issueChecks_dev hr hd _, issueChecks_dev hr hd _, by simp⟩
  · have hc := bufferOk_eq_false hbuf
    simp only [List.forall_mem_cons]
    exact ⟨issueChecks_own hr hd hc _ _, issueChecks_own hr hd hc _ _, by simp⟩
  · have hc := bitposOk_eq_false hpos
    simp only [List.forall_mem_cons]
    exact ⟨issueChecks_own hr hd hc _ _, issueChecks_own hr hd hc _ _, by simp⟩
  · have hc := fieldOk_eq_false hfield
    simp only [List.forall_mem_cons]
    exact ⟨issueChecks_own hr hd hc _ _, issueChecks_own hr hd hc _ _, by simp⟩

end Sys2Proof.Machine

namespace Sys2Proof.Machine

/-! ### Requests and what they find on the bus (20_memory.md R59, R63) -/

/-- A request while a primitive is pending is refused. -/
theorem perform_pending {s : State} (hp : s.pending.isSome = true) (p : Prim) :
    perform p s = .refused .primitivePending := by
  obtain ⟨q, hq⟩ := Option.isSome_iff_exists.mp hp
  simp [perform, bpRequest, hq]

/-- Settles O20. -/
theorem requestWhilePendingIsRefused : Obligations.RequestWhilePendingIsRefused := by
  intro i s hi hp
  obtain ⟨p, hprim⟩ := Option.isSome_iff_exists.mp hi
  rw [exec_of_prim hprim]
  exact perform_pending hp p

/-- A primitive that is legal while the bus is owned leaves it as it found it, or as the attached slaves' observation
leaves it: it is no open-bus, so nobody changed a register before it. -/
theorem Env.answer_bus_of_owned {e e' : Env} {p : Prim} {a : Answer} (hl : legalWhen true p = true)
    (h : e.answer p = some (a, e')) : e'.bus = e.bus ∨ e'.bus = (e.bus.observe p).1 := by
  have hne : p ≠ .openBus := by
    rintro rfl
    cases hl
  rw [Env.answer_bus h, Env.busAt_of_ne_openBus hne]
  split
  · exact .inr rfl
  · exact .inl rfl

/-- Settles O59: a primitive that hangs leaves `ENV` alone, and one that completes was legal while the bus was owned. -/
theorem nothingInterleavesWithinATransaction : Obligations.NothingInterleavesWithinATransaction := by
  intro s t howned
  refine ⟨fun i p hi h => ?_, fun r hp h => ?_⟩
  · rw [exec_of_prim hi] at h
    obtain ⟨-, hl, ⟨-, rfl⟩ | ⟨a, e, ha, rfl⟩⟩ := perform_cases h
    · exact .inl rfl
    · exact Env.answer_bus_of_owned (howned ▸ hl) ha
  · obtain ⟨p, hrow, hl, ⟨-, rfl⟩ | ⟨a, e, s3, ha, hd, rfl⟩⟩ := doRow_cases hp h
    · exact .inl rfl
    · obtain ⟨-, -, -, -, -, -, -, -, -, -, henv, -⟩ := deliver_frame hd
      simp only [henv]
      exact (Env.answer_bus_of_owned (howned ▸ hl) ha).imp_right fun hbus => ⟨p, hrow, hbus⟩

/-! ### The one-byte frames of a command (30_encoding.md R80, R81, R95) -/

/-- The state a command leaves that appended the events `es`, handed back `resp` and left `ENV` at `e`. -/
def afterCommand (s : State) (es : List Event) (resp : Response) (e : Env) : State :=
  { s with
    run := false, op := none, latches := Latches.empty, tmp := none, res := none, seq := none, idx := none
    owned := false, pending := none, trace := s.trace ++ es, returned := resp, env := e }

theorem afterCommand_completed (s : State) (es : List Event) (resp : Response) (e : Env) :
    Completed (afterCommand s es resp e) := ⟨⟨rfl, rfl, rfl, rfl, rfl, rfl, rfl⟩, rfl, rfl⟩

theorem afterCommand_bootOk (s : State) (es : List Event) (resp : Response) (e : Env) :
    BootOk (afterCommand s es resp e) := ⟨rfl, rfl, rfl⟩

/-- A second command after a first one appends its own events, and only its result is left. -/
theorem afterCommand_afterCommand (s : State) (es es' : List Event) (resp resp' : Response) (e e' : Env) :
    afterCommand (afterCommand s es resp e) es' resp' e' = afterCommand s (es ++ es') resp' e' := by
  simp [afterCommand]

/-- The premise on `ENV` passes from before a list of primitives to after it. -/
theorem Env.Answers.completesFor {e e' : Env} {ps : List Prim} {as : List Answer} {n : Nat} (h : e.Answers ps as e')
    (hc : e.CompletesFor (ps.length + n)) : e'.CompletesFor n := by
  induction h with
  | nil => simpa using hc
  | @cons _ _ _ _ _ ps _ h1 _ ih =>
    rw [List.length_cons, Nat.add_right_comm] at hc
    exact ih (Env.completesFor_after h1 hc)

/-- The primitives of a whole one-byte read frame. -/
def readCommandPrims (d g : Byte) : List Prim := readFramePrims d g ++ [.closeBus]

/-- `ENV` answers a whole one-byte read frame with the statuses `sa`, `sr`, `sd` and the byte `b`. -/
def Env.ReadsByte (e : Env) (d g : Byte) (sa sr sd : Status) (b : Byte) (e' : Env) : Prop :=
  ∃ (a0 a1 a2 a3 a4 a5 a6 a7 : Answer) (em : Env), e.Answers (readFramePrims d g) [a0, a1, a2, a3, a4, a5, a6] em ∧
    em.answer .closeBus = some (a7, e') ∧ a1.status = sa ∧ a2.status = sr ∧ a4.status = sd ∧ a5.byte = b

/-- `ENV` answers a whole one-byte write frame with the statuses `sa`, `sr`, `sv`. -/
def Env.WritesByte (e : Env) (d g v : Byte) (sa sr sv : Status) (e' : Env) : Prop :=
  ∃ a0 a1 a2 a3 a4 : Answer, e.Answers (writeFramePrims d g v) [a0, a1, a2, a3, a4] e' ∧
    a1.status = sa ∧ a2.status = sr ∧ a3.status = sv

/-- Answers to the primitives of a one-byte read frame are a reading of one byte, the one of the sixth answer. -/
theorem Env.Answers.readsByte {e e' : Env} {d g : Byte} {as : List Answer}
    (h : e.Answers (readCommandPrims d g) as e') :
    ∃ sa sr sd b, e.ReadsByte d g sa sr sd b e' ∧ as[5]?.map Answer.byte = some b := by
  obtain ⟨as1, as2, em, rfl, hread, hclose⟩ := Env.Answers.append_inv h
  match as1, hread.moves.2.2 with
  | [a0, a1, a2, a3, a4, a5, a6], _ =>
    cases hclose with | cons hclose hnil =>
    cases hnil
    exact ⟨_, _, _, _, ⟨a0, a1, a2, a3, a4, a5, a6, _, em, hread, hclose, rfl, rfl, rfl, rfl⟩, rfl⟩

/-- Answers to the primitives of a one-byte write frame are a writing of one byte. -/
theorem Env.Answers.writesByte {e e' : Env} {d g v : Byte} {as : List Answer}
    (h : e.Answers (writeFramePrims d g v) as e') : ∃ sa sr sv, e.WritesByte d g v sa sr sv e' := by
  match as, h.moves.2.2 with
  | [a0, a1, a2, a3, a4], _ => exact ⟨_, _, _, a0, a1, a2, a3, a4, h, rfl, rfl, rfl⟩

/-- The state at the end of the read frame of a command, with what its close left in `TMP` and `RES`. -/
def afterReadFrame (op : Opcode) (l : Latches) (s : State) (es : List Event) (tmp res : Option Byte) (e : Env) :
    State :=
  { load op l s with owned := false, trace := s.trace ++ es, seq := some 8, tmp := tmp, res := res, env := e }

/-- The whole read frame of a command, whichever of the two closes ends it. -/
theorem runRows_readFrame {op : Opcode} {l : Latches} {d g b : Byte} {sa sr sd : Status} {s : State} {e : Env} {c : Row}
    {tmp res : Option Byte} (rs : List Row) (hs : BootOk s) (hd : l.dev = some d) (hg : l.reg = some g)
    (hr : s.env.ReadsByte d g sa sr sd b e) (hc : c = .closeResult ∨ c = .closeModify)
    (hdel : ∀ a t, t.op = some op → t.latches = l → t.tmp = some b → t.res = none →
      deliver c a t = .next { t with tmp := tmp, res := res }) :
    runRows (readByteRows c ++ rs) (load op l s) =
      runRows rs (afterReadFrame op l s (readFrame d g sa sr sd [b]) tmp res e) := by
  obtain ⟨a0, a1, a2, a3, a4, a5, a6, a7, em, hread, hclose, rfl, rfl, rfl, rfl⟩ := hr
  obtain ⟨-, ho, hp⟩ := hs
  have hrow : ∀ t, rowPrim t c = .next .closeBus ∧ rowIndex c = none := by
    rcases hc with rfl | rfl <;> exact fun _ => ⟨rfl, rfl⟩
  rw [runRows_readByteRows (s := load op l s) hp ho hd hg rfl hread]
  refine (runRows_of_answer (p := .closeBus) (by exact hp) (hrow _).1 rfl hclose (hdel _ _ ?_ ?_ ?_ ?_) ?_).trans ?_
  rotate_right
  · simp [afterReadFrame, afterPrim, ownedAfter, eventOf, readFrame, readData, (hrow s).2, load, hp]
  all_goals rfl

/-- A command that is a read frame hands back what it computes from the byte read (41_byte_transfers.md R133). -/
theorem runRows_readCommand {op : Opcode} {l : Latches} {d g b x : Byte} {sa sr sd : Status} {s : State} {e : Env}
    (hs : BootOk s) (hd : l.dev = some d) (hg : l.reg = some g) (hr : s.env.ReadsByte d g sa sr sd b e)
    (hres : ∀ t, t.op = some op → t.latches = l → resultByte t b = .next x) :
    runRows (readByteRows .closeResult) (load op l s) =
      .next (afterCommand s (readFrame d g sa sr sd [b]) (.byte x) e) := by
  have hframe := runRows_readFrame (op := op) (c := .closeResult) (tmp := some b) (res := some x) [] hs hd hg hr
    (.inl rfl) (fun a t hop hl ht _ => by simp [deliver, ht, hres t hop hl])
  rw [List.append_nil] at hframe
  rw [hframe]
  simp [afterReadFrame, afterCommand, finish, load, hs.2.2]

/-- A write frame of one byte, from a state where a command has the bus free (41_byte_transfers.md R134). -/
theorem runRows_writeFrame {d g v : Byte} {sa sr sv : Status} {s : State} {e : Env} {src : Source}
    (hp : s.pending = none) (ho : s.owned = false) (hd : s.latches.dev = some d) (hg : s.latches.reg = some g)
    (hw : s.env.WritesByte d g v sa sr sv e) (hres : s.res = none)
    (hsrc : (src = .value ∧ s.latches.value = some v) ∨ (src = .tmp ∧ s.tmp = some v)) :
    runRows (writeByteRows src) s = .next (afterCommand s (writeFrame d g sa sr [v] [sv]) .nothing e) := by
  obtain ⟨a0, a1, a2, a3, a4, h, rfl, rfl, rfl⟩ := hw
  have hbyte : ∀ t : State, t.latches = s.latches → t.tmp = s.tmp → t.buf = s.buf → sourceByte t src = .next v := by
    rcases hsrc with ⟨rfl, hv⟩ | ⟨rfl, hv⟩ <;> intro t hl ht _ <;> simp [sourceByte, hl, ht, hv]
  have hx : rowIndex (.send src) = none := by rcases hsrc with ⟨rfl, -⟩ | ⟨rfl, -⟩ <;> rfl
  rw [runRows_writeByteRows hp ho hd hg hbyte hx h]
  simp [afterCommand, finish, writeFrame, writeData, hp, hres]

/-- A read-modify-write is a read frame and then the write frame of the byte it computes from the byte read
(42_bit_access.md R152, R153). -/
theorem runRows_readModifyWrite {op : Opcode} {l : Latches} {d g b v : Byte} {sa sr sd sa' sr' sv : Status} {s : State}
    {e e' : Env} (hs : BootOk s) (hd : l.dev = some d) (hg : l.reg = some g) (hr : s.env.ReadsByte d g sa sr sd b e)
    (hmod : ∀ t, t.op = some op → t.latches = l → modifiedByte t b = .next v) (hw : e.WritesByte d g v sa' sr' sv e') :
    runRows (readByteRows .closeModify ++ writeByteRows .tmp) (load op l s) =
      .next (afterCommand s (readFrame d g sa sr sd [b] ++ writeFrame d g sa' sr' [v] [sv]) .nothing e') := by
  rw [runRows_readFrame (c := .closeModify) (tmp := some v) (res := none) _ hs hd hg hr (.inr rfl)
    (fun a t hop hl ht hres => by simp [deliver, ht, hmod t hop hl, ← hres])]
  rw [runRows_writeFrame (s := afterReadFrame op l s _ _ _ e) hs.2.2 rfl hd hg hw rfl (.inr ⟨rfl, rfl⟩)]
  simp [afterReadFrame, afterCommand, load]

/-- ReadByte appends the read frame and hands back the byte received (41_byte_transfers.md R133). -/
theorem exec_readByte {d g b : Byte} {sa sr sd : Status} {s : State} {e : Env} (hs : BootOk s) (hdev : devOk d = true)
    (hr : s.env.ReadsByte d g sa sr sd b e) :
    exec (.readByte d g) s = .next (afterCommand s (readFrame d g sa sr sd [b]) (.byte b) e) := by
  obtain ⟨op, hop, hx, -⟩ := exec_of_ready (.readByte d g) s rfl ⟨hs, hdev, Nat.zero_le _⟩
  cases hop
  exact hx.trans (runRows_readCommand hs rfl rfl hr fun t hop _ => by simp [resultByte, hop])

/-- WriteByte appends the write frame of its one byte and hands back nothing (41_byte_transfers.md R134). -/
theorem exec_writeByte {d g v : Byte} {sa sr sv : Status} {s : State} {e : Env} (hs : BootOk s) (hdev : devOk d = true)
    (hw : s.env.WritesByte d g v sa sr sv e) :
    exec (.writeByte d g v) s = .next (afterCommand s (writeFrame d g sa sr [v] [sv]) .nothing e) := by
  obtain ⟨op, hop, hx, -⟩ := exec_of_ready (.writeByte d g v) s rfl ⟨hs, hdev, Nat.zero_le _⟩
  cases hop
  rw [hx]
  exact (runRows_writeFrame (s := load .writeByte _ s) hs.2.2 hs.2.1 rfl rfl hw rfl (.inl ⟨rfl, rfl⟩)).trans rfl

/-- WriteBit is the read frame, and WriteByte of the changed byte from where ReadByte ends (42_bit_access.md R152). -/
theorem exec_writeBit {d g p v b : Byte} {sa sr sd sa' sr' sv : Status} {s : State} {e e' : Env} (hs : BootOk s)
    (hdev : devOk d = true) (hpos : bitposOk p = true) (hr : s.env.ReadsByte d g sa sr sd b e)
    (hw : e.WritesByte d g (writeBitValue b p v) sa' sr' sv e') :
    exec (.writeBit d g p v) s = .next (afterCommand s (readFrame d g sa sr sd [b] ++
      writeFrame d g sa' sr' [writeBitValue b p v] [sv]) .nothing e') := by
  have hwf : WellFormed (.writeBit d g p v) := by simp [WellFormed, Instr.wellFormed, hdev, hpos]
  obtain ⟨op, hop, hx, -⟩ := exec_of_ready (.writeBit d g p v) s rfl ⟨hs, hwf, Nat.zero_le _⟩
  cases hop
  exact hx.trans (runRows_readModifyWrite hs rfl rfl hr
    (fun t hop hl => by simp [modifiedByte, hop, hl, instrLatches]) hw)

/-- WriteBits is the read frame, and WriteByte of the changed byte from where ReadByte ends (42_bit_access.md R153). -/
theorem exec_writeBits {d g p n v b : Byte} {sa sr sd sa' sr' sv : Status} {s : State} {e e' : Env} (hs : BootOk s)
    (hdev : devOk d = true) (hfield : fieldOk p n = true) (hr : s.env.ReadsByte d g sa sr sd b e)
    (hw : e.WritesByte d g (writeBitsValue b p n v) sa' sr' sv e') :
    exec (.writeBits d g p n v) s = .next (afterCommand s (readFrame d g sa sr sd [b] ++
      writeFrame d g sa' sr' [writeBitsValue b p n v] [sv]) .nothing e') := by
  have hwf : WellFormed (.writeBits d g p n v) := by simp [WellFormed, Instr.wellFormed, hdev, hfield]
  obtain ⟨op, hop, hx, -⟩ := exec_of_ready (.writeBits d g p n v) s rfl ⟨hs, hwf, Nat.zero_le _⟩
  cases hop
  exact hx.trans (runRows_readModifyWrite hs rfl rfl hr
    (fun t hop hl => by simp [modifiedByte, hop, hl, instrLatches]) hw)

/-- `writeBitValue` tests `VALUE` for zero (10_state.md R29). -/
theorem writeBitValue_eq_ite (b p v : Byte) : writeBitValue b p v =
    if v ≠ 0 then b ||| shl8 1 p.toNat else b &&& ~~~ (shl8 1 p.toNat) := by
  simp only [writeBitValue, isNonzero, bitMask, bne_iff_ne]

/-- Settles O41: the read frame is ReadByte's, and from where ReadByte ends `ENV` answers the write frame of the
read-modify-write as it answers WriteByte's. -/
theorem readModifyWriteIsReadByteThenWriteByte : Obligations.ReadModifyWriteIsReadByteThenWriteByte := by
  intro d g p q n v s hs hdev hc
  obtain ⟨as, e, h⟩ := Env.Answers.exist (readCommandPrims d g) (e := s.env) fun m hm =>
    hc m (List.take_subset_take_left _ (show 8 ≤ 13 by decide) hm)
  obtain ⟨sa, sr, sd, b, hr, -⟩ := h.readsByte
  refine ⟨_, b, exec_readByte hs hdev hr, rfl, rfl, fun hpos => ?_, fun hfield => ?_⟩
  · rw [← writeBitValue_eq_ite]
    obtain ⟨as', e', h'⟩ := Env.Answers.exist (writeFramePrims d g (writeBitValue b p v)) (h.completesFor hc)
    obtain ⟨sa', sr', sv, hw⟩ := h'.writesByte
    rw [exec_writeBit hs hdev hpos hr hw, exec_writeByte (afterCommand_bootOk _ _ _ _) hdev hw,
      afterCommand_afterCommand]
  · change _ = exec (.writeByte d g (writeBitsValue b q n v)) _
    obtain ⟨as', e', h'⟩ := Env.Answers.exist (writeFramePrims d g (writeBitsValue b q n v)) (h.completesFor hc)
    obtain ⟨sa', sr', sv, hw⟩ := h'.writesByte
    rw [exec_writeBits hs hdev hfield hr hw, exec_writeByte (afterCommand_bootOk _ _ _ _) hdev hw,
      afterCommand_afterCommand]

/-! ### One fixture slave (95_test_vectors.md section 1) -/

/-- A slave after it observed a list of primitives. -/
def Slave.observeAll (sl : Slave) (ps : List Prim) : Slave := ps.foldl (fun sl p => (sl.observe p).1) sl

/-- What a slave replies to a list of primitives. -/
def Slave.replies (sl : Slave) : List Prim → List Reply
  | [] => []
  | p :: ps => (sl.observe p).2 :: Slave.replies (sl.observe p).1 ps

@[simp] theorem Slave.observeAll_nil (sl : Slave) : sl.observeAll [] = sl := rfl

@[simp] theorem Slave.observeAll_cons (sl : Slave) (p : Prim) (ps : List Prim) :
    sl.observeAll (p :: ps) = (sl.observe p).1.observeAll ps := rfl

theorem Slave.observeAll_append (sl : Slave) (ps qs : List Prim) :
    sl.observeAll (ps ++ qs) = (sl.observeAll ps).observeAll qs := List.foldl_append

@[simp] theorem Slave.replies_nil (sl : Slave) : sl.replies [] = [] := rfl

@[simp] theorem Slave.replies_cons (sl : Slave) (p : Prim) (ps : List Prim) :
    sl.replies (p :: ps) = (sl.observe p).2 :: (sl.observe p).1.replies ps := rfl

@[simp] theorem Slave.observeAll_addr (sl : Slave) (ps : List Prim) : (sl.observeAll ps).addr = sl.addr := by
  induction ps generalizing sl with
  | nil => rfl
  | cons p ps ih => simp [ih]

/-- `ENV`'s answer is the slave's reply: its acknowledge is the status, and the byte it drives, if any, is the byte. -/
def Reply.Gives (rep : Reply) (a : Answer) : Prop :=
  a.status = (if rep.acked then .ok else .noAck) ∧ ∀ b, rep.data = some b → a.byte = b

/-- A move that leaves the answer to the one attached slave is answered by it. -/
theorem Env.answer_of_free {e : Env} {sl : Slave} (hn : e.next = Move.free) (hb : e.bus = .fixture [sl]) (p : Prim) :
    ∃ a e', e.answer p = some (a, e') ∧ e'.bus = .fixture [(sl.observe p).1] ∧ (sl.observe p).2.Gives a := by
  have hbus := Env.busAt_of_no_pokes (e := e) (by rw [hn]; rfl) p
  refine ⟨_, _, by unfold Env.answer; rw [hn, hbus]; rfl, ?_, ?_, fun b hdata => ?_⟩
  · simp [Move.free, hb, Bus.observe]
  · simp [Move.free, hb, Bus.observe]
  · simp [Move.free, hb, Bus.observe, hdata]

/-- `ENV` leaves the next answers to the attached slaves. -/
def Env.FreeFor (e : Env) (n : Nat) : Prop := ∀ m ∈ e.moves.take n, m = Move.free

theorem Env.freeFor_succ {e : Env} {n : Nat} :
    e.FreeFor (n + 1) ↔ e.next = Move.free ∧ ∀ m ∈ e.moves.tail.take n, m = Move.free := by
  unfold Env.FreeFor Env.next
  cases h : e.moves <;> simp

theorem Env.IsFixture.freeFor {e : Env} {sl : Slave} (h : e.IsFixture sl) (n : Nat) : e.FreeFor n :=
  fun m hm => h.1 m (List.mem_of_mem_take hm)

/-- `ENV` that leaves the next answers to the one attached slave answers a list of primitives with its replies. -/
theorem Env.Answers.of_free (ps : List Prim) : ∀ {e : Env} {sl : Slave}, e.FreeFor ps.length → e.bus = .fixture [sl] →
    ∃ as e', e.Answers ps as e' ∧ e'.bus = .fixture [sl.observeAll ps] ∧
      List.Forall₂ Reply.Gives (sl.replies ps) as := by
  induction ps with
  | nil => exact fun {e} _ _ hb => ⟨[], e, .nil e, hb, .nil⟩
  | cons p ps ih =>
    intro e sl hf hb
    obtain ⟨hn, htail⟩ := Env.freeFor_succ.mp hf
    obtain ⟨a, e1, ha, hb1, hgive⟩ := Env.answer_of_free hn hb p
    have hf1 : e1.FreeFor ps.length := by
      rw [Env.FreeFor, (Env.answer_env ha).2.1]
      exact htail
    obtain ⟨as, e', h, hb', hgives⟩ := ih hf1 hb1
    exact ⟨a :: as, e', .cons ha h, hb', .cons hgive hgives⟩

@[simp] theorem Bus.register_fixture_one (sl : Slave) (r : Byte) :
    (Bus.fixture [sl]).register sl.addr r = some (sl.reg r) := by
  simp [Bus.register]

/-- The register of the one attached slave, after it observed some primitives. -/
theorem Bus.register_observeAll (sl : Slave) (ps : List Prim) (r : Byte) :
    (Bus.fixture [sl.observeAll ps]).register sl.addr r = some ((sl.observeAll ps).reg r) := by
  rw [← Slave.observeAll_addr sl ps, Bus.register_fixture_one]

/-! ### The slave within a frame -/

/-- The primitives every frame begins with. -/
def openPrims (d g : Byte) : List Prim := [.openBus, .writeByte d, .writeByte g]

/-- The primitives of the address phase of a read frame. -/
def readPhasePrims (d g : Byte) : List Prim := openPrims d g ++ [.restartBus, .writeByte (d ||| 0x01)]

/-- The address byte of a write frame selects the slave for writing. -/
theorem Slave.observe_devWrite {sl : Slave} {d : Byte} (he : sl.expectAddr = true) (hd : devOk d = true)
    (ha : sl.addr = d.extractLsb' 1 7) : (sl.observe (.writeByte d)).1 =
      { sl with expectAddr := false, sel := .write, first := true } := by
  have hbit : d.getLsbD 0 = false := by simpa [devOk] using hd
  simp only [Slave.observe, he, if_true, Slave.onAddress, ← ha, hbit, Bool.false_eq_true, if_false]

/-- The read form of the address byte has the same address and bit 0 set (30_encoding.md R84). -/
theorem readForm_bits (d : Byte) :
    (d ||| 0x01).extractLsb' 1 7 = d.extractLsb' 1 7 ∧ (d ||| 0x01).getLsbD 0 = true := by
  constructor
  · ext j hj
    simp
  · simp

/-- The address byte of a read frame selects the slave for reading. -/
theorem Slave.observe_devRead {sl : Slave} {d : Byte} (he : sl.expectAddr = true) (ha : sl.addr = d.extractLsb' 1 7) :
    (sl.observe (.writeByte (d ||| 0x01))).1 = { sl with expectAddr := false, sel := .read, first := true } := by
  obtain ⟨haddr, hbit⟩ := readForm_bits d
  simp only [Slave.observe, he, if_true, Slave.onAddress, haddr, ← ha, hbit]

/-- A slave whose pointer is at `p`, selected for writing: the next data byte is stored there. -/
def Slave.writingAt (sl : Slave) (p : Byte) : Slave :=
  { sl with expectAddr := false, sel := .write, first := false, ptr := p }

/-- A slave whose pointer is at `p`, selected for reading: it drives the register there next. -/
def Slave.readingAt (sl : Slave) (p : Byte) : Slave :=
  { sl with expectAddr := false, sel := .read, first := true, ptr := p }

theorem Slave.observeAll_openPrims {sl : Slave} {d g : Byte} (hd : devOk d = true)
    (ha : sl.addr = d.extractLsb' 1 7) : sl.observeAll (openPrims d g) = sl.writingAt g := by
  rw [openPrims, Slave.observeAll_cons, Slave.observeAll_cons,
    Slave.observe_devWrite (sl := (sl.observe .openBus).1) rfl hd ha]
  rfl

theorem Slave.observeAll_readPhasePrims {sl : Slave} {d g : Byte} (hd : devOk d = true)
    (ha : sl.addr = d.extractLsb' 1 7) : sl.observeAll (readPhasePrims d g) = sl.readingAt g := by
  rw [readPhasePrims, Slave.observeAll_append, Slave.observeAll_openPrims hd ha, Slave.observeAll_cons,
    Slave.observeAll_cons, Slave.observe_devRead (sl := ((sl.writingAt g).observe .restartBus).1) rfl ha]
  rfl

@[simp] theorem Slave.writingAt_reg (sl : Slave) (p r : Byte) : (sl.writingAt p).reg r = sl.reg r := rfl
@[simp] theorem Slave.readingAt_reg (sl : Slave) (p r : Byte) : (sl.readingAt p).reg r = sl.reg r := rfl

theorem Slave.observe_store (sl : Slave) (p b : Byte) :
    ((sl.writingAt p).observe (.writeByte b)).1 = (sl.setReg p b).writingAt (p + 1) := rfl

theorem Slave.observe_drive (sl : Slave) (p : Byte) :
    (sl.readingAt p).observe .readByte = (sl.readingAt (p + 1), { data := some (sl.reg p) }) := rfl

/-! ### One-byte commands against the slave -/

theorem Slave.observeAll_readCommandPrims {sl : Slave} {d g : Byte} (hd : devOk d = true)
    (ha : sl.addr = d.extractLsb' 1 7) : sl.observeAll (readCommandPrims d g) = sl.readingAt (g + 1) := by
  rw [show readCommandPrims d g = readPhasePrims d g ++ [.readByte, .notAck, .closeBus] from rfl,
    Slave.observeAll_append, Slave.observeAll_readPhasePrims hd ha]
  rfl

theorem Slave.observeAll_writeFramePrims {sl : Slave} {d g v : Byte} (hd : devOk d = true)
    (ha : sl.addr = d.extractLsb' 1 7) :
    sl.observeAll (writeFramePrims d g v) = (sl.setReg g v).writingAt (g + 1) := by
  rw [show writeFramePrims d g v = openPrims d g ++ [.writeByte v, .closeBus] from rfl, Slave.observeAll_append,
    Slave.observeAll_openPrims hd ha]
  rfl

/-- The reply to one primitive of a list is the one of the slave that observed those before it. -/
theorem Slave.replies_getElem? (sl : Slave) (ps : List Prim) (k : Nat) :
    (sl.replies ps)[k]? = ps[k]?.map fun p => ((sl.observeAll (ps.take k)).observe p).2 := by
  induction ps generalizing sl k with
  | nil => rfl
  | cons p ps ih =>
    cases k with
    | zero => rfl
    | succ k => simpa using ih _ k

theorem Reply.Gives.getElem? {reps : List Reply} {as : List Answer} (h : List.Forall₂ Reply.Gives reps as) :
    ∀ {k : Nat} {rep : Reply} {a : Answer}, reps[k]? = some rep → as[k]? = some a → rep.Gives a := by
  induction h with
  | nil => simp
  | cons h1 _ ih =>
    intro k rep a hrep ha
    cases k with
    | zero =>
      cases hrep
      cases ha
      exact h1
    | succ k => exact ih hrep ha

/-- The one attached slave answers a one-byte read frame with its register, and no register changes. -/
theorem Env.ReadsByte.of_free {e : Env} {sl : Slave} {d g : Byte} (hd : devOk d = true)
    (ha : sl.addr = d.extractLsb' 1 7) (hf : e.FreeFor 8) (hb : e.bus = .fixture [sl]) :
    ∃ sa sr sd e', e.ReadsByte d g sa sr sd (sl.reg g) e' ∧ e'.moves = e.moves.drop 8 ∧
      e'.bus = .fixture [sl.readingAt (g + 1)] := by
  obtain ⟨as, e', h, hb', hgives⟩ := Env.Answers.of_free (readCommandPrims d g) hf hb
  obtain ⟨sa, sr, sd, b, hr, has⟩ := h.readsByte
  obtain ⟨a, ha5, rfl⟩ := Option.map_eq_some_iff.mp has
  have hrep : (sl.replies (readCommandPrims d g))[5]? = some { data := some (sl.reg g) } := by
    rw [Slave.replies_getElem?]
    change some (Slave.observe (sl.observeAll (readPhasePrims d g)) .readByte).2 = _
    rw [Slave.observeAll_readPhasePrims hd ha]
    rfl
  have hbyte : a.byte = sl.reg g := (Reply.Gives.getElem? hgives hrep ha5).2 _ rfl
  rw [Slave.observeAll_readCommandPrims hd ha] at hb'
  exact ⟨sa, sr, sd, e', hbyte ▸ hr, h.moves.1, hb'⟩

/-- The one attached slave stores the byte of a one-byte write frame. -/
theorem Env.WritesByte.of_free {e : Env} {sl : Slave} {d g : Byte} (v : Byte) (hd : devOk d = true)
    (ha : sl.addr = d.extractLsb' 1 7) (hf : e.FreeFor 5) (hb : e.bus = .fixture [sl]) :
    ∃ sa sr sv e', e.WritesByte d g v sa sr sv e' ∧ e'.moves = e.moves.drop 5 ∧
      e'.bus = .fixture [(sl.setReg g v).writingAt (g + 1)] := by
  obtain ⟨as, e', h, hb', -⟩ := Env.Answers.of_free (writeFramePrims d g v) hf hb
  obtain ⟨sa, sr, sv, hw⟩ := h.writesByte
  rw [Slave.observeAll_writeFramePrims hd ha] at hb'
  exact ⟨sa, sr, sv, e', hw, h.moves.1, hb'⟩

/-- Settles O51: WriteByte leaves the value in the register, and ReadByte gives the register back. -/
theorem byteRoundTripOnASlave : Obligations.ByteRoundTripOnASlave := by
  intro d g v sl s hs hdev hfix ha hwf
  obtain ⟨sa, sr, sv, e, hw, hmoves, hbus⟩ := Env.WritesByte.of_free v hdev ha (hfix.freeFor 5) hfix.2
  have hfree : e.FreeFor 8 := fun m hm => hfix.1 m (List.mem_of_mem_drop (hmoves ▸ List.mem_of_mem_take hm))
  obtain ⟨sa', sr', sd', e', hr, -, hbus'⟩ :=
    Env.ReadsByte.of_free (sl := (sl.setReg g v).writingAt (g + 1)) (g := g) hdev ha hfree hbus
  have hreg : (sl.setReg g v).reg g = v := by rw [Slave.reg_setReg _ _ _ _ hwf, if_pos rfl]
  rw [Slave.writingAt_reg, hreg] at hr
  refine ⟨_, _, exec_writeByte hs hdev hw, exec_readByte (afterCommand_bootOk _ _ _ _) hdev hr, rfl, ?_⟩
  change e'.bus.register sl.addr g = some v
  rw [hbus']
  exact (Bus.register_fixture_one (((sl.setReg g v).writingAt (g + 1)).readingAt (g + 1)) g).trans (congrArg some hreg)

/-! ### The lost update (20_memory.md R59, 70_reset_and_hazards.md R206) -/

/-- A change by others before an open-bus is one to the bus the open-bus finds. -/
theorem Env.answer_openBus_poke {e : Env} {k : Poke} (h : e.moves = [{ pokes := [k] }]) :
    e.answer .openBus = { e with moves := [], bus := e.bus.poke k }.answer .openBus := by
  simp [Env.answer, Env.next, Env.busAt, Move.free, h]

/-- The write frame before which others change a register is the one on the changed bus. -/
theorem Env.WritesByte.of_poked {e e' : Env} {k : Poke} {d g v : Byte} {sa sr sv : Status}
    (h : e.moves = [{ pokes := [k] }])
    (hw : { e with moves := [], bus := e.bus.poke k }.WritesByte d g v sa sr sv e') :
    e.WritesByte d g v sa sr sv e' := by
  obtain ⟨a0, a1, a2, a3, a4, hans, hst⟩ := hw
  cases hans with | cons hopen hrest =>
  exact ⟨a0, a1, a2, a3, a4, .cons ((Env.answer_openBus_poke h).trans hopen) hrest, hst⟩

/-- A read frame that the one attached slave answers, a change of the register by others, and a write frame of any byte
`w`: the byte read is the one before the change, and `w` is what the register holds in the end. -/
theorem Env.poke_between_frames {e : Env} {sl : Slave} {d g v : Byte} (hd : devOk d = true)
    (ha : sl.addr = d.extractLsb' 1 7) (hwf : sl.regs.wf = true) (hb : e.bus = .fixture [sl])
    (hm : e.moves = List.replicate 8 Move.free ++ [{ pokes := [{ addr := sl.addr, reg := g, value := v }] }]) :
    ∃ sa sr sd e1, e.ReadsByte d g sa sr sd (sl.reg g) e1 ∧
      ∀ w, ∃ sa' sr' sv e', e1.WritesByte d g w sa' sr' sv e' ∧
        ∀ r, e'.bus.register sl.addr r = some (if r = g then w else sl.reg r) := by
  have hfree : e.FreeFor 8 := by
    intro m hmem
    rw [hm, List.take_left' (by simp)] at hmem
    exact List.eq_of_mem_replicate hmem
  obtain ⟨sa, sr, sd, e1, hr, hmoves, hbus⟩ := Env.ReadsByte.of_free (g := g) hd ha hfree hb
  rw [hm, List.drop_left' (by simp)] at hmoves
  refine ⟨sa, sr, sd, e1, hr, fun w => ?_⟩
  obtain ⟨sa', sr', sv, e', hw, -, hbus'⟩ := Env.WritesByte.of_free (g := g) w
    (sl := (sl.readingAt (g + 1)).setReg g v) (e := { e1 with moves := [], bus := e1.bus.poke ⟨sl.addr, g, v⟩ }) hd ha
    (by simp [Env.FreeFor]) (by rw [hbus]; simp [Bus.poke, Slave.readingAt])
  refine ⟨sa', sr', sv, e', hw.of_poked hmoves, fun r => ?_⟩
  rw [hbus']
  refine (Bus.register_fixture_one ((((sl.readingAt (g + 1)).setReg g v).setReg g w).writingAt (g + 1)) r).trans ?_
  have hwf1 : (sl.readingAt (g + 1)).regs.wf = true := hwf
  rw [Slave.writingAt_reg, Slave.reg_setReg _ _ _ _ (Slave.setReg_wf _ _ _ hwf1), Slave.reg_setReg _ _ _ _ hwf1]
  by_cases hr : r = g
  · rw [if_pos hr, if_pos hr]
  · rw [if_neg hr, if_neg hr, if_neg hr, Slave.readingAt_reg]

/-- Settles O60: the byte written back is computed from the byte read before the change, and overwrites it. -/
theorem changeBetweenTheFramesIsLost : Obligations.ChangeBetweenTheFramesIsLost := by
  intro d g p q n value v sl s hs hdev ha hwf hb hm
  obtain ⟨sa, sr, sd, e1, hr, hwrite⟩ := Env.poke_between_frames hdev ha hwf hb hm
  refine ⟨fun hpos => ?_, fun hfield => ?_⟩
  · rw [← writeBitValue_eq_ite]
    obtain ⟨sa', sr', sv, e', hw, hreg⟩ := hwrite (writeBitValue (sl.reg g) p value)
    exact ⟨_, exec_writeBit hs hdev hpos hr hw, afterCommand_completed _ _ _ _, hreg⟩
  · obtain ⟨sa', sr', sv, e', hw, hreg⟩ := hwrite (writeBitsValue (sl.reg g) q n value)
    exact ⟨_, exec_writeBits hs hdev hfield hr hw, afterCommand_completed _ _ _ _, hreg⟩

/-! ### The burst frames of a command (30_encoding.md R80, R81) -/

/-- `ENV` answers a read frame of `n` bytes with the statuses `sa`, `sr`, `sd`, and its data part with the answers
`as`. -/
def Env.ReadsBurst (e : Env) (d g : Byte) (n : Nat) (sa sr sd : Status) (as : List Answer) (e' : Env) : Prop :=
  ∃ (a0 a1 a2 a3 a4 ac : Answer) (e1 e2 : Env), e.Answers (readPhasePrims d g) [a0, a1, a2, a3, a4] e1 ∧
    e1.Answers (readLoopPrims n) as e2 ∧ e2.answer .closeBus = some (ac, e') ∧
    a1.status = sa ∧ a2.status = sr ∧ a4.status = sd

/-- `ENV` answers a write frame of the bytes `vs` with the statuses `sa`, `sr`, and its data part with the answers
`as`. -/
def Env.WritesBurst (e : Env) (d g : Byte) (vs : List Byte) (sa sr : Status) (as : List Answer) (e' : Env) : Prop :=
  ∃ (a0 a1 a2 ac : Answer) (e1 e2 : Env), e.Answers (openPrims d g) [a0, a1, a2] e1 ∧
    e1.Answers (vs.map Prim.writeByte) as e2 ∧ e2.answer .closeBus = some (ac, e') ∧ a1.status = sa ∧ a2.status = sr

/-- ReadBytes is a read frame that fills the first `LEN` elements of the buffer (41_byte_transfers.md R130). -/
theorem exec_readBytes {d g n : Byte} {sa sr sd : Status} {as : List Answer} {s : State} {e : Env}
    (hs : Ready (.readBytes d g n) s) (hr : s.env.ReadsBurst d g n.toNat sa sr sd as e) :
    exec (.readBytes d g n) s = .next { afterCommand s (readFrame d g sa sr sd (receivedBytes as)) .nothing e with
      buf := receivedBytes as ++ s.buf.drop n.toNat } := by
  obtain ⟨a0, a1, a2, a3, a4, ac, e1, e2, hphase, hloop, hclose, rfl, rfl, rfl⟩ := hr
  obtain ⟨op, hop, hx, -⟩ := exec_of_ready (.readBytes d g n) s rfl hs
  cases hop
  obtain ⟨⟨-, ho, hp⟩, -, hbuf⟩ := hs
  rw [hx, show planOf (.readBytes d g n) = readPhaseRows ++ (readLoopRows 0 n.toNat ++ [.closeBus]) from
    List.append_assoc _ _ _]
  rw [runRows_readPhaseRows (s := load .readBytes _ s) hp ho rfl rfl hphase]
  obtain ⟨idx, hrun⟩ := runRows_readLoopRows n.toNat (i := 0) (rs := [.closeBus])
    (s := { load .readBytes (instrLatches (.readBytes d g n)) s with
      owned := true
      trace := s.trace ++ [.opened, .tx d a1.status, .tx g a2.status, .restarted, .tx (d ||| 0x01) a4.status]
      seq := some 5
      env := e1 }) hp rfl (by simpa [bufferNeed] using hbuf) hloop
  refine hrun.trans ?_
  rw [runRows_of_answer (p := .closeBus) (by exact hp) rfl rfl hclose rfl rfl]
  simp [afterCommand, finish, afterPrim, ownedAfter, eventOf, readFrame, load, hp]

/-- WriteBytes is a write frame of the first `LEN` elements of the buffer (41_byte_transfers.md R132). -/
theorem exec_writeBytes {d g n : Byte} {sa sr : Status} {as : List Answer} {s : State} {e : Env}
    (hs : Ready (.writeBytes d g n) s) (hw : s.env.WritesBurst d g (s.buf.take n.toNat) sa sr as e) :
    exec (.writeBytes d g n) s = .next (afterCommand s
      (writeFrame d g sa sr (s.buf.take n.toNat) (as.map Answer.status)) .nothing e) := by
  obtain ⟨a0, a1, a2, ac, e1, e2, hopen, hloop, hclose, rfl, rfl⟩ := hw
  obtain ⟨op, hop, hx, -⟩ := exec_of_ready (.writeBytes d g n) s rfl hs
  cases hop
  obtain ⟨⟨-, ho, hp⟩, -, hbuf⟩ := hs
  rw [hx, show planOf (.writeBytes d g n) = openRows ++ (writeLoopRows 0 n.toNat ++ [.closeBus]) from
    List.append_assoc _ _ _]
  rw [runRows_openRows (s := load .writeBytes _ s) hp ho rfl rfl hopen]
  obtain ⟨idx, hrun⟩ := runRows_writeLoopRows n.toNat (i := 0) (rs := [.closeBus])
    (s := { load .writeBytes (instrLatches (.writeBytes d g n)) s with
      owned := true
      trace := s.trace ++ [.opened, .tx d a1.status, .tx g a2.status]
      seq := some 3
      env := e1 }) hp rfl (by simpa [bufferNeed] using hbuf) (by simpa using hloop)
  refine hrun.trans ?_
  rw [runRows_of_answer (p := .closeBus) (by exact hp) rfl rfl hclose rfl rfl]
  simp [afterCommand, finish, afterPrim, ownedAfter, eventOf, writeFrame, load, hp]

/-! ### Bursts against the slave -/

/-- `ENV` that is one fixture slave answers a list of primitives with its replies, and is that slave afterwards. -/
theorem Env.Answers.of_fixture (ps : List Prim) {e : Env} {sl : Slave} (h : e.IsFixture sl) :
    ∃ as e', e.Answers ps as e' ∧ e'.IsFixture (sl.observeAll ps) ∧ List.Forall₂ Reply.Gives (sl.replies ps) as := by
  obtain ⟨as, e', hans, hbus, hgives⟩ := Env.Answers.of_free ps (h.freeFor _) h.2
  exact ⟨as, e', hans, ⟨fun m hm => h.1 m (List.mem_of_mem_drop (hans.moves.1 ▸ hm)), hbus⟩, hgives⟩

/-- The `k`-th register after the next one is the `k + 1`-th after this one. -/
theorem add_one_add_ofNat (p : Byte) (k : Nat) : p + 1 + BitVec.ofNat 8 k = p + BitVec.ofNat 8 (k + 1) := by
  rw [BitVec.add_assoc, Nat.add_comm k 1, BitVec.ofNat_add]
  rfl

/-- The master's acknowledge of a byte does not move the slave. -/
theorem Slave.observe_acknowledge (sl : Slave) (n : Nat) : (sl.observe (if n = 0 then .notAck else .ack)).1 = sl := by
  split <;> rfl

/-- The slave's pointer runs through `n` registers while it is read. -/
theorem Slave.observeAll_readLoop (sl : Slave) (p : Byte) (n : Nat) :
    (sl.readingAt p).observeAll (readLoopPrims n) = sl.readingAt (p + BitVec.ofNat 8 n) := by
  induction n generalizing p with
  | zero => simp [readLoopPrims]
  | succ n ih =>
    simp only [readLoopPrims, Slave.observeAll_cons, Slave.observe_drive, Slave.observe_acknowledge, ih,
      add_one_add_ofNat]

/-- The slave drives `n` registers, one after the other, while it is read. -/
theorem receivedBytes_of_gives (sl : Slave) (n : Nat) : ∀ {p : Byte} {as : List Answer},
    List.Forall₂ Reply.Gives ((sl.readingAt p).replies (readLoopPrims n)) as →
    receivedBytes as = (List.range n).map fun k => sl.reg (p + BitVec.ofNat 8 k) := by
  induction n with
  | zero =>
    intro p as h
    cases h
    rfl
  | succ n ih =>
    intro p as h
    cases h with | cons hread h =>
    cases h with | cons _ h =>
    rw [Slave.observe_drive, Slave.observe_acknowledge] at h
    have hbyte := hread.2 (sl.reg p) rfl
    simp only [receivedBytes, ih h, hbyte, List.range_succ_eq_map, List.map_cons, List.map_map, Function.comp_def,
      add_one_add_ofNat, BitVec.add_zero]

/-- The slave stores consecutive data bytes in consecutive registers. -/
theorem Slave.reg_observeAll_store (vs : List Byte) : ∀ {sl : Slave} {p : Byte}, sl.regs.wf = true → vs.length ≤ 256 →
    ∀ r, ((sl.writingAt p).observeAll (vs.map Prim.writeByte)).reg r =
      if (r - p).toNat < vs.length then vs.getD (r - p).toNat 0 else sl.reg r := by
  induction vs with
  | nil => simp
  | cons v vs ih =>
    intro sl p hwf hlen r
    rw [List.length_cons] at hlen
    rw [List.map_cons, Slave.observeAll_cons, Slave.observe_store, ih (Slave.setReg_wf _ _ _ hwf) (by omega),
      Slave.reg_setReg _ _ _ _ hwf]
    by_cases hr : r = p
    · subst hr
      have hwrap : (r - (r + 1)).toNat = 255 := by bv_omega
      rw [hwrap, if_neg (by omega), if_pos rfl]
      simp
    · have hstep : (r - p).toNat = (r - (p + 1)).toNat + 1 := by bv_omega
      simp [hstep, hr]

/-- Settles O54: the slave drives its registers in order into the buffer, and none changes. -/
theorem burstReadReturnsConsecutiveRegisters : Obligations.BurstReadReturnsConsecutiveRegisters := by
  intro d g n sl s hs hfix ha
  have hdev : devOk d = true := hs.2.1
  obtain ⟨as, e1, hphase, hfix1, -⟩ := Env.Answers.of_fixture (readPhasePrims d g) hfix
  rw [Slave.observeAll_readPhasePrims hdev ha] at hfix1
  obtain ⟨as', e2, hloop, hfix2, hgives⟩ := Env.Answers.of_fixture (readLoopPrims n.toNat) hfix1
  rw [Slave.observeAll_readLoop] at hfix2
  obtain ⟨ac, e, hclose, hfix3, -⟩ := Env.answer_fixture hfix2 .closeBus
  match as, hphase.moves.2.2 with
  | [a0, a1, a2, a3, a4], _ =>
    have hrun := exec_readBytes hs ⟨a0, a1, a2, a3, a4, ac, e1, e2, hphase, hloop, hclose, rfl, rfl, rfl⟩
    rw [receivedBytes_of_gives sl n.toNat hgives] at hrun
    refine ⟨_, hrun, fun k hk => ?_, fun k hk => ?_, fun r => ?_⟩
    · simp [List.getElem?_append_left, hk]
    · simp [List.getElem?_append_right, hk]
    · change e.bus.register sl.addr r = some (sl.reg r)
      rw [hfix3.2]
      exact Bus.register_fixture_one (sl.readingAt (g + BitVec.ofNat 8 n.toNat)) r

/-- Settles O53: the slave's pointer starts at `REG` and each byte of the buffer is stored where it is. -/
theorem burstWriteStoresTheBufferInASlave : Obligations.BurstWriteStoresTheBufferInASlave := by
  intro d g n sl s hs hfix ha hwf
  have hdev : devOk d = true := hs.2.1
  have hlen : (s.buf.take n.toNat).length = n.toNat := List.length_take_of_le hs.2.2
  obtain ⟨as, e1, hopen, hfix1, -⟩ := Env.Answers.of_fixture (openPrims d g) hfix
  rw [Slave.observeAll_openPrims hdev ha] at hfix1
  obtain ⟨as', e2, hloop, hfix2, -⟩ := Env.Answers.of_fixture ((s.buf.take n.toNat).map Prim.writeByte) hfix1
  obtain ⟨ac, e, hclose, hfix3, -⟩ := Env.answer_fixture hfix2 .closeBus
  match as, hopen.moves.2.2 with
  | [a0, a1, a2], _ =>
    refine ⟨_, exec_writeBytes hs ⟨a0, a1, a2, ac, e1, e2, hopen, hloop, hclose, rfl, rfl⟩, fun r => ?_⟩
    change e.bus.register sl.addr r = _
    rw [hfix3.2]
    refine (Bus.register_observeAll (sl.writingAt g) _ r).trans (congrArg some ?_)
    rw [Slave.reg_observeAll_store _ hwf (by have := n.isLt; omega), hlen]
    by_cases hr : (r - g).toNat < n.toNat
    · rw [if_pos hr, if_pos hr, List.getD_eq_getElem?_getD, List.getElem?_take, if_pos hr, List.getD_eq_getElem?_getD]
    · rw [if_neg hr, if_neg hr]

/-! ### The frame of memory for the commands (20_memory.md R54, R62) -/

/-- The slave at an address of the bus. -/
def Bus.slaveAt : Bus → Addr7 → Option Slave
  | .unknown, _ => none
  | .fixture slaves, a => slaves.find? fun sl => sl.addr == a

theorem Bus.register_eq_slaveAt (b : Bus) (a : Addr7) (x : Byte) :
    b.register a x = (b.slaveAt a).map fun sl => sl.reg x := by
  cases b <;> rfl

theorem Bus.slaveAt_observe (b : Bus) (p : Prim) (a : Addr7) :
    (b.observe p).1.slaveAt a = (b.slaveAt a).map fun sl => (sl.observe p).1 := by
  cases b with
  | unknown => rfl
  | fixture slaves => exact find_slave_observe p a slaves

theorem Bus.addr_of_slaveAt {b : Bus} {a : Addr7} {sl : Slave} (h : b.slaveAt a = some sl) : sl.addr = a := by
  cases b with
  | unknown => cases h
  | fixture slaves => simpa using List.find?_some h

/-- The row can issue the primitive in a command with the operands `DEV` and `REG`; the data bytes are free. -/
def Row.Issues (d g : Byte) (r : Row) (p : Prim) : Prop :=
  ∃ u : State, u.latches.dev = some d ∧ u.latches.reg = some g ∧ rowPrim u r = .next p

/-- Whatever the rows issue, at no point of them does the slave change its register `x`. -/
def Slave.KeepsReg (d g x : Byte) : List Row → Slave → Prop
  | [], _ => True
  | r :: rs, sl =>
    ∀ p, r.Issues d g p → (sl.observe p).1.reg x = sl.reg x ∧ Slave.KeepsReg d g x rs (sl.observe p).1

/-- A run of rows, completed or hung, keeps a register that the slave at the address keeps. -/
theorem runRows_register {d g x : Byte} {a : Addr7} (rs : List Row) : ∀ {s t : State}, s.pending = none →
    s.latches.dev = some d → s.latches.reg = some g → s.env.Exclusive →
    (∀ sl, s.env.bus.slaveAt a = some sl → sl.KeepsReg d g x rs) → runRows rs s = .next t →
    t.env.bus.register a x = s.env.bus.register a x := by
  induction rs with
  | nil =>
    intro s t _ _ _ _ _ h
    cases h
    rfl
  | cons r rs ih =>
    intro s t hp hd hg hx hkeep h
    obtain ⟨u, hu, hrest⟩ := andThen_eq_next.mp h
    obtain ⟨p, hrow, -, ⟨-, rfl⟩ | ⟨ans, e, s3, ha, hdel, rfl⟩⟩ := doRow_cases hp hu
    · cases hrest
      rfl
    · obtain ⟨-, -, hl, -, -, -, hp3, -, -, -, henv, -⟩ := deliver_frame hdel
      obtain ⟨hx', hbus⟩ := Env.answer_exclusive hx ha
      have hissue : r.Issues d g p := ⟨s, hd, hg, hrow⟩
      have hafter : s3.env.bus = (s.env.bus.observe p).1 := by
        rw [henv]
        exact hbus
      have hkept : s3.env.bus.register a x = s.env.bus.register a x := by
        rw [hafter, Bus.register_eq_slaveAt, Bus.register_eq_slaveAt, Bus.slaveAt_observe, Option.map_map]
        exact Option.map_congr fun sl hsl => (hkeep sl hsl p hissue).1
      refine (ih (s := { s3 with seq := s3.seq.map (· + 1) }) hp3 (hl ▸ hd) (hl ▸ hg) (henv ▸ hx') ?_
        (runRows_rest hp3 hrest)).trans hkept
      intro sl' hsl'
      change s3.env.bus.slaveAt a = some sl' at hsl'
      rw [hafter, Bus.slaveAt_observe] at hsl'
      obtain ⟨sl, hsl, rfl⟩ := Option.map_eq_some_iff.mp hsl'
      exact (hkeep sl hsl p hissue).2

/-! #### What each part of a frame leaves of a slave -/

/-- The slave stores no data byte before the next open-bus or restart-bus. -/
def Slave.Passive (sl : Slave) : Prop := sl.expectAddr = false ∧ sl.sel ≠ .write

/-- The slave, if it is selected for writing, is the one at `a` and stores the next data byte in register `p`. -/
def Slave.StoresFrom (sl : Slave) (a : Addr7) (p : Byte) : Prop :=
  sl.expectAddr = false ∧ (sl.sel = .write → sl.addr = a ∧ sl.first = false ∧ sl.ptr = p)

/-- The row begins a new address phase. -/
def Row.readdresses : Row → Bool
  | .openBus | .restartBus => true
  | _ => false

/-- A row that begins no address phase issues neither open-bus nor restart-bus. -/
theorem Row.Issues.ne_readdress {d g : Byte} {r : Row} {p : Prim} (h : r.Issues d g p) (hr : r.readdresses = false) :
    p ≠ .openBus ∧ p ≠ .restartBus := by
  obtain ⟨u, -, -, hp⟩ := h
  cases r with
  | openBus | restartBus => cases hr
  | send src =>
    obtain ⟨b, -, hb⟩ := andThen_eq_next.mp hp
    cases hb
    simp
  | _ =>
    cases hp
    simp

/-- A row that sends a byte issues a write-byte. -/
theorem Row.Issues.send {d g : Byte} {src : Source} {p : Prim} (h : (Row.send src).Issues d g p) :
    ∃ b, p = .writeByte b := by
  obtain ⟨u, -, -, hp⟩ := h
  obtain ⟨b, -, hb⟩ := andThen_eq_next.mp hp
  exact ⟨b, (Host.Outcome.next.inj hb).symm⟩

theorem Row.Issues.devWrite {d g : Byte} {p : Prim} (h : (Row.send .devWrite).Issues d g p) : p = .writeByte d := by
  obtain ⟨u, hd, -, hp⟩ := h
  simpa [rowPrim, sourceByte, hd, writeForm] using hp.symm

theorem Row.Issues.devRead {d g : Byte} {p : Prim} (h : (Row.send .devRead).Issues d g p) :
    p = .writeByte (d ||| 0x01) := by
  obtain ⟨u, hd, -, hp⟩ := h
  simpa [rowPrim, sourceByte, hd, readForm] using hp.symm

theorem Row.Issues.reg {d g : Byte} {p : Prim} (h : (Row.send .reg).Issues d g p) : p = .writeByte g := by
  obtain ⟨u, -, hg, hp⟩ := h
  simpa [rowPrim, sourceByte, hg] using hp.symm

/-- An address byte ends the address phase; the slave it selects for writing has that address, and the address byte is
in write form. -/
theorem Slave.observe_address {sl : Slave} (he : sl.expectAddr = true) (b : Byte) :
    (sl.observe (.writeByte b)).1.expectAddr = false ∧
      ((sl.observe (.writeByte b)).1.sel = .write →
        sl.addr = b.extractLsb' 1 7 ∧ b.getLsbD 0 = false ∧ (sl.observe (.writeByte b)).1.first = true) := by
  simp only [Slave.observe, he, if_true, Slave.onAddress]
  by_cases ha : b.extractLsb' 1 7 = sl.addr
  · cases hbit : b.getLsbD 0 <;> simp [ha]
  · simp [ha]

/-- The first byte after the address byte sets the pointer of a slave selected for writing. -/
theorem Slave.observe_pointer {sl : Slave} {a : Addr7} (he : sl.expectAddr = false)
    (hsel : sl.sel = .write → sl.addr = a ∧ sl.first = true) (g : Byte) :
    (sl.observe (.writeByte g)).1.reg = sl.reg ∧ (sl.observe (.writeByte g)).1.StoresFrom a g := by
  simp only [Slave.observe, he, Bool.false_eq_true, if_false, Slave.onData]
  cases hs : sl.sel with
  | write =>
    obtain ⟨ha, hf⟩ := hsel hs
    simp only [hf, if_true]
    exact ⟨rfl, rfl, fun _ => ⟨ha, rfl, rfl⟩⟩
  | read | none => exact ⟨rfl, he, fun hw => absurd (hs.symm.trans hw) (by decide)⟩

/-- A data byte advances the pointer of a slave selected for writing. -/
theorem Slave.StoresFrom.observe {sl : Slave} {a : Addr7} {p : Byte} (h : sl.StoresFrom a p) (b : Byte) :
    (sl.observe (.writeByte b)).1.StoresFrom a (p + 1) := by
  obtain ⟨he, hsel⟩ := h
  simp only [Slave.observe, he, Bool.false_eq_true, if_false, Slave.onData]
  cases hs : sl.sel with
  | write =>
    obtain ⟨ha, hf, rfl⟩ := hsel hs
    rw [hf]
    exact ⟨he, fun _ => ⟨ha, hf, rfl⟩⟩
  | read | none => exact ⟨he, fun hw => absurd (hs.symm.trans hw) (by decide)⟩

/-- A primitive that begins no address phase keeps a slave that stores nothing as such. -/
theorem Slave.Passive.observe {sl : Slave} (h : sl.Passive) {p : Prim} (hp : p ≠ .openBus ∧ p ≠ .restartBus)
    (x : Byte) : (sl.observe p).1.reg x = sl.reg x ∧ (sl.observe p).1.Passive := by
  obtain ⟨hexp, hsel⟩ := h
  refine ⟨Slave.observe_reg fun b _ => .inr (.inl hsel), ?_⟩
  cases p with
  | openBus => exact absurd rfl hp.1
  | restartBus => exact absurd rfl hp.2
  | closeBus | ack | notAck => exact ⟨hexp, hsel⟩
  | writeByte b =>
    simp only [Slave.observe, hexp, Bool.false_eq_true, if_false, Slave.onData]
    split
    · exact absurd ‹_› hsel
    · exact ⟨hexp, hsel⟩
    · exact ⟨hexp, hsel⟩
  | readByte =>
    simp only [Slave.observe, Slave.onReceive]
    split <;> exact ⟨hexp, hsel⟩

/-- Rows without an address phase change nothing in a slave that stores nothing. -/
theorem Slave.Passive.keepsReg {d g x : Byte} {rs : List Row} (rows : List Row) :
    ∀ {sl : Slave}, sl.Passive → (∀ r ∈ rows, r.readdresses = false) →
      (∀ sl' : Slave, sl'.addr = sl.addr → sl'.KeepsReg d g x rs) → sl.KeepsReg d g x (rows ++ rs) := by
  induction rows with
  | nil => exact fun _ _ hrest => hrest _ rfl
  | cons r rows ih =>
    intro sl hsl hrows hrest p hp
    obtain ⟨hreg, hpassive⟩ := hsl.observe (hp.ne_readdress (hrows r (by simp))) x
    exact ⟨hreg, ih hpassive (fun r' hr' => hrows r' (by simp [hr'])) fun sl' haddr =>
      hrest sl' (haddr.trans (Slave.observe_addr sl p))⟩

/-- The data bytes of a write frame are stored in consecutive registers of the slave addressed. -/
theorem Slave.StoresFrom.keepsReg {d g x : Byte} {a : Addr7} (rows : List Row) : ∀ {sl : Slave} {p : Byte},
    sl.StoresFrom a p → (∀ r ∈ rows, ∃ src, r = .send src) →
    (sl.addr = a → ∀ k < rows.length, x ≠ p + BitVec.ofNat 8 k) → sl.KeepsReg d g x (rows ++ [.closeBus]) := by
  induction rows with
  | nil =>
    rintro sl p - - - q ⟨u, -, -, hq⟩
    cases hq
    exact ⟨rfl, trivial⟩
  | cons r rows ih =>
    intro sl p hsl hrows hne q hq
    obtain ⟨src, rfl⟩ := hrows r (by simp)
    obtain ⟨b, rfl⟩ := hq.send
    refine ⟨Slave.observe_reg fun _ _ => ?_, ih (hsl.observe b) (fun r' hr' => hrows r' (by simp [hr'])) ?_⟩
    · by_cases hw : sl.sel = .write
      · obtain ⟨ha, -, rfl⟩ := hsl.2 hw
        exact .inr (.inr (.inr fun hx => hne ha 0 (by simp) (by simp [hx])))
      · exact .inr (.inl hw)
    · intro haddr k hk
      rw [add_one_add_ofNat]
      exact hne ((Slave.observe_addr sl _).symm.trans haddr) (k + 1) (by simpa using hk)

/-- The rows every frame begins with. -/
theorem Slave.keepsReg_openRows {d g x : Byte} {rs : List Row} {sl : Slave}
    (hrest : ∀ sl' : Slave, sl'.addr = sl.addr → sl'.StoresFrom (d.extractLsb' 1 7) g → sl'.KeepsReg d g x rs) :
    sl.KeepsReg d g x (openRows ++ rs) := by
  rintro p ⟨u, -, -, hp⟩
  cases hp
  refine ⟨rfl, fun p hp => ?_⟩
  cases hp.devWrite
  obtain ⟨he, hsel⟩ := Slave.observe_address (sl := (sl.observe .openBus).1) rfl d
  refine ⟨Slave.observe_reg fun _ _ => .inl rfl, fun p hp => ?_⟩
  cases hp.reg
  obtain ⟨hreg, hstore⟩ := Slave.observe_pointer (a := d.extractLsb' 1 7) he
    (fun hw => ⟨(Slave.observe_addr _ _).trans (hsel hw).1, (hsel hw).2.2⟩) g
  exact ⟨congrFun hreg x, hrest _ (by simp) hstore⟩

/-- The address phase of a read frame. -/
theorem Slave.keepsReg_readPhaseRows {d g x : Byte} {rs : List Row} {sl : Slave}
    (hrest : ∀ sl' : Slave, sl'.addr = sl.addr → sl'.Passive → sl'.KeepsReg d g x rs) :
    sl.KeepsReg d g x (readPhaseRows ++ rs) := by
  rw [readPhaseRows, List.append_assoc]
  refine Slave.keepsReg_openRows fun sl1 haddr1 _ => ?_
  rintro p ⟨u, -, -, hp⟩
  cases hp
  refine ⟨rfl, fun p hp => ?_⟩
  cases hp.devRead
  obtain ⟨he, hsel⟩ := Slave.observe_address (sl := (sl1.observe .restartBus).1) rfl (d ||| 0x01)
  refine ⟨Slave.observe_reg fun _ _ => .inl rfl, hrest _ (by simpa using haddr1) ⟨he, fun hw => ?_⟩⟩
  obtain ⟨-, hbit, -⟩ := hsel hw
  rw [(readForm_bits d).2] at hbit
  cases hbit

/-- The one-byte write frame stores in the register addressed alone. -/
theorem Slave.keepsReg_writeByteRows {d g x : Byte} {sl : Slave} {src : Source}
    (h : (sl.addr, x) ≠ (d.extractLsb' 1 7, g)) : sl.KeepsReg d g x (writeByteRows src) := by
  refine Slave.keepsReg_openRows fun sl' haddr hstore => hstore.keepsReg [.send src] (by simp) ?_
  intro ha k hk hx
  obtain rfl : k = 0 := by simpa using hk
  exact h (by rw [← haddr, ha, hx]; simp)

/-- The read frame of one byte stores nothing. -/
theorem Slave.keepsReg_readByteRows {d g x : Byte} {rs : List Row} {sl : Slave} {c : Row} (hc : c.readdresses = false)
    (hrest : ∀ sl' : Slave, sl'.addr = sl.addr → sl'.KeepsReg d g x rs) :
    sl.KeepsReg d g x (readByteRows c ++ rs) := by
  rw [readByteRows, List.append_assoc]
  refine Slave.keepsReg_readPhaseRows fun sl1 haddr hpassive => hpassive.keepsReg _ ?_ fun sl' haddr' =>
    hrest sl' (haddr'.trans haddr)
  simp only [List.forall_mem_cons]
  exact ⟨rfl, rfl, hc, by simp⟩

theorem readLoopRows_readdresses (i n : Nat) : ∀ r ∈ readLoopRows i n, r.readdresses = false := by
  induction n generalizing i with
  | zero => simp [readLoopRows]
  | succ n ih =>
    simp only [readLoopRows, List.forall_mem_cons]
    refine ⟨rfl, ?_, ih _⟩
    split <;> rfl

theorem writeLoopRows_sends (i n : Nat) : ∀ r ∈ writeLoopRows i n, ∃ src, r = .send src := by
  induction n generalizing i with
  | zero => simp [writeLoopRows]
  | succ n ih =>
    simp only [writeLoopRows, List.forall_mem_cons]
    exact ⟨⟨_, rfl⟩, ih _⟩

/-- The step table of a command stores only where `storedRegisters` says. -/
theorem planOf_keepsReg {i : Instr} (h : i.opcode?.isSome = true) :
    ∃ d g, (instrLatches i).dev = some d ∧ (instrLatches i).reg = some g ∧
      ∀ (x : Byte) (sl : Slave), (sl.addr, x) ∉ storedRegisters i → sl.KeepsReg d g x (planOf i) := by
  cases i with
  | readBytes d g n =>
    refine ⟨d, g, rfl, rfl, fun x sl _ => ?_⟩
    change sl.KeepsReg d g x (readPhaseRows ++ readLoopRows 0 n.toNat ++ [.closeBus])
    rw [List.append_assoc]
    refine Slave.keepsReg_readPhaseRows fun sl' _ hpassive => hpassive.keepsReg _ (readLoopRows_readdresses _ _) ?_
    rintro sl'' - p ⟨u, -, -, hp⟩
    cases hp
    exact ⟨rfl, trivial⟩
  | writeBytes d g n =>
    refine ⟨d, g, rfl, rfl, fun x sl hx => ?_⟩
    change sl.KeepsReg d g x (openRows ++ writeLoopRows 0 n.toNat ++ [.closeBus])
    rw [List.append_assoc]
    refine Slave.keepsReg_openRows fun sl' haddr hstore => hstore.keepsReg _ (writeLoopRows_sends _ _) ?_
    rw [writeLoopRows_length]
    rintro ha k hk rfl
    exact hx (List.mem_map.mpr ⟨k, List.mem_range.mpr hk, by rw [← ha, haddr]⟩)
  | writeByte d g v =>
    exact ⟨d, g, rfl, rfl, fun x sl hx => Slave.keepsReg_writeByteRows (by simpa [storedRegisters] using hx)⟩
  | readByte d g | readBit d g _ | readBits d g _ _ =>
    refine ⟨d, g, rfl, rfl, fun x sl _ => ?_⟩
    exact Slave.keepsReg_readByteRows (c := .closeResult) (rs := []) rfl fun _ _ => trivial
  | writeBit d g _ _ | writeBits d g _ _ _ =>
    refine ⟨d, g, rfl, rfl, fun x sl hx => Slave.keepsReg_readByteRows rfl fun sl' haddr => ?_⟩
    exact Slave.keepsReg_writeByteRows (by simpa [storedRegisters, haddr] using hx)
  | openBus | restartBus | closeBus | sendByte _ | receiveByte | ack | notAck => cases h

/-- Settles O56: every register the step table does not store to is kept row by row, up to the end or the hang. -/
theorem commandsLeaveOtherRegistersAlone : Obligations.CommandsLeaveOtherRegistersAlone := by
  intro i s t hi hs hx _ h a x hax
  obtain ⟨op, -, hrun, -⟩ := exec_of_ready i s hi (ready_of_exec_next hi h)
  obtain ⟨d, g, hd, hg, hkeep⟩ := planOf_keepsReg hi
  refine runRows_register (planOf i) (s := load op (instrLatches i) s) hs.2.2 hd hg hx (fun sl hsl => ?_) (hrun ▸ h)
  exact hkeep x sl (by rwa [Bus.addr_of_slaveAt hsl])

end Sys2Proof.Machine

/-! ### The opcode map and the primitive requests (30_encoding.md R86 to R90) -/
namespace Sys2Proof.Machine

/-- The fields a command does not use are zero (30_encoding.md R87). -/
def UnusedZero (op : Opcode) (f : Fields) : Prop :=
  match op with
  | .readBytes | .writeBytes | .readBit => f.b = 0 ∧ f.c = 0
  | .readByte => f.a = 0 ∧ f.b = 0 ∧ f.c = 0
  | .writeByte => f.a = 0 ∧ f.b = 0
  | .readBits => f.c = 0
  | .writeBit => f.b = 0
  | .writeBits => True

/-- Six fields are a descriptor of a command: `OP` is its number, and the fields it does not use are zero. -/
def IsDescriptorOf (op : Opcode) (f : Fields) : Prop := f.op = op.code ∧ UnusedZero op f

/-- The command of a row is the row's. -/
theorem commandOf_opcode? (op : Opcode) (dev reg a b c : Byte) : (commandOf op dev reg a b c).opcode? = some op := by
  cases op <;> rfl

/-- The fields of a command's descriptor decode to the command. -/
theorem decodeFields_of_isDescriptorOf {op : Opcode} {f : Fields} (h : IsDescriptorOf op f) :
    decodeFields f = .ok (commandOf op f.dev f.reg f.a f.b f.c) := by
  obtain ⟨hop, hzero⟩ := h
  cases op <;> simp_all [decodeFields, UnusedZero, Opcode.code, commandOf]

/-- Everything six fields can decode to: a command whose descriptor they are, or they are illegal. -/
theorem decodeFields_cases (f : Fields) :
    (∃ op, IsDescriptorOf op f ∧ decodeFields f = .ok (commandOf op f.dev f.reg f.a f.b f.c)) ∨
    decodeFields f = .error .illegalDescriptor := by
  unfold decodeFields
  split_ifs with h0 h1 h2 h3 h4 h5 h6 h7
  · exact .inl ⟨.readBytes, h0, rfl⟩
  · exact .inl ⟨.writeBytes, h1, rfl⟩
  · exact .inl ⟨.readByte, h2, rfl⟩
  · exact .inl ⟨.writeByte, h3, rfl⟩
  · exact .inl ⟨.readBit, h4, rfl⟩
  · exact .inl ⟨.readBits, h5, rfl⟩
  · exact .inl ⟨.writeBit, h6, rfl⟩
  · exact .inl ⟨.writeBits, ⟨h7, trivial⟩, rfl⟩
  · exact .inr rfl

/-- Six fields that decode are the descriptor of what they decode to. -/
theorem isDescriptorOf_of_decodeFields {f : Fields} {i : Instr} (h : decodeFields f = .ok i) :
    ∃ op, IsDescriptorOf op f ∧ i = commandOf op f.dev f.reg f.a f.b f.c := by
  rcases decodeFields_cases f with ⟨op, hop, hok⟩ | herr
  · exact ⟨op, hop, Except.ok.inj (h.symm.trans hok)⟩
  · rw [herr] at h
    cases h

/-- Six fields decode to a row's command exactly when they are its descriptor. -/
theorem decodeFields_eq_commandOf_iff (op : Opcode) (f : Fields) :
    decodeFields f = .ok (commandOf op f.dev f.reg f.a f.b f.c) ↔ IsDescriptorOf op f := by
  refine ⟨fun h => ?_, decodeFields_of_isDescriptorOf⟩
  obtain ⟨op', hop', heq⟩ := isDescriptorOf_of_decodeFields h
  have hsame := congrArg Instr.opcode? heq
  rw [commandOf_opcode?, commandOf_opcode?] at hsame
  cases hsame
  exact hop'

/-- Six fields are illegal exactly when they are the descriptor of no command (30_encoding.md R89). -/
theorem decodeFields_eq_error_iff (f : Fields) :
    decodeFields f = .error .illegalDescriptor ↔ ∀ op, ¬ IsDescriptorOf op f := by
  constructor
  · intro herr op hop
    rw [decodeFields_of_isDescriptorOf hop] at herr
    cases herr
  · intro hnone
    exact (decodeFields_cases f).resolve_left fun ⟨op, hop, _⟩ => hnone op hop

/-- The word of a command is its descriptor. -/
theorem encode_commandOf {op : Opcode} {f : Fields} (h : IsDescriptorOf op f) :
    encode (commandOf op f.dev f.reg f.a f.b f.c) = .cmd48 (descriptorOf f) := by
  obtain ⟨o, dev, reg, a, b, c⟩ := f
  obtain ⟨hop, hzero⟩ := h
  cases op <;> simp_all [UnusedZero, commandOf, encode]

/-- The descriptor of a command decodes to the command. -/
theorem decode_encode_commandOf {op : Opcode} {f : Fields} (h : IsDescriptorOf op f) :
    decode (encode (commandOf op f.dev f.reg f.a f.b f.c)) = .ok (commandOf op f.dev f.reg f.a f.b f.c) := by
  rw [encode_commandOf h, decode, decodeDescriptor, fieldsOf_descriptorOf]
  exact decodeFields_of_isDescriptorOf h

/-- The request of write-byte carries its byte (30_encoding.md R90). -/
theorem decodeRequest_sendByte (b : Byte) : decodeRequest (requestOf 3 b) = .ok (.sendByte b) := by
  obtain ⟨hsel, hdata⟩ := requestOf_parts 3 b
  simp only [decodeRequest, hsel, hdata, if_true]

/-- A request that decodes is the word of what it decodes to. -/
theorem encode_of_decodeRequest {r : BitVec 11} {i : Instr} (h : decodeRequest r = .ok i) : encode i = .prim11 r := by
  rw [← requestOf_of_parts r]
  simp only [decodeRequest] at h
  split_ifs at h with h3 hdata h0 h1 h2 h4 h5 h6
  case pos =>
    cases h
    rw [h3, encode]
  all_goals
    rw [not_not.mp hdata]
    cases h
    simp only [encode, *]

/-- The requests `BP` has no meaning for: `SEL = 7`, or data where `SEL` takes none (30_encoding.md R90). -/
theorem decodeRequest_eq_error_iff (r : BitVec 11) : decodeRequest r = .error .illegalPrimitive ↔
    (r.extractLsb' 8 3 = 7 ∨ (r.extractLsb' 8 3 ≠ 3 ∧ r.extractLsb' 0 8 ≠ 0)) := by
  have hsel : ∀ sel : BitVec 3, sel ≠ 3 → sel ≠ 0 → sel ≠ 1 → sel ≠ 2 → sel ≠ 4 → sel ≠ 5 → sel ≠ 6 → sel = 7 := by
    bv_omega
  simp only [decodeRequest]
  generalize r.extractLsb' 8 3 = sel
  generalize r.extractLsb' 0 8 = data
  split_ifs with h3 hdata h0 h1 h2 h4 h5 h6
  · simp [h3]
  · exact iff_of_true rfl (.inr ⟨h3, hdata⟩)
  · simp [h0, not_not.mp hdata]
  · simp [h1, not_not.mp hdata]
  · simp [h2, not_not.mp hdata]
  · simp [h4, not_not.mp hdata]
  · simp [h5, not_not.mp hdata]
  · simp [h6, not_not.mp hdata]
  · exact iff_of_true rfl (.inl (hsel sel h3 h0 h1 h2 h4 h5 h6))

/-- Settles O2: a command is decoded from the fields of its descriptor, a primitive from its `SEL` and `DATA`. -/
theorem decodeInvertsEncode : Obligations.DecodeInvertsEncode := by
  intro i
  cases i with
  | readBytes dev reg len =>
    exact decode_encode_commandOf (op := .readBytes) (f := ⟨_, dev, reg, len, 0, 0⟩) ⟨rfl, rfl, rfl⟩
  | writeBytes dev reg len =>
    exact decode_encode_commandOf (op := .writeBytes) (f := ⟨_, dev, reg, len, 0, 0⟩) ⟨rfl, rfl, rfl⟩
  | readByte dev reg =>
    exact decode_encode_commandOf (op := .readByte) (f := ⟨_, dev, reg, 0, 0, 0⟩) ⟨rfl, rfl, rfl, rfl⟩
  | writeByte dev reg value =>
    exact decode_encode_commandOf (op := .writeByte) (f := ⟨_, dev, reg, 0, 0, value⟩) ⟨rfl, rfl, rfl⟩
  | readBit dev reg bitpos =>
    exact decode_encode_commandOf (op := .readBit) (f := ⟨_, dev, reg, bitpos, 0, 0⟩) ⟨rfl, rfl, rfl⟩
  | readBits dev reg bitstart flen =>
    exact decode_encode_commandOf (op := .readBits) (f := ⟨_, dev, reg, bitstart, flen, 0⟩) ⟨rfl, rfl⟩
  | writeBit dev reg bitpos value =>
    exact decode_encode_commandOf (op := .writeBit) (f := ⟨_, dev, reg, bitpos, 0, value⟩) ⟨rfl, rfl⟩
  | writeBits dev reg bitstart flen value =>
    exact decode_encode_commandOf (op := .writeBits) (f := ⟨_, dev, reg, bitstart, flen, value⟩) ⟨rfl, trivial⟩
  | sendByte b => exact decodeRequest_sendByte b
  | openBus | restartBus | closeBus | receiveByte | ack | notAck => rfl

/-- Settles O3: a word is its fields put together, and what it decodes to has exactly those fields. -/
theorem encodeInvertsDecode : Obligations.EncodeInvertsDecode := by
  intro w i h
  cases w with
  | cmd48 d =>
    obtain ⟨op, hop, rfl⟩ := isDescriptorOf_of_decodeFields (f := fieldsOf d) h
    rw [encode_commandOf hop, descriptorOf_fieldsOf]
  | prim11 r => exact encode_of_decodeRequest h

/-- The `mask` column of the opcode map by field: `OP`, and every field the command does not use. -/
def maskFields (op : Opcode) : Fields :=
  match op with
  | .readBytes | .writeBytes | .readBit => ⟨0xFF, 0, 0, 0, 0xFF, 0xFF⟩
  | .readByte => ⟨0xFF, 0, 0, 0xFF, 0xFF, 0xFF⟩
  | .writeByte => ⟨0xFF, 0, 0, 0xFF, 0xFF, 0⟩
  | .readBits => ⟨0xFF, 0, 0, 0, 0, 0xFF⟩
  | .writeBit => ⟨0xFF, 0, 0, 0, 0xFF, 0⟩
  | .writeBits => ⟨0xFF, 0, 0, 0, 0, 0⟩

/-- The two columns of the opcode map, field by field. -/
theorem cmdRows_fields : ∀ row ∈ cmdRows,
    fieldsOf row.pattern = ⟨row.opcode.code, 0, 0, 0, 0, 0⟩ ∧ fieldsOf row.mask = maskFields row.opcode := by
  decide

/-- Under the mask of a command, its descriptors have its number and nothing else. -/
theorem masked_eq_pattern_iff (op : Opcode) (f : Fields) :
    (⟨f.op &&& (maskFields op).op, f.dev &&& (maskFields op).dev, f.reg &&& (maskFields op).reg,
      f.a &&& (maskFields op).a, f.b &&& (maskFields op).b, f.c &&& (maskFields op).c⟩ : Fields) =
        ⟨op.code, 0, 0, 0, 0, 0⟩ ↔ IsDescriptorOf op f := by
  have hones : ∀ v : Byte, v &&& 0xFF = v := fun _ => BitVec.and_allOnes
  have hzero : ∀ v : Byte, v &&& 0 = 0 := fun _ => BitVec.and_zero
  cases op <;> simp only [maskFields, hones, hzero, Fields.mk.injEq, IsDescriptorOf, UnusedZero, true_and, and_true]

/-- A row of the opcode map selects the descriptors of its command. -/
theorem selects_iff_isDescriptorOf {row : CmdRow} (h : row ∈ cmdRows) (d : BitVec 48) :
    row.selects d = true ↔ IsDescriptorOf row.opcode (fieldsOf d) := by
  obtain ⟨hpattern, hmask⟩ := cmdRows_fields row h
  rw [CmdRow.selects, beq_iff_eq, descriptor_ext_iff, fieldsOf_and, hpattern, hmask]
  exact masked_eq_pattern_iff row.opcode (fieldsOf d)

/-- Every command has a row. -/
theorem exists_cmdRow (op : Opcode) : ∃ row ∈ cmdRows, row.opcode = op := by
  cases op <;> decide

/-- Settles O4: a row selects the descriptors of its command, and those are what decodes to it. -/
theorem descriptorDecodesByMatchAndMask : Obligations.DescriptorDecodesByMatchAndMask := by
  intro d row hrow
  rw [selects_iff_isDescriptorOf hrow]
  exact (decodeFields_eq_commandOf_iff row.opcode (fieldsOf d)).symm

/-- A descriptor that no row selects is the descriptor of no command. -/
theorem unselected_iff (d : BitVec 48) :
    (∀ row ∈ cmdRows, row.selects d = false) ↔ ∀ op, ¬ IsDescriptorOf op (fieldsOf d) := by
  constructor
  · intro h op hop
    obtain ⟨row, hrow, rfl⟩ := exists_cmdRow op
    exact Bool.eq_false_iff.mp (h row hrow) ((selects_iff_isDescriptorOf hrow d).mpr hop)
  · intro h row hrow
    exact Bool.eq_false_iff.mpr fun hsel => h row.opcode ((selects_iff_isDescriptorOf hrow d).mp hsel)

/-- A word that is no instruction is refused (30_encoding.md R89, R90). -/
theorem runWord_of_error {w : Word} {e : DecodeError} (h : decode w = .error e) (s : State) :
    runWord w s = .refused (refusalOf e) := by
  simp only [runWord, h]

/-- Settles O5: the rows select the descriptors of the commands, and only those decode. -/
theorem unmatchedDescriptorIsRefused : Obligations.UnmatchedDescriptorIsRefused := by
  intro d
  have hillegal : (∀ row ∈ cmdRows, row.selects d = false) ↔ decode (.cmd48 d) = .error .illegalDescriptor :=
    (unselected_iff d).trans (decodeFields_eq_error_iff (fieldsOf d)).symm
  refine ⟨hillegal, fun s b rest hr hp hq hnone => ?_⟩
  rw [step_idle_cons hr hp hq]
  exact runWord_of_error (hillegal.mp hnone) _

/-- Settles O6. -/
theorem illegalRequestIsRefused : Obligations.IllegalRequestIsRefused := by
  intro r
  refine ⟨decodeRequest_eq_error_iff r, fun s rest hr hp hq herr => ?_⟩
  rw [step_idle_cons hr hp hq]
  exact runWord_of_error herr _

/-- Settles O1. -/
theorem sampleWordsDecode : Obligations.SampleWordsDecode := by
  unfold Obligations.SampleWordsDecode
  decide

/-- `HOST`'s buffer is lengthened to what the word's instruction needs. -/
theorem suitBuffer_of_decode {w : Word} {i : Instr} (h : decode w = .ok i) (buf : List Byte) :
    suitBuffer w buf = buf ++ List.replicate (bufferNeed i - buf.length) 0 := by
  cases i <;> simp [suitBuffer, h, bufferNeed]

/-- A word presented to an idle machine is what its next step runs. -/
theorem step_present {s : State} (hr : s.run = false) (hp : s.pending = none) (w : Word) :
    step (present w s) = runWord w { s with buf := suitBuffer w s.buf } := by
  rw [step_idle_cons (s := present w s) hr hp rfl]
  cases w <;> rfl

/-- A word of the opcode table that decodes to an instruction is presented by `withFetchWord`. -/
theorem withFetchWord_of_decodeTableWord {nbits w : Nat} {i : Instr} (h : decodeTableWord nbits w = some i) :
    ∃ word, decode word = .ok i ∧ ∀ s : State, s.withFetchWord nbits w = present word s := by
  cases hw : tableWord nbits w with
  | none => simp [decodeTableWord, hw] at h
  | some word =>
    refine ⟨word, ?_, fun s => by simp only [State.withFetchWord, hw]⟩
    cases hd : decode word with
    | error e => simp [decodeTableWord, hw, hd, Except.toOption] at h
    | ok j => simpa [decodeTableWord, hw, hd, Except.toOption] using h

/-- Settles O8: `withFetchWord` puts the word in front of the queue, with a buffer that suits its instruction. -/
theorem fetchWordIsRunByTheNextStep : Obligations.FetchWordIsRunByTheNextStep := by
  intro s nbits w i hr hp h
  obtain ⟨word, hdecode, hpresent⟩ := withFetchWord_of_decodeTableWord h
  rw [hpresent, step_present hr hp, runWord_of_decode hdecode, suitBuffer_of_decode hdecode]

end Sys2Proof.Machine

/-! ### The byte and burst commands, completed or hung (41_byte_transfers.md R130 to R141) -/
namespace Sys2Proof.Machine

/-- `OWNED` after a whole step table: the last row closed the bus. -/
theorem ownedAfterRows_planOf {i : Instr} (h : i.opcode?.isSome = true) : ownedAfterRows (planOf i) = false := by
  obtain ⟨r, hlast, hcloses⟩ := planOf_last_closes i h
  obtain ⟨rows, hrows⟩ := List.getLast?_eq_some_iff.mp hlast
  rw [hrows, ownedAfterRows_snoc, hcloses]
  rfl

/-- The step table of a command has `NPRIM` rows. -/
theorem planOf_length {i : Instr} (h : i.opcode?.isSome = true) : (planOf i).length = nprimOf i := by
  obtain ⟨op, hop⟩ := Option.isSome_iff_exists.mp h
  rw [planOf, nprimOf, hop]
  exact plan_length op (burstLength i)

/-- A ready command completes when `ENV` completes each of its `NPRIM` primitives, and hangs when it does not
(60_exceptions.md R173, 41_byte_transfers.md R141). -/
theorem exec_completedFrom_or_hung {i : Instr} {s : State} (h : i.opcode?.isSome = true) (hs : Ready i s) :
    ∃ t, exec i s = .next t ∧ (s.env.CompletesFor (nprimOf i) → CompletedFrom i s t) ∧
      (¬ s.env.CompletesFor (nprimOf i) → Hung t) := by
  obtain ⟨op, -, hx, hR⟩ := exec_of_ready i s h hs
  have hlen := planOf_length h
  obtain ⟨t, ht, ⟨hc, u, hu, rfl, hpend, hran, -⟩ | ⟨j, hj, hhang, -, hpend, hran⟩⟩ :=
    runRows_spec (nprimOf i) hR (by rw [hlen, Nat.zero_add])
  · have howned : u.owned = false := by
      rw [hu.owned, Nat.zero_add, ← hlen, List.take_length]
      exact ownedAfterRows_planOf h
    exact ⟨_, hx.trans ht, fun _ => ⟨⟨Quiet.finish u, howned, hpend⟩, hran.program, hran.moves, hran.draws⟩,
      fun hn => absurd hc hn⟩
  · exact ⟨t, hx.trans ht, fun hc => absurd hc (Env.not_completesFor_of_hangsAt hhang hj),
      fun _ => ⟨hran.run, hpend⟩⟩

/-- What is to be shown of a ready command that completes or hangs: where it ends when `ENV` completes it. -/
theorem exec_completes_with {i : Instr} {s : State} {P : State → Prop} (h : i.opcode?.isSome = true) (hs : Ready i s)
    (hdone : s.env.CompletesFor (nprimOf i) → ∃ t, exec i s = .next t ∧ P t) :
    ∃ t, exec i s = .next t ∧ (s.env.CompletesFor (nprimOf i) → CompletedFrom i s t ∧ P t) ∧
      (¬ s.env.CompletesFor (nprimOf i) → Hung t) := by
  obtain ⟨t, hx, hcompleted, hhung⟩ := exec_completedFrom_or_hung h hs
  refine ⟨t, hx, fun hc => ⟨hcompleted hc, ?_⟩, hhung⟩
  obtain ⟨u, hu, hPu⟩ := hdone hc
  cases hx.symm.trans hu
  exact hPu

/-- `ENV` that completes the eight primitives of a one-byte read frame reads a byte. -/
theorem Env.ReadsByte.exist {e : Env} (d g : Byte) (h : e.CompletesFor 8) :
    ∃ sa sr sd b e', e.ReadsByte d g sa sr sd b e' := by
  obtain ⟨as, e', hans⟩ := Env.Answers.exist (readCommandPrims d g) h
  obtain ⟨sa, sr, sd, b, hr, -⟩ := hans.readsByte
  exact ⟨sa, sr, sd, b, e', hr⟩

/-- `ENV` that completes the five primitives of a one-byte write frame writes a byte. -/
theorem Env.WritesByte.exist {e : Env} (d g v : Byte) (h : e.CompletesFor 5) :
    ∃ sa sr sv e', e.WritesByte d g v sa sr sv e' := by
  obtain ⟨as, e', hans⟩ := Env.Answers.exist (writeFramePrims d g v) h
  obtain ⟨sa, sr, sv, hw⟩ := hans.writesByte
  exact ⟨sa, sr, sv, e', hw⟩

/-- `ENV` that completes the primitives of a read frame of `n` bytes reads a burst of `n` bytes. -/
theorem Env.ReadsBurst.exist {e : Env} (d g : Byte) (n : Nat) (h : e.CompletesFor (2 * n + 6)) :
    ∃ sa sr sd as e', e.ReadsBurst d g n sa sr sd as e' ∧ (receivedBytes as).length = n := by
  have hlen : (readPhasePrims d g ++ (readLoopPrims n ++ [Prim.closeBus])).length = 2 * n + 6 := by
    simp only [List.length_append, readLoopPrims_length, readPhasePrims, openPrims, List.length_cons, List.length_nil]
    omega
  obtain ⟨as, e', hans⟩ := Env.Answers.exist _ (hlen ▸ h)
  obtain ⟨as1, as', e1, rfl, hphase, hans⟩ := Env.Answers.append_inv hans
  obtain ⟨as2, as3, e2, rfl, hloop, hclose⟩ := Env.Answers.append_inv hans
  have hbytes := receivedBytes_length n as2 (hloop.moves.2.2.trans (readLoopPrims_length n))
  match as1, hphase.moves.2.2 with
  | [a0, a1, a2, a3, a4], _ =>
    cases hclose with | cons hclose hnil =>
    cases hnil
    exact ⟨_, _, _, as2, e', ⟨a0, a1, a2, a3, a4, _, e1, e2, hphase, hloop, hclose, rfl, rfl, rfl⟩, hbytes⟩

/-- `ENV` that completes the primitives of a write frame of the bytes `vs` writes that burst. -/
theorem Env.WritesBurst.exist {e : Env} (d g : Byte) (vs : List Byte) (h : e.CompletesFor (vs.length + 4)) :
    ∃ sa sr as e', e.WritesBurst d g vs sa sr as e' ∧ as.length = vs.length := by
  have hlen : (openPrims d g ++ (vs.map Prim.writeByte ++ [Prim.closeBus])).length = vs.length + 4 := by
    simp only [List.length_append, List.length_map, openPrims, List.length_cons, List.length_nil]
    omega
  obtain ⟨as, e', hans⟩ := Env.Answers.exist _ (hlen ▸ h)
  obtain ⟨as1, as', e1, rfl, hopen, hans⟩ := Env.Answers.append_inv hans
  obtain ⟨as2, as3, e2, rfl, hloop, hclose⟩ := Env.Answers.append_inv hans
  have hbytes : as2.length = vs.length := hloop.moves.2.2.trans (List.length_map _)
  match as1, hopen.moves.2.2 with
  | [a0, a1, a2], _ =>
    cases hclose with | cons hclose hnil =>
    cases hnil
    exact ⟨_, _, as2, e', ⟨a0, a1, a2, _, e1, e2, hopen, hloop, hclose, rfl, rfl⟩, hbytes⟩

/-- Settles O21: from where ReadBytes ends when `ENV` completes it: the bytes received fill the buffer. -/
theorem readBytesFillsTheBuffer : Obligations.ReadBytesFillsTheBuffer := by
  intro d g n s hs
  refine exec_completes_with rfl hs fun hc => ?_
  obtain ⟨sa, sr, sd, as, e, hr, hlen⟩ := Env.ReadsBurst.exist d g n.toNat hc
  exact ⟨_, exec_readBytes hs hr, rfl, sa, sr, sd, receivedBytes as, hlen, rfl, rfl⟩

/-- Settles O24: from where WriteBytes ends when `ENV` completes it, whatever the statuses. -/
theorem writeBytesSendsTheBuffer : Obligations.WriteBytesSendsTheBuffer := by
  intro d g n s hs
  refine exec_completes_with rfl hs fun hc => ?_
  have hlen : (s.buf.take n.toNat).length = n.toNat := List.length_take_of_le hs.2.2
  obtain ⟨sa, sr, as, e, hw, has⟩ := Env.WritesBurst.exist d g (s.buf.take n.toNat) (by rw [hlen]; exact hc)
  exact ⟨_, exec_writeBytes hs hw, rfl, rfl, sa, sr, as.map Answer.status,
    (List.length_map _).trans (has.trans hlen), rfl⟩

/-- Settles O25: from where ReadByte ends when `ENV` completes it. -/
theorem readByteReturnsTheByteReceived : Obligations.ReadByteReturnsTheByteReceived := by
  intro d g s hs
  refine exec_completes_with rfl hs fun hc => ?_
  obtain ⟨sa, sr, sd, b, e, hr⟩ := Env.ReadsByte.exist d g hc
  exact ⟨_, exec_readByte hs.1 hs.2.1 hr, rfl, sa, sr, sd, b, rfl, rfl⟩

/-- Settles O26: from where WriteByte ends when `ENV` completes it. -/
theorem writeByteSendsTheValue : Obligations.WriteByteSendsTheValue := by
  intro d g v s hs
  refine exec_completes_with rfl hs fun hc => ?_
  obtain ⟨sa, sr, sv, e, hw⟩ := Env.WritesByte.exist d g v hc
  exact ⟨_, exec_writeByte hs.1 hs.2.1 hw, rfl, rfl, sa, sr, sv, rfl⟩

/-! ### The commands by one another (30_encoding.md R95) -/

/-- A reading of one byte is a burst of one that receives it. -/
theorem Env.ReadsByte.readsBurst {e e' : Env} {d g b : Byte} {sa sr sd : Status} (h : e.ReadsByte d g sa sr sd b e') :
    ∃ as, e.ReadsBurst d g 1 sa sr sd as e' ∧ receivedBytes as = [b] := by
  obtain ⟨a0, a1, a2, a3, a4, a5, a6, a7, em, hread, hclose, rfl, rfl, rfl, rfl⟩ := h
  obtain ⟨as1, as2, e1, has, hphase, hloop⟩ :=
    Env.Answers.append_inv (ps := readPhasePrims d g) (qs := readLoopPrims 1) hread
  obtain ⟨rfl, rfl⟩ := List.append_inj (s₁ := [a0, a1, a2, a3, a4]) (t₁ := [a5, a6]) has hphase.moves.2.2.symm
  exact ⟨[a5, a6], ⟨a0, a1, a2, a3, a4, a7, e1, em, hphase, hloop, hclose, rfl, rfl, rfl⟩, rfl⟩

/-- A writing of one byte is a burst of one that sends it. -/
theorem Env.WritesByte.writesBurst {e e' : Env} {d g v : Byte} {sa sr sv : Status}
    (h : e.WritesByte d g v sa sr sv e') : ∃ a, e.WritesBurst d g [v] sa sr [a] e' ∧ a.status = sv := by
  obtain ⟨a0, a1, a2, a3, a4, hans, rfl, rfl, rfl⟩ := h
  cases hans with | cons h0 hans =>
  cases hans with | cons h1 hans =>
  cases hans with | cons h2 hans =>
  cases hans with | cons h3 hans =>
  cases hans with | cons h4 hans =>
  cases hans
  exact ⟨a3, ⟨a0, a1, a2, a4, _, _, .cons h0 (.cons h1 (.cons h2 (.nil _))), .cons h3 (.nil _), h4, rfl, rfl⟩, rfl⟩

/-- Settles O39: the frame of one byte is a burst of one, answered by the same `ENV`. -/
theorem byteCommandsAreBurstsOfOne : Obligations.ByteCommandsAreBurstsOfOne := by
  intro d g v b0 s hs hdev
  refine ⟨fun hc => ?_, fun hc => ?_⟩
  · obtain ⟨sa, sr, sd, b, e, hr⟩ := Env.ReadsByte.exist d g hc
    obtain ⟨as, hburst, hb⟩ := hr.readsBurst
    have hrun := exec_readBytes (n := 1) (s := { s with buf := [b0] }) ⟨hs, hdev, Nat.le_refl 1⟩ hburst
    rw [hb] at hrun
    exact ⟨_, _, b, exec_readByte hs hdev hr, hrun, rfl, rfl, rfl, rfl⟩
  · obtain ⟨sa, sr, sv, e, hw⟩ := Env.WritesByte.exist d g v hc
    obtain ⟨a, hburst, rfl⟩ := hw.writesBurst
    exact ⟨_, exec_writeBytes (n := 1) (s := { s with buf := [v] }) ⟨hs, hdev, Nat.le_refl 1⟩ hburst,
      exec_writeByte hs hdev hw⟩

/-- ReadBit is the read frame of ReadByte and hands back the masked byte (42_bit_access.md R150). -/
theorem exec_readBit {d g p b : Byte} {sa sr sd : Status} {s : State} {e : Env} (hs : BootOk s) (hdev : devOk d = true)
    (hpos : bitposOk p = true) (hr : s.env.ReadsByte d g sa sr sd b e) :
    exec (.readBit d g p) s =
      .next (afterCommand s (readFrame d g sa sr sd [b]) (.byte (readBitValue b p)) e) := by
  have hwf : WellFormed (.readBit d g p) := by simp [WellFormed, Instr.wellFormed, hdev, hpos]
  obtain ⟨op, hop, hx, -⟩ := exec_of_ready (.readBit d g p) s rfl ⟨hs, hwf, Nat.zero_le _⟩
  cases hop
  exact hx.trans (runRows_readCommand hs rfl rfl hr fun t hop hl => by simp [resultByte, hop, hl, instrLatches])

/-- ReadBits is the read frame of ReadByte and hands back the field of the byte (42_bit_access.md R151). -/
theorem exec_readBits {d g p n b : Byte} {sa sr sd : Status} {s : State} {e : Env} (hs : BootOk s)
    (hdev : devOk d = true) (hfield : fieldOk p n = true) (hr : s.env.ReadsByte d g sa sr sd b e) :
    exec (.readBits d g p n) s =
      .next (afterCommand s (readFrame d g sa sr sd [b]) (.byte (readBitsValue b p n)) e) := by
  have hwf : WellFormed (.readBits d g p n) := by simp [WellFormed, Instr.wellFormed, hdev, hfield]
  obtain ⟨op, hop, hx, -⟩ := exec_of_ready (.readBits d g p n) s rfl ⟨hs, hwf, Nat.zero_le _⟩
  cases hop
  exact hx.trans (runRows_readCommand hs rfl rfl hr fun t hop hl => by simp [resultByte, hop, hl, instrLatches])

/-- The loop of ReadBits masks what `FIELDMASK` masks (42_bit_access.md R151, R154). -/
theorem maskedBits_eq_and_fieldMask {b n : Byte} (h : fieldOk b n = true) (t : Byte) :
    maskedBits t b.toNat n.toNat = t &&& fieldMask b n := by
  obtain ⟨hb, -, -, hn⟩ := fieldOk_bounds h
  refine BitVec.eq_of_getLsbD_eq fun k _ => ?_
  rw [maskedBits_getLsbD t b.toNat hb n.toNat hn, BitVec.getLsbD_and, fieldMask_getLsbD h]

/-- Settles O40: all three commands run one read frame, and differ in what they compute from its byte. -/
theorem bitReadsAreReadByteThenMask : Obligations.BitReadsAreReadByteThenMask := by
  intro d g p q n s hs hdev hc
  obtain ⟨sa, sr, sd, b, e, hr⟩ := Env.ReadsByte.exist d g hc
  refine ⟨_, b, exec_readByte hs hdev hr, rfl, fun hpos => exec_readBit hs hdev hpos hr, fun hfield => ?_⟩
  rw [exec_readBits hs hdev hfield hr, readBitsValue, maskedBits_eq_and_fieldMask hfield]
  rfl

/-- Settles O43: loop and mask agree bit by bit, and the bounds are those of a legal field. -/
theorem maskingLoopIsTheFieldMask : Obligations.MaskingLoopIsTheFieldMask := by
  refine ⟨fun t b n h => ⟨maskedBits_eq_and_fieldMask h t, ?_⟩, fun p hpos => ?_⟩
  · have hbounds := fieldOk_bounds h
    rw [lowBit]
    exact ⟨by omega, by omega, by omega, fun k _ hk => by omega⟩
  · simpa [bitposOk] using hpos

end Sys2Proof.Machine

/-! ### The bus primitives and their events (40_bus_primitives.md R110 to R118) -/
namespace Sys2Proof.Machine

/-- A primitive that is illegal for `OWNED` is refused (40_bus_primitives.md R120). -/
theorem perform_illegal {p : Prim} {s : State} (hp : s.pending = none) (hl : legalWhen s.owned p = false) :
    perform p s = .refused .primitiveOutOfTransaction := by
  simp [perform, bpRequest, hp, hl]

/-- Both outcomes of a legal primitive: it completes with the answer of `ENV`, or it stays pending and nothing else
changes. -/
theorem perform_legal {p : Prim} {s : State} (hp : s.pending = none) (hl : legalWhen s.owned p = true) :
    (∀ a e, s.env.answer p = some (a, e) →
      perform p s = .next { s with
        owned := ownedAfter s.owned p, trace := s.trace ++ [eventOf p a], returned := responseOf p a, env := e }) ∧
    (s.env.next.completes = false → perform p s = .next { s with pending := some p }) := by
  refine ⟨fun a e ha => ?_, fun hc => perform_hangs hp hl (Env.answer_eq_none.mpr hc)⟩
  rw [perform_completes hp hl ha, afterPrim, ← hp]

/-- The event of a completed primitive is the primitive's own. -/
@[simp] theorem eventOf_request (p : Prim) (a : Answer) : (eventOf p a).request = p := by
  cases p <;> rfl

/-- Every command begins with the open-bus of its first frame. -/
theorem planOf_head_openBus {i : Instr} (h : i.opcode?.isSome = true) : (planOf i).head? = some .openBus := by
  cases i with
  | readBytes | writeBytes | readByte | writeByte | readBit | readBits | writeBit | writeBits => rfl
  | openBus | restartBus | closeBus | sendByte _ | receiveByte | ack | notAck => cases h

/-- The rows that close a frame issue close-bus. -/
theorem rowPrim_of_closes {r : Row} (h : r.closes = true) (s : State) : rowPrim s r = .next .closeBus := by
  cases r with
  | closeBus | closeResult | closeModify => rfl
  | openBus | restartBus | send _ | receiveBuffer _ | receiveTmp | ack _ | notAck _ => cases h

/-- The row before an open-bus closes a frame: the bus is free there, and only a close frees it. -/
theorem planOf_closes_before_openBus {i : Instr} {k : Nat} (h : (planOf i)[k + 1]? = some .openBus) :
    ∃ r, (planOf i)[k]? = some r ∧ r.closes = true := by
  have hk : k < (planOf i).length := Nat.lt_of_succ_lt (succ_le_length_of_get h)
  have hr : (planOf i)[k]? = some (planOf i)[k] := List.getElem?_eq_getElem hk
  refine ⟨_, hr, ?_⟩
  have hfree : ownedAfterRows ((planOf i).take (k + 1)) = false := (planOf_rowOk i (k + 1) _ h).owned
  rw [take_succ_of_get _ _ _ hr, ownedAfterRows_snoc] at hfree
  simpa using hfree

/-- Settles O12. -/
theorem openBusTakesTheBus : Obligations.OpenBusTakesTheBus :=
  ⟨rfl, fun _ hp ho => perform_legal (p := .openBus) hp (congrArg not ho),
    fun _ hp ho => perform_illegal (p := .openBus) hp (congrArg not ho), fun _ => planOf_head_openBus⟩

/-- Settles O13. -/
theorem restartBusKeepsTheBus : Obligations.RestartBusKeepsTheBus :=
  ⟨rfl, fun _ hp ho => perform_legal (p := .restartBus) hp ho, fun _ hp ho => perform_illegal (p := .restartBus) hp ho⟩

/-- Settles O14: the last row of a command and the row before a second open-bus close a frame. -/
theorem closeBusReleasesTheBus : Obligations.CloseBusReleasesTheBus := by
  refine ⟨rfl, fun _ hp ho => perform_legal (p := .closeBus) hp ho,
    fun _ hp ho => perform_illegal (p := .closeBus) hp ho, fun i hi => ?_, fun i k h => ?_⟩
  · obtain ⟨r, hlast, hcloses⟩ := planOf_last_closes i hi
    exact ⟨r, hlast, rowPrim_of_closes hcloses⟩
  · obtain ⟨r, hr, hcloses⟩ := planOf_closes_before_openBus h
    exact ⟨r, hr, rowPrim_of_closes hcloses⟩

/-- Settles O15: an `ENV` whose next move fixes the status answers it. -/
theorem writeBytePrimitiveReturnsStatus : Obligations.WriteBytePrimitiveReturnsStatus :=
  ⟨fun _ => rfl, fun b _ hp ho => perform_legal (p := .writeByte b) hp ho,
    fun b _ hp ho => perform_illegal (p := .writeByte b) hp ho,
    fun _ st => ⟨{ moves := [{ status := some st }] }, _, _, rfl, rfl⟩⟩

/-- Settles O16: an `ENV` whose next move fixes the byte answers it. -/
theorem readBytePrimitiveReturnsByte : Obligations.ReadBytePrimitiveReturnsByte :=
  ⟨rfl, fun _ hp ho => perform_legal (p := .readByte) hp ho, fun _ hp ho => perform_illegal (p := .readByte) hp ho,
    fun b => ⟨{ moves := [{ byte := some b }] }, _, _, rfl, rfl⟩⟩

/-- Settles O17. -/
theorem masterAcknowledgeAppendsItsEvent : Obligations.MasterAcknowledgeAppendsItsEvent := by
  refine ⟨rfl, rfl, fun s hp ho => ?_, fun s hp ho => ⟨perform_illegal hp ho, perform_illegal hp ho⟩⟩
  obtain ⟨hack, hackPending⟩ := perform_legal (p := .ack) hp ho
  obtain ⟨hnack, hnackPending⟩ := perform_legal (p := .notAck) hp ho
  exact ⟨hack, hnack, fun hc => ⟨hackPending hc, hnackPending hc⟩⟩

/-! ### The events of a step table, one by one (40_bus_primitives.md R118) -/

/-- The event `e` is the one of the primitive that the row `r` issues in a state with the property `P`. -/
def IssuedIn (P : State → Prop) (r : Row) (e : Event) : Prop := ∃ u, P u ∧ rowPrim u r = .next e.request

/-- A row that hangs appends nothing, and one that completes appends the event of the primitive it issued. -/
theorem doRow_trace {r : Row} {s t : State} (hp : s.pending = none) (h : doRow r s = .next t) :
    (t.pending.isSome = true ∧ t.trace = s.trace) ∨
    (t.pending = none ∧ ∃ e : Event, rowPrim s r = .next e.request ∧ t.trace = s.trace ++ [e]) := by
  obtain ⟨p, hrow, -, ⟨-, rfl⟩ | ⟨a, e, s3, -, hd, rfl⟩⟩ := doRow_cases hp h
  · exact .inl ⟨rfl, rfl⟩
  · obtain ⟨-, -, -, -, -, -, hpending, htrace, -⟩ := deliver_frame hd
    exact .inr ⟨hpending, eventOf p a, by rw [hrow, eventOf_request], htrace⟩

/-- The rows of a step table append their events in order, each issued in a state that has what every row keeps. -/
theorem runRows_trace {P : State → Prop} {rs : List Row}
    (row : ∀ r ∈ rs, ∀ s t, P s → doRow r s = .next t → P t) {s t : State} (hs : P s) (hp : s.pending = none)
    (h : runRows rs s = .next t) :
    ∃ es, t.trace = s.trace ++ es ∧ List.Forall₂ (IssuedIn P) (rs.take es.length) es := by
  induction rs generalizing s with
  | nil =>
    cases h
    exact ⟨[], (List.append_nil _).symm, .nil⟩
  | cons r rs ih =>
    obtain ⟨u, hu, hrest⟩ := andThen_eq_next.mp h
    rcases doRow_trace hp hu with ⟨hpu, htrace⟩ | ⟨hpu, e, hrow, htrace⟩
    · rw [if_pos hpu] at hrest
      cases hrest
      exact ⟨[], htrace.trans (List.append_nil _).symm, .nil⟩
    · have hkept : P u := row r (by simp) s u hs hu
      obtain ⟨es, hes, hissued⟩ := ih (fun r' hr' => row r' (by simp [hr'])) hkept hpu (runRows_rest hpu hrest)
      exact ⟨e :: es, by rw [hes, htrace, List.append_assoc]; rfl, .cons ⟨s, hs, hrow⟩ hissued⟩

/-- A state on the way of command `i` from `s`: the latches are loaded, and the buffer is as `i` found it but for the
elements it receives into. -/
def OnTheWay (i : Instr) (s u : State) : Prop := u.latches = instrLatches i ∧ BufferKept (receivedLength i) s u

/-- A row of a command leads from a state on its way to a state on its way. -/
theorem OnTheWay.doRow {i : Instr} {r : Row} {s u v : State} (hu : OnTheWay i s u) (hr : r ∈ planOf i)
    (h : doRow r u = .next v) : OnTheWay i s v := by
  obtain ⟨hlatches, hbuf⟩ := hu
  refine ⟨?_, hbuf.trans (doRow_bufferKept ?_ h)⟩
  · obtain ⟨p, ix, ⟨-, rfl⟩ | ⟨a, e, s3, -, hd, rfl⟩⟩ := doRow_outcome h
    · exact hlatches
    · obtain ⟨-, -, hsame, -⟩ := deliver_frame hd
      exact hsame.trans hlatches
  · rintro j rfl
    obtain ⟨dev, reg, len, rfl, hj⟩ := planOf_receiveBuffer i j hr
    exact hj

/-- A command that sends from the buffer receives nothing into it. -/
theorem receivedLength_of_sendBuffer {i : Instr} {j : Nat} (h : Row.send (.buffer j) ∈ planOf i) :
    receivedLength i = 0 := by
  have hloop : ∀ n k, Row.send (.buffer j) ∉ readLoopRows k n := by
    intro n
    induction n with
    | zero => simp [readLoopRows]
    | succ n ih =>
      intro k
      have hack : Row.send (.buffer j) ≠ if n = 0 then .notAck k else .ack k := by split <;> simp
      simp [readLoopRows, ih, hack]
  refine receivedLength_eq_zero ?_
  rintro dev reg len rfl
  simp [planOf, Instr.opcode?, plan, readPhaseRows, openRows, hloop] at h

/-- The primitive of a row that does not send from the buffer does not depend on the buffer. -/
theorem rowPrim_withBuffer {r : Row} (h : ∀ j, r ≠ .send (.buffer j)) (u : State) (buf : List Byte) :
    rowPrim { u with buf := buf } r = rowPrim u r := by
  cases r with
  | send src =>
    cases src with
    | buffer j => exact absurd rfl (h j)
    | devWrite | devRead | reg | value | tmp => rfl
  | openBus | restartBus | closeBus | closeResult | closeModify | receiveBuffer _ | receiveTmp | ack _ | notAck _ => rfl

/-- On the way of a command its rows issue what they would with the buffer the command found. -/
theorem OnTheWay.rowPrim_withBuffer {i : Instr} {r : Row} {s u : State} (hu : OnTheWay i s u) (hr : r ∈ planOf i) :
    rowPrim { u with buf := s.buf } r = rowPrim u r := by
  by_cases hsend : ∃ j, r = .send (.buffer j)
  · obtain ⟨j, rfl⟩ := hsend
    obtain ⟨-, -, hdrop⟩ := hu
    rw [receivedLength_of_sendBuffer hr] at hdrop
    exact rowPrim_congr _ rfl rfl hdrop.symm
  · exact Machine.rowPrim_withBuffer (fun j hj => hsend ⟨j, hj⟩) u s.buf

/-- The events of a command are those of its rows in order: of all of them when it completes, of the rows before `SEQ`
when it hangs. -/
theorem exec_command_trace {i : Instr} {s t : State} (hi : i.opcode?.isSome = true) (h : exec i s = .next t) :
    ∃ es, t.trace = s.trace ++ es ∧
      List.Forall₂ (IssuedIn (OnTheWay i s)) ((planOf i).take es.length) es ∧
      ((t.pending = none ∧ es.length = (planOf i).length) ∨
        (t.pending.isSome = true ∧ es.length < (planOf i).length ∧ t.seq = some es.length)) := by
  have hready := ready_of_exec_next hi h
  obtain ⟨op, -, hx, hR⟩ := exec_of_ready i s hi hready
  have hrun : runRows (planOf i) (load op (instrLatches i) s) = .next t := hx.symm.trans h
  obtain ⟨⟨-, -, hp⟩, -⟩ := hready
  have hstart : OnTheWay i s (load op (instrLatches i) s) := ⟨rfl, .of_eq rfl⟩
  obtain ⟨es, hes, hissued⟩ := runRows_trace (fun r hr _ _ hu => hu.doRow hr) hstart hp hrun
  have hlength : ∀ {n : Nat}, (∃ es', es'.length = n ∧ t.trace = s.trace ++ es') → es.length = n := by
    rintro n ⟨es', rfl, hes'⟩
    rw [List.append_cancel_left (hes.symm.trans hes')]
  refine ⟨es, hes, hissued, ?_⟩
  obtain ⟨t', ht', hcase⟩ := runRows_spec (planOf i).length hR (Nat.zero_add _).symm
  cases hrun.symm.trans ht'
  rcases hcase with ⟨-, u, -, rfl, hpu, hran, -⟩ | ⟨j, hj, -, hRj, hpt, hran⟩
  · exact .inl ⟨hpu, hlength hran.trace⟩
  · have hj' : es.length = j := hlength hran.trace
    exact .inr ⟨hpt, hj' ▸ hj, by rw [hRj.seq, Nat.zero_add, hj']⟩

/-- Settles O18: a primitive by its two outcomes, a command by the events of its rows. -/
theorem oneEventPerPrimitive : Obligations.OneEventPerPrimitive := by
  refine ⟨fun i p s t hi h => ?_, fun i s t hi h => ?_⟩
  · rw [exec_of_prim hi] at h
    obtain ⟨-, -, ⟨-, rfl⟩ | ⟨a, e, -, rfl⟩⟩ := perform_cases h
    · exact ⟨(nomatch ·), fun _ => rfl⟩
    · exact ⟨fun _ => ⟨eventOf p a, eventOf_request p a, rfl⟩, (nomatch ·)⟩
  · obtain ⟨es, hes, hissued, hcount⟩ := exec_command_trace hi h
    refine ⟨es.length, es, hes, rfl, by omega, fun hp => ?_, fun hp => ?_, fun j e r he hr => ?_⟩
    · rcases hcount with ⟨-, hall⟩ | ⟨hsome, -⟩
      · exact hall
      · simp [hp] at hsome
    · rcases hcount with ⟨hnone, -⟩ | ⟨-, -, hseq⟩
      · simp [hnone] at hp
      · exact hseq
    · obtain ⟨hj, rfl⟩ := List.getElem?_eq_some_iff.mp he
      obtain ⟨hj', rfl⟩ := List.getElem?_eq_some_iff.mp hr
      obtain ⟨u, hu, hrow⟩ := hissued.get (i := j) (by rw [List.length_take]; omega) hj
      rw [List.get_eq_getElem, List.getElem_take] at hrow
      exact ⟨{ u with buf := s.buf }, hu.1, rfl, (hu.rowPrim_withBuffer (List.getElem_mem hj')).trans hrow⟩

end Sys2Proof.Machine

/-! ### The hung command (41_byte_transfers.md R141, 60_exceptions.md R173) -/
namespace Sys2Proof.Machine

/-- A legal primitive finds the bus owned unless it is the open-bus. -/
theorem legalWhen_eq_true_iff {owned : Bool} {p : Prim} : legalWhen owned p = true ↔ owned = decide (p ≠ .openBus) := by
  cases p with
  | openBus => simp [legalWhen]
  | restartBus | closeBus | writeByte | readByte | ack | notAck => simp [legalWhen]

/-- Where `ENV` hangs after `k` primitives, it does not complete the next one. -/
theorem Env.next_of_hangsAt {e e' : Env} {k : Nat} (h : e.HangsAt k) (hm : e'.moves = e.moves.drop k) :
    e'.next.completes = false := by
  obtain ⟨-, hany⟩ := h
  rw [← hm] at hany
  rw [Env.next]
  cases hmoves : e'.moves with
  | nil => simp [hmoves] at hany
  | cons m ms => simpa [hmoves] using hany

/-- A ready command whose primitive `k` never completes is at position `k` of its step table with that primitive
pending. -/
theorem exec_hangsAt {i : Instr} {s : State} {k : Nat} (hi : i.opcode?.isSome = true) (hs : Ready i s)
    (hk : k < nprimOf i) (hh : s.env.HangsAt k) :
    ∃ op t, exec i s = .next t ∧ RunningAt i k t ∧ t.pending.isSome = true ∧
      Ran (load op (instrLatches i) s) t k := by
  obtain ⟨op, -, hx, hR⟩ := exec_of_ready i s hi hs
  obtain ⟨t, ht, ⟨hc, -⟩ | ⟨j, -, hj, hRj, hpend, hran⟩⟩ :=
    runRows_spec (nprimOf i) hR (by rw [planOf_length hi, Nat.zero_add])
  · exact absurd hc (Env.not_completesFor_of_hangsAt hh hk)
  · obtain rfl : j = k := Env.hangsAt_unique hj hh
    rw [Nat.zero_add] at hRj
    exact ⟨op, t, hx.trans ht, hRj, hpend, hran⟩

/-- Settles O33: what the invariant says of the state at position `k`, and that `ENV` then has no answer. -/
theorem hungCommandStaysAtItsPrimitive : Obligations.HungCommandStaysAtItsPrimitive := by
  intro i s k hi hs hk hh
  obtain ⟨op, t, hx, hR, hpend, hran⟩ := exec_hangsAt hi hs hk hh
  obtain ⟨p, hp⟩ := Option.isSome_iff_exists.mp hpend
  obtain ⟨r, hr, hrow⟩ := hR.pending p hp
  obtain ⟨es, hes, htrace⟩ := hran.trace
  obtain ⟨p', hrow', hlegal, -⟩ := hR.rowPrim_legal hr
  cases hrow.symm.trans hrow'
  exact ⟨t, r, p, hx, hr, hrow, hran.run, hR.op, hR.latches, hR.seq, hp, legalWhen_eq_true_iff.mp hlegal,
    by rw [htrace, List.length_append, hes, load_trace], hran.returned, hran.program,
    step_pending_hang hp (Env.next_of_hangsAt hh hran.moves)⟩

/-! ### The burst read, byte by byte (41_byte_transfers.md R130, R131) -/

/-- A read frame of one byte or more acknowledges all of its bytes but the last, which it not-acknowledges. -/
theorem readData_counts (d : Byte) (ds : List Byte) :
    (readData (d :: ds)).count .ack = ds.length ∧ (readData (d :: ds)).count .nack = 1 ∧
      (readData (d :: ds)).count .opened = 0 ∧ (readData (d :: ds)).count .closed = 0 := by
  induction ds generalizing d with
  | nil => simp [readData]
  | cons d' ds ih => simp [readData, ih d']

/-- The bytes received in the data part of a read frame are its bytes. -/
theorem readData_received (ds : List Byte) : (readData ds).filterMap Event.received = ds := by
  induction ds using readData.induct with
  | case1 => rfl
  | case2 d => rfl
  | case3 d e ds ih => simp [readData, List.filterMap_cons, Event.received, ih]

/-- The bytes received in a read frame are those of its data part. -/
theorem readFrame_received (d g : Byte) (sa sr sd : Status) (ds : List Byte) :
    (readFrame d g sa sr sd ds).filterMap Event.received = ds := by
  simp [readFrame, List.filterMap_cons, Event.received, readData_received]

/-- Settles O22: a read frame of no byte. -/
theorem zeroLengthReadIsTheAddressPhase : Obligations.ZeroLengthReadIsTheAddressPhase := by
  intro d g s hs hc
  obtain ⟨sa, sr, sd, as, e, hr, hlen⟩ := Env.ReadsBurst.exist d g 0 hc
  have hnil : receivedBytes as = [] := List.eq_nil_of_length_eq_zero hlen
  have hx := exec_readBytes hs hr
  rw [hnil] at hx
  exact ⟨_, sa, sr, sd, hx, afterCommand_completed s _ _ e, rfl, rfl⟩

/-- Settles O23: a read frame of the bytes received, of which there is one at least. -/
theorem burstReadAcknowledgesAllButTheLast : Obligations.BurstReadAcknowledgesAllButTheLast := by
  intro d g n s hs hn hc
  obtain ⟨sa, sr, sd, as, e, hr, hlen⟩ := Env.ReadsBurst.exist d g n.toNat hc
  refine ⟨_, readFrame d g sa sr sd (receivedBytes as), exec_readBytes hs hr, rfl, ?_⟩
  have hbytes : (readFrame d g sa sr sd (receivedBytes as)).filterMap Event.received =
      (receivedBytes as ++ s.buf.drop n.toNat).take n.toNat := by
    rw [readFrame_received, List.take_left' hlen]
  cases has : receivedBytes as with
  | nil => simp [has] at hlen; omega
  | cons b bs =>
    have hbs : n.toNat - 1 = bs.length := by simp [has] at hlen; omega
    obtain ⟨hack, hnack, hopened, hclosed⟩ := readData_counts b bs
    rw [has] at hbytes
    refine ⟨?_, ?_, ?_, ?_, hbytes⟩ <;> simp [readFrame, hack, hnack, hopened, hclosed, hbs]

/-! ### The events of a completed command, row by row (41_byte_transfers.md R138, R139) -/

/-- The event is the one of the primitive that the row issues with the operands of `i` and the buffer of `s`, whatever
`TMP` holds. -/
def IssuedBy (i : Instr) (s : State) (r : Row) (e : Event) : Prop :=
  ∃ u : State, u.latches = instrLatches i ∧ u.buf = s.buf ∧ rowPrim u r = .next e.request

/-- A command that `ENV` completes appends one event for each row of its step table. -/
theorem exec_completes_events {i : Instr} {s t : State} (hi : i.opcode?.isSome = true)
    (hc : s.env.CompletesFor (nprimOf i)) (h : exec i s = .next t) :
    CompletedFrom i s t ∧ ∃ es, t.trace = s.trace ++ es ∧ es.length = (planOf i).length ∧
      ∀ (j : Nat) (e : Event) (r : Row), es[j]? = some e → (planOf i)[j]? = some r → IssuedBy i s r e := by
  obtain ⟨t', hx, hdone, -⟩ := exec_completedFrom_or_hung hi (ready_of_exec_next hi h)
  cases h.symm.trans hx
  obtain ⟨k, es, hes, rfl, -, hall, -, hrows⟩ := oneEventPerPrimitive.2 i s t hi h
  obtain ⟨⟨hquiet, howned, hpend⟩, hrest⟩ := hdone hc
  exact ⟨⟨⟨hquiet, howned, hpend⟩, hrest⟩, es, hes, hall hpend, hrows⟩

/-- The event of a row that closes a frame is a close. -/
theorem IssuedBy.closed {i : Instr} {s : State} {r : Row} {e : Event} (h : IssuedBy i s r e) (hr : r.closes = true) :
    e = .closed := by
  obtain ⟨u, -, -, hrow⟩ := h
  rw [rowPrim_of_closes hr] at hrow
  cases e with
  | closed => rfl
  | opened | restarted | tx | rx | ack | nack => simp [Event.request] at hrow

/-- Settles O32: the last row of a step table closes, as every row that closes a frame does. -/
theorem commandCompletesUnlessItHangs : Obligations.CommandCompletesUnlessItHangs := by
  intro i s hi hs hc
  obtain ⟨t, hx, -⟩ := exec_completedFrom_or_hung hi hs
  obtain ⟨hdone, es, hes, hlen, hrows⟩ := exec_completes_events hi hc hx
  refine ⟨t, es, hx, hdone, hes, hlen.trans (planOf_length hi), hlen, ?_, fun j e r he hr => ⟨hrows j e r he hr, ?_⟩⟩
  · obtain ⟨r, hlast, hcloses⟩ := planOf_last_closes i hi
    rw [List.getLast?_eq_getElem?, ← hlen] at hlast
    have hpos : es.length - 1 < es.length := by have := succ_le_length_of_get hlast; omega
    rw [List.getLast?_eq_getElem?, List.getElem?_eq_getElem hpos,
      (hrows _ _ r (List.getElem?_eq_getElem hpos) hlast).closed hcloses]
  · rintro (rfl | rfl | rfl) <;> exact (hrows j e _ he hr).closed rfl

/-! ### The status never steers (41_byte_transfers.md R138) -/

/-- The primitive of a row that does not send `TMP` depends on the latches and the buffer alone. -/
theorem rowPrim_withTmp {r : Row} (h : r ≠ .send .tmp) (u : State) (tmp : Option Byte) :
    rowPrim { u with tmp := tmp } r = rowPrim u r := by
  cases r with
  | send src =>
    cases src with
    | tmp => exact absurd rfl h
    | devWrite | devRead | reg | value | buffer _ => rfl
  | openBus | restartBus | closeBus | closeResult | closeModify | receiveBuffer _ | receiveTmp | ack _ | notAck _ => rfl

/-- A row that does not send `TMP` gives events of one primitive under every answer of `ENV`. -/
theorem IssuedBy.request_eq {i : Instr} {s : State} {env1 env2 : Env} {r : Row} {e1 e2 : Event}
    (h1 : IssuedBy i { s with env := env1 } r e1) (h2 : IssuedBy i { s with env := env2 } r e2)
    (hr : r ≠ .send .tmp) : e1.request = e2.request := by
  obtain ⟨u1, hlatches1, hbuf1, hrow1⟩ := h1
  obtain ⟨u2, hlatches2, hbuf2, hrow2⟩ := h2
  have hsame : rowPrim u2 r = rowPrim { u1 with tmp := u2.tmp } r :=
    rowPrim_congr r (hlatches2.trans hlatches1.symm) rfl (hbuf2.trans hbuf1.symm)
  rw [hrow2, rowPrim_withTmp hr, hrow1] at hsame
  exact (Host.Outcome.next.inj hsame).symm

/-- The loop of ReadBytes sends nothing. -/
theorem send_notMem_readLoopRows (src : Source) (i n : Nat) : Row.send src ∉ readLoopRows i n := by
  intro h
  obtain ⟨j, hj⟩ := List.mem_iff_getElem?.mp h
  rw [readLoopRows_get] at hj
  split_ifs at hj <;> cases hj

/-- The loop of WriteBytes sends from the buffer alone. -/
theorem sendTmp_notMem_writeLoopRows (i n : Nat) : Row.send .tmp ∉ writeLoopRows i n := by
  intro h
  obtain ⟨j, hj⟩ := List.mem_iff_getElem?.mp h
  rw [writeLoopRows_get] at hj
  split_ifs at hj
  cases hj

/-- The byte written back by a read-modify-write, at position 11, is the only one sent from `TMP`. -/
theorem planOf_sendTmp {i : Instr} {k : Nat} (h : (planOf i)[k]? = some (.send .tmp)) :
    k = 11 ∧ (i.opcode? = some .writeBit ∨ i.opcode? = some .writeBits) := by
  have hmem : Row.send .tmp ∈ planOf i := List.mem_of_getElem? h
  have hwriteBack : (plan .writeBit 1)[k]? = some (.send .tmp) → k = 11 := fun hk =>
    (by decide : ∀ k < 13, (plan .writeBit 1)[k]? = some (.send .tmp) → k = 11) k (succ_le_length_of_get hk) hk
  cases i with
  | readBytes d g n =>
    simp [planOf, Instr.opcode?, plan, readPhaseRows, openRows, send_notMem_readLoopRows] at hmem
  | writeBytes d g n => simp [planOf, Instr.opcode?, plan, openRows, sendTmp_notMem_writeLoopRows] at hmem
  | readByte | writeByte | readBit | readBits =>
    simp [planOf, Instr.opcode?, plan, readByteRows, writeByteRows, readPhaseRows, openRows] at hmem
  | writeBit => exact ⟨hwriteBack h, .inl rfl⟩
  | writeBits => exact ⟨hwriteBack h, .inr rfl⟩
  | openBus | restartBus | closeBus | sendByte | receiveByte | ack | notAck => cases hmem

/-- `ENV` that completes the thirteen primitives of a read-modify-write reads a byte `b` and is written the byte `f b`. -/
theorem Env.ReadsByte.exist_writesByte {e : Env} (d g : Byte) (f : Byte → Byte) (h : e.CompletesFor 13) :
    ∃ sa sr sd b em sa' sr' sv e', e.ReadsByte d g sa sr sd b em ∧ em.WritesByte d g (f b) sa' sr' sv e' := by
  obtain ⟨as, em, hans⟩ := Env.Answers.exist (readCommandPrims d g) (e := e) fun m hm =>
    h m (List.take_subset_take_left _ (show 8 ≤ 13 by decide) hm)
  obtain ⟨sa, sr, sd, b, hr, -⟩ := hans.readsByte
  obtain ⟨sa', sr', sv, e', hw⟩ := Env.WritesByte.exist d g (f b) (hans.completesFor (n := 5) h)
  exact ⟨sa, sr, sd, b, em, sa', sr', sv, e', hr, hw⟩

/-- A ready read-modify-write appends the read frame of a byte `b`, and then the write frame of a byte `f b`
(42_bit_access.md R152, R153). -/
theorem exec_readModifyWrite {i : Instr} (hi : i.opcode? = some .writeBit ∨ i.opcode? = some .writeBits) :
    nprimOf i = 13 ∧ ∃ (d g : Byte) (f : Byte → Byte), ∀ {s : State} {sa sr sd sa' sr' sv : Status} {b : Byte}
      {em e' : Env}, Ready i s → s.env.ReadsByte d g sa sr sd b em → em.WritesByte d g (f b) sa' sr' sv e' →
      exec i s = .next (afterCommand s (readFrame d g sa sr sd [b] ++ writeFrame d g sa' sr' [f b] [sv]) .nothing e') := by
  cases i with
  | writeBit d g p v =>
    refine ⟨rfl, d, g, fun b => writeBitValue b p v, fun hs hr hw => ?_⟩
    obtain ⟨hboot, hwf, -⟩ := hs
    obtain ⟨hdev, hpos⟩ := Bool.and_eq_true_iff.mp hwf
    exact exec_writeBit hboot hdev hpos hr hw
  | writeBits d g p n v =>
    refine ⟨rfl, d, g, fun b => writeBitsValue b p n v, fun hs hr hw => ?_⟩
    obtain ⟨hboot, hwf, -⟩ := hs
    obtain ⟨hdev, hfield⟩ := Bool.and_eq_true_iff.mp hwf
    exact exec_writeBits hboot hdev hfield hr hw
  | _ => simp [Instr.opcode?] at hi

/-- The primitives of a read-modify-write are a function of the byte received at position 5. -/
theorem readModifyWrite_requests {i : Instr} (hi : i.opcode? = some .writeBit ∨ i.opcode? = some .writeBits) :
    ∃ prims : Byte → List Prim, ∀ s t, s.env.CompletesFor (nprimOf i) → exec i s = .next t →
      ∃ b, (t.trace.drop s.trace.length)[5]? = some (.rx b) ∧
        (t.trace.drop s.trace.length).map Event.request = prims b := by
  have hcommand : i.opcode?.isSome = true := by rcases hi with hi | hi <;> rw [hi] <;> rfl
  obtain ⟨hnprim, d, g, f, hexec⟩ := exec_readModifyWrite hi
  refine ⟨fun b => readCommandPrims d g ++ writeFramePrims d g (f b), fun s t hc h => ?_⟩
  obtain ⟨sa, sr, sd, b, em, sa', sr', sv, e', hr, hw⟩ := Env.ReadsByte.exist_writesByte d g f (hnprim ▸ hc)
  cases h.symm.trans (hexec (ready_of_exec_next hcommand h) hr hw)
  rw [afterCommand, List.drop_left]
  exact ⟨b, rfl, rfl⟩

/-- A command that `ENV` completes ends in a completion, which hands back a byte or nothing (41_byte_transfers.md
R135). -/
theorem exec_returned_ne_status {i : Instr} {s t : State} (hi : i.opcode?.isSome = true)
    (hc : s.env.CompletesFor (nprimOf i)) (h : exec i s = .next t) (st : Status) : t.returned ≠ .status st := by
  obtain ⟨op, -, hx, hR⟩ := exec_of_ready i s hi (ready_of_exec_next hi h)
  obtain ⟨t', ht, ⟨-, u, -, rfl, -⟩ | ⟨j, hj, hh, -⟩⟩ :=
    runRows_spec (nprimOf i) hR (by rw [planOf_length hi, Nat.zero_add])
  · cases h.symm.trans (hx.trans ht)
    rw [finish_returned]
    cases u.res <;> simp
  · exact absurd hc (Env.not_completesFor_of_hangsAt hh hj)

/-- Two states after completion that agree on what is presented next agree in everything but what was handed back, the
buffer, `TRACE` and `ENV`. -/
theorem Completed.eq_of_program {t1 t2 : State} (h1 : Completed t1) (h2 : Completed t2)
    (hprogram : t2.program = t1.program) :
    t2 = { t1 with returned := t2.returned, buf := t2.buf, trace := t2.trace, env := t2.env } := by
  obtain ⟨⟨hrun1, hop1, hlatches1, htmp1, hres1, hseq1, hidx1⟩, howned1, hpending1⟩ := h1
  obtain ⟨⟨hrun2, hop2, hlatches2, htmp2, hres2, hseq2, hidx2⟩, howned2, hpending2⟩ := h2
  cases t1
  cases t2
  simp_all

/-- Lists that agree outside of position `i` agree without it. -/
theorem eraseIdx_eq_of_getElem?_eq {α : Type} {l l' : List α} {i : Nat} (h : ∀ j, j ≠ i → l[j]? = l'[j]?) :
    l.eraseIdx i = l'.eraseIdx i := by
  refine List.ext_getElem? fun j => ?_
  rw [List.getElem?_eraseIdx, List.getElem?_eraseIdx]
  split
  · exact h j (by omega)
  · exact h (j + 1) (by omega)

/-- The primitives a completed command issues are the same under every answer of `ENV`, at each position but the one of a
byte sent from `TMP`. -/
theorem exec_requests_agree {i : Instr} {s : State} {e1 e2 : Env} {t1 t2 : State} (hi : i.opcode?.isSome = true)
    (hc1 : e1.CompletesFor (nprimOf i)) (hc2 : e2.CompletesFor (nprimOf i))
    (h1 : exec i { s with env := e1 } = .next t1) (h2 : exec i { s with env := e2 } = .next t2) (j : Nat)
    (hj : (planOf i)[j]? ≠ some (.send .tmp)) :
    ((t1.trace.drop s.trace.length).map Event.request)[j]? =
      ((t2.trace.drop s.trace.length).map Event.request)[j]? := by
  obtain ⟨-, es1, hes1, hlen1, hrows1⟩ := exec_completes_events hi hc1 h1
  obtain ⟨-, es2, hes2, hlen2, hrows2⟩ := exec_completes_events hi hc2 h2
  rw [hes1, hes2, List.drop_left, List.drop_left, List.getElem?_map, List.getElem?_map]
  rcases Nat.lt_or_ge j (planOf i).length with hlt | hge
  · have hr := List.getElem?_eq_getElem hlt
    have he1 := List.getElem?_eq_getElem (hlen1 ▸ hlt)
    have he2 := List.getElem?_eq_getElem (hlen2 ▸ hlt)
    rw [hr] at hj
    rw [he1, he2]
    exact congrArg some ((hrows1 j _ _ he1 hr).request_eq (hrows2 j _ _ he2 hr) fun hsend => hj (congrArg some hsend))
  · rw [List.getElem?_eq_none (hlen1 ▸ hge), List.getElem?_eq_none (hlen2 ▸ hge)]

/-- Settles O37: position by position the rows issue the same primitives, but for the byte a read-modify-write sends from
`TMP`, which is a function of the byte it received. -/
theorem statusNeverSteers : Obligations.StatusNeverSteers := by
  intro i s e1 e2 t1 t2 hi hc1 hc2 h1 h2 q1 q2
  have hagree := exec_requests_agree hi hc1 hc2 h1 h2
  have hother : i.opcode? ≠ some .writeBit → i.opcode? ≠ some .writeBits → q1 = q2 := fun hbit hbits =>
    List.ext_getElem? fun j => hagree j fun hsend => by
      obtain ⟨-, hop | hop⟩ := planOf_sendTmp hsend
      · exact hbit hop
      · exact hbits hop
  obtain ⟨⟨hcompleted1, hprogram1, -⟩, -⟩ := exec_completes_events hi hc1 h1
  obtain ⟨⟨hcompleted2, hprogram2, -⟩, -⟩ := exec_completes_events hi hc2 h2
  refine ⟨hother, eraseIdx_eq_of_getElem?_eq fun j hj => hagree j fun hsend => hj (planOf_sendTmp hsend).1,
    fun hreceived => ?_, exec_returned_ne_status hi hc1 h1,
    hcompleted1.eq_of_program hcompleted2 (hprogram2.trans hprogram1.symm)⟩
  by_cases hop : i.opcode? = some .writeBit ∨ i.opcode? = some .writeBits
  · obtain ⟨prims, hprims⟩ := readModifyWrite_requests hop
    obtain ⟨b1, hb1, hq1⟩ := hprims { s with env := e1 } t1 hc1 h1
    obtain ⟨b2, hb2, hq2⟩ := hprims { s with env := e2 } t2 hc2 h2
    cases hb1.symm.trans (hreceived.trans hb2)
    exact hq1.trans hq2.symm
  · exact hother (fun hbit => hop (.inl hbit)) fun hbits => hop (.inr hbits)

end Sys2Proof.Machine

/-! ### The bytes of the bit commands (42_bit_access.md R150 to R157) -/
namespace Sys2Proof.Machine

/-- The single-bit mask is the library's power of two. -/
theorem bitMask_eq_twoPow (k : Nat) : bitMask k = BitVec.twoPow 8 k := (BitVec.twoPow_eq 8 k).symm

/-- ReadBit's byte is the power of two of its position where that bit of the byte read is set, and zero where it is not
(42_bit_access.md R150). -/
theorem readBitValue_eq_ite (t p : Byte) :
    readBitValue t p = if t.getLsbD p.toNat then BitVec.ofNat 8 (2 ^ p.toNat) else 0 := by
  have hpow : BitVec.twoPow 8 p.toNat = BitVec.ofNat 8 (2 ^ p.toNat) :=
    BitVec.eq_of_toNat_eq (by rw [BitVec.toNat_twoPow, BitVec.toNat_ofNat])
  rw [readBitValue, bitMask_eq_twoPow, BitVec.and_twoPow, hpow]
  rfl

/-- ReadBit's byte is non-zero exactly when the bit read is set: the mask is not shifted out of the byte
(42_bit_access.md R150). -/
theorem readBitValue_ne_zero_iff {t p : Byte} (hp : p.toNat ≤ 7) :
    readBitValue t p ≠ 0 ↔ t.getLsbD p.toNat = true := by
  have hbit : (readBitValue t p).getLsbD p.toNat = t.getLsbD p.toNat := by
    rw [readBitValue, BitVec.getLsbD_and, bitMask_getLsbD _ _ hp, decide_eq_true rfl, Bool.and_true]
  constructor
  · intro hne
    by_contra hclear
    exact hne (by rw [readBitValue_eq_ite, if_neg hclear])
  · intro hset hzero
    rw [hzero, hset] at hbit
    simp at hbit

/-- ReadBits's byte is below `2^FLEN`: it has no bit from `FLEN` on (42_bit_access.md R151). -/
theorem readBitsValue_lt {t b n : Byte} (h : fieldOk b n = true) : (readBitsValue t b n).toNat < 2 ^ n.toNat :=
  Nat.lt_pow_two_of_testBit _ fun k hk => by
    rw [BitVec.testBit_toNat, readBitsValue_getLsbD h, decide_eq_false (Nat.not_lt.mpr hk), Bool.false_and]

/-- The double shift masks `VALUE` to the field and moves it to `LOW` (42_bit_access.md R155). -/
theorem placedField_eq_shl8 {b n : Byte} (h : fieldOk b n = true) (v : Byte) :
    placedField v b n = shl8 (v &&& BitVec.ofNat 8 (2 ^ n.toNat - 1)) (lowBit b n) := by
  obtain ⟨hb, -, -, hn⟩ := fieldOk_bounds h
  refine BitVec.eq_of_getLsbD_eq fun k hk => ?_
  rw [placedField_getLsbD h, shl8, lowBit, BitVec.getLsbD_shiftLeft, BitVec.getLsbD_and, lowOnes_getLsbD,
    Bool.eq_iff_iff]
  simp only [Bool.and_eq_true, decide_eq_true_eq, Bool.not_eq_true', decide_eq_false_iff_not]
  constructor
  · rintro ⟨⟨hlow, hhigh⟩, hv⟩
    exact ⟨⟨hk, by omega⟩, hv, by omega, by omega⟩
  · rintro ⟨⟨-, hlow⟩, hv, -, hlen⟩
    exact ⟨⟨by omega, by omega⟩, hv⟩

/-- The placed field has no bit outside the field (42_bit_access.md R155, R156). -/
theorem placedField_and_keepMask {b n : Byte} (h : fieldOk b n = true) (v : Byte) :
    placedField v b n &&& keepMask b n = 0 := by
  refine BitVec.eq_of_getLsbD_eq fun k hk => ?_
  rw [BitVec.getLsbD_and, placedField_getLsbD h, keepMask_getLsbD h k hk]
  by_cases hin : b.toNat + 1 - n.toNat ≤ k ∧ k ≤ b.toNat
  · rw [decide_eq_true hin]
    simp
  · rw [decide_eq_false hin]
    simp

/-- WriteBits keeps the bits outside the field (42_bit_access.md R157). -/
theorem writeBitsValue_and_keepMask {b n : Byte} (h : fieldOk b n = true) (t v : Byte) :
    writeBitsValue t b n v &&& keepMask b n = t &&& keepMask b n := by
  rw [writeBitsValue, BitVec.and_or_distrib_right, placedField_and_keepMask h, BitVec.and_assoc, BitVec.and_self]
  exact BitVec.or_zero

/-- ReadBits of the byte WriteBits makes is `VALUE` masked to the field's length (42_bit_access.md R157). -/
theorem readBitsValue_writeBitsValue {b n : Byte} (h : fieldOk b n = true) (t v : Byte) :
    readBitsValue (writeBitsValue t b n v) b n = v &&& BitVec.ofNat 8 (2 ^ n.toNat - 1) := by
  obtain ⟨hb, -, -, hn⟩ := fieldOk_bounds h
  refine BitVec.eq_of_getLsbD_eq fun k hk => ?_
  rw [readBitsValue_getLsbD h, BitVec.getLsbD_and, lowOnes_getLsbD]
  by_cases hlen : k < n.toNat
  · rw [writeBitsValue_getLsbD h _ (by omega), if_pos (by omega), Nat.add_sub_cancel_left, decide_eq_true hlen,
      decide_eq_true ⟨hk, hlen⟩, Bool.true_and, Bool.and_true]
  · rw [decide_eq_false hlen, decide_eq_false fun hk' => hlen hk'.2, Bool.false_and, Bool.and_false]

/-- Settles O42: `KEEP` bit by bit. -/
theorem keepMaskKeepsTheBitsOutsideTheField : Obligations.KeepMaskKeepsTheBitsOutsideTheField := by
  intro b n h k hk
  rw [keepMask_getLsbD h k hk, Bool.not_eq_true', decide_eq_false_iff_not]
  omega

/-- Settles O44: the two facts of the placed field. -/
theorem doubleShiftPlacesTheField : Obligations.DoubleShiftPlacesTheField :=
  fun v _ _ h => ⟨placedField_eq_shl8 h v, placedField_and_keepMask h v⟩

/-- Settles O45: what WriteBits makes of a byte, what it keeps of it, and what ReadBits takes out of it again. -/
theorem fieldRoundTripOnBytes : Obligations.FieldRoundTripOnBytes := fun t v _ _ h =>
  ⟨congrArg _ (placedField_eq_shl8 h v), writeBitsValue_and_keepMask h t v, readBitsValue_writeBitsValue h t v⟩

end Sys2Proof.Machine

/-! ### The bit commands, completed or hung (42_bit_access.md R150 to R153) -/
namespace Sys2Proof.Machine

/-- Settles O27: from where ReadBit ends when `ENV` completes it. -/
theorem readBitReturnsTheMaskedBit : Obligations.ReadBitReturnsTheMaskedBit := by
  intro d g p s hs
  refine exec_completes_with rfl hs fun hc => ?_
  obtain ⟨hboot, hwf, -⟩ := hs
  obtain ⟨hdev, hpos⟩ := Bool.and_eq_true_iff.mp hwf
  obtain ⟨sa, sr, sd, b, e, hr⟩ := Env.ReadsByte.exist d g hc
  exact ⟨_, exec_readBit hboot hdev hpos hr, rfl, sa, sr, sd, b, _, rfl, rfl, readBitValue_eq_ite b p,
    readBitValue_ne_zero_iff (of_decide_eq_true hpos)⟩

/-- Settles O28: from where ReadBits ends when `ENV` completes it. -/
theorem readBitsReturnsTheFieldRightAligned : Obligations.ReadBitsReturnsTheFieldRightAligned := by
  intro d g p n s hs
  refine exec_completes_with rfl hs fun hc => ?_
  obtain ⟨hboot, hwf, -⟩ := hs
  obtain ⟨hdev, hfield⟩ := Bool.and_eq_true_iff.mp hwf
  obtain ⟨sa, sr, sd, b, e, hr⟩ := Env.ReadsByte.exist d g hc
  exact ⟨_, exec_readBits hboot hdev hfield hr, rfl, sa, sr, sd, b, _, rfl, rfl, readBitsValue_lt hfield,
    fun k _ => readBitsValue_getLsbD hfield k⟩

/-- Settles O29: from where WriteBit ends when `ENV` completes it: the byte written is the changed byte read. -/
theorem writeBitReadsModifiesWrites : Obligations.WriteBitReadsModifiesWrites := by
  intro d g p v s hs
  refine exec_completes_with rfl hs fun hc => ?_
  obtain ⟨hboot, hwf, -⟩ := hs
  obtain ⟨hdev, hpos⟩ := Bool.and_eq_true_iff.mp hwf
  obtain ⟨sa, sr, sd, b, em, sa', sr', sv, e, hr, hw⟩ :=
    Env.ReadsByte.exist_writesByte d g (fun b => writeBitValue b p v) hc
  exact ⟨_, exec_writeBit hboot hdev hpos hr hw, rfl, rfl, sa, sr, sd, sa', sr', sv, b, _,
    (List.append_assoc _ _ _).symm, fun k hk => writeBitValue_getLsbD (of_decide_eq_true hpos) k hk⟩

/-- Settles O30: from where WriteBits ends when `ENV` completes it: the byte written is the byte read with the field
replaced. -/
theorem writeBitsReplacesTheFieldOnly : Obligations.WriteBitsReplacesTheFieldOnly := by
  intro d g p n v s hs
  refine exec_completes_with rfl hs fun hc => ?_
  obtain ⟨hboot, hwf, -⟩ := hs
  obtain ⟨hdev, hfield⟩ := Bool.and_eq_true_iff.mp hwf
  obtain ⟨sa, sr, sd, b, em, sa', sr', sv, e, hr, hw⟩ :=
    Env.ReadsByte.exist_writesByte d g (fun b => writeBitsValue b p n v) hc
  exact ⟨_, exec_writeBits hboot hdev hfield hr hw, rfl, rfl, sa, sr, sd, sa', sr', sv, b, _,
    (List.append_assoc _ _ _).symm, fun k hk => writeBitsValue_getLsbD hfield k hk⟩

end Sys2Proof.Machine

/-! ### A bit field of the fixture slave (42_bit_access.md R157) -/
namespace Sys2Proof.Machine

/-- The registers the bus shows are those of the one attached slave. -/
theorem Env.IsFixture.register {e : Env} {sl : Slave} (h : e.IsFixture sl) (r : Byte) :
    e.bus.register sl.addr r = some (sl.reg r) := by
  rw [h.2, Bus.register_fixture_one]

/-- A one-byte read frame against the one attached slave reads its register, and leaves it the one attached slave. -/
theorem Env.IsFixture.readsByte {e : Env} {sl : Slave} {d : Byte} (h : e.IsFixture sl) (hd : devOk d = true)
    (ha : sl.addr = d.extractLsb' 1 7) (g : Byte) :
    ∃ sa sr sd e', e.ReadsByte d g sa sr sd (sl.reg g) e' ∧ e'.IsFixture (sl.readingAt (g + 1)) := by
  obtain ⟨sa, sr, sd, e', hr, hmoves, hbus⟩ := Env.ReadsByte.of_free (g := g) hd ha (h.freeFor 8) h.2
  exact ⟨sa, sr, sd, e', hr, fun m hm => h.1 m (List.mem_of_mem_drop (hmoves ▸ hm)), hbus⟩

/-- A one-byte write frame against the one attached slave stores the byte, and leaves it the one attached slave. -/
theorem Env.IsFixture.writesByte {e : Env} {sl : Slave} {d : Byte} (h : e.IsFixture sl) (hd : devOk d = true)
    (ha : sl.addr = d.extractLsb' 1 7) (g v : Byte) :
    ∃ sa sr sv e', e.WritesByte d g v sa sr sv e' ∧ e'.IsFixture ((sl.setReg g v).writingAt (g + 1)) := by
  obtain ⟨sa, sr, sv, e', hw, hmoves, hbus⟩ := Env.WritesByte.of_free (g := g) v hd ha (h.freeFor 5) h.2
  exact ⟨sa, sr, sv, e', hw, fun m hm => h.1 m (List.mem_of_mem_drop (hmoves ▸ hm)), hbus⟩

/-- The one attached slave as WriteBits leaves it: the register has the byte written back, and the pointer is past it. -/
def Slave.afterWriteBits (sl : Slave) (g p n v : Byte) : Slave :=
  ((sl.readingAt (g + 1)).setReg g (writeBitsValue (sl.reg g) p n v)).writingAt (g + 1)

/-- WriteBits changes its register alone (42_bit_access.md R157). -/
theorem Slave.afterWriteBits_reg {sl : Slave} (hwf : sl.regs.wf = true) (g p n v r : Byte) :
    (sl.afterWriteBits g p n v).reg r = if r = g then writeBitsValue (sl.reg g) p n v else sl.reg r :=
  Slave.reg_setReg (sl.readingAt (g + 1)) g r _ hwf

/-- WriteBits against the one attached slave leaves the register as its arithmetic has it (42_bit_access.md R153). -/
theorem exec_writeBits_fixture {d g p n : Byte} {sl : Slave} {s : State} (hs : BootOk s) (hdev : devOk d = true)
    (hfield : fieldOk p n = true) (hfix : s.env.IsFixture sl) (ha : sl.addr = d.extractLsb' 1 7) (v : Byte) :
    ∃ t, exec (.writeBits d g p n v) s = .next t ∧ BootOk t ∧ t.env.IsFixture (sl.afterWriteBits g p n v) := by
  obtain ⟨sa, sr, sd, em, hr, hmid⟩ := hfix.readsByte hdev ha g
  obtain ⟨sa', sr', sv, e, hw, hend⟩ := hmid.writesByte hdev ha g (writeBitsValue (sl.reg g) p n v)
  exact ⟨_, exec_writeBits hs hdev hfield hr hw, afterCommand_bootOk _ _ _ _, hend⟩

/-- ReadBits against the one attached slave returns the field of the register, and the slave keeps its registers
(42_bit_access.md R151). -/
theorem exec_readBits_fixture {d g p n : Byte} {sl : Slave} {s : State} (hs : BootOk s) (hdev : devOk d = true)
    (hfield : fieldOk p n = true) (hfix : s.env.IsFixture sl) (ha : sl.addr = d.extractLsb' 1 7) :
    ∃ t, exec (.readBits d g p n) s = .next t ∧ t.returned = .byte (readBitsValue (sl.reg g) p n) ∧
      t.env.IsFixture (sl.readingAt (g + 1)) := by
  obtain ⟨sa, sr, sd, e, hr, hend⟩ := hfix.readsByte hdev ha g
  exact ⟨_, exec_readBits hs hdev hfield hr, rfl, hend⟩

/-- Settles O52: WriteBits leaves its byte in the register, ReadBits reads it back, and the law on bytes relates the
two. -/
theorem fieldRoundTripOnASlave : Obligations.FieldRoundTripOnASlave := by
  intro d g p n v sl s hs hdev hfield hfix ha hwf
  obtain ⟨t, ht, hboot, hwritten⟩ := exec_writeBits_fixture (g := g) hs hdev hfield hfix ha v
  obtain ⟨u, hu, hreturned, hread⟩ := exec_readBits_fixture (g := g) hboot hdev hfield hwritten ha
  obtain ⟨hbyte, hkept, hfieldBack⟩ := fieldRoundTripOnBytes (sl.reg g) v p n hfield
  have hreg := Slave.afterWriteBits_reg hwf g p n v
  refine ⟨t, u, writeBitsValue (sl.reg g) p n v, ht, hu, ?_, hbyte, hkept, fun r hr => ?_, ?_, fun r => ?_⟩
  · exact (hwritten.register g).trans (congrArg some ((hreg g).trans (if_pos rfl)))
  · exact (hwritten.register r).trans (congrArg some ((hreg r).trans (if_neg hr)))
  · rw [hreturned, hreg, if_pos rfl, hfieldBack]
  · exact (hread.register r).trans (hwritten.register r).symm

end Sys2Proof.Machine

/-! ### A write to an address no attached slave has (70_reset_and_hazards.md R207) -/
namespace Sys2Proof.Machine

/-- A slave that a frame's address byte did not select. -/
def Slave.unselected (sl : Slave) : Slave := { sl with expectAddr := false, sel := .none }

/-- After an open-bus, an address byte with another address does not select the slave, which does not acknowledge it. -/
theorem Slave.observe_otherAddress {sl : Slave} {d : Byte} (ha : sl.addr ≠ d.extractLsb' 1 7) :
    (sl.observe .openBus).1.observe (.writeByte d) = (sl.unselected, {}) :=
  if_neg ha.symm

/-- A slave that is not selected ignores the byte. -/
@[simp] theorem Slave.observe_writeByte_unselected (sl : Slave) (b : Byte) :
    sl.unselected.observe (.writeByte b) = (sl.unselected, {}) := rfl

/-- A slave that is not selected stays so, whatever bytes are sent. -/
theorem Slave.observeAll_unselected (sl : Slave) (vs : List Byte) :
    sl.unselected.observeAll (vs.map Prim.writeByte) = sl.unselected := by
  induction vs with
  | nil => rfl
  | cons v vs ih => simp [ih]

/-- A slave that is not selected acknowledges none of the bytes sent. -/
theorem Slave.replies_unselected (sl : Slave) (vs : List Byte) :
    sl.unselected.replies (vs.map Prim.writeByte) = List.replicate vs.length {} := by
  induction vs with
  | nil => rfl
  | cons v vs ih => simp [ih, List.replicate_succ]

/-- The opening of a frame to another address leaves the slave unselected. -/
theorem Slave.observeAll_openPrims_otherAddress {sl : Slave} {d : Byte} (ha : sl.addr ≠ d.extractLsb' 1 7) (g : Byte) :
    sl.observeAll (openPrims d g) = sl.unselected := by
  simp [openPrims, Slave.observe_otherAddress ha]

/-- The slave acknowledges nothing of the opening of a frame to another address. -/
theorem Slave.replies_openPrims_otherAddress {sl : Slave} {d : Byte} (ha : sl.addr ≠ d.extractLsb' 1 7) (g : Byte) :
    sl.replies (openPrims d g) = List.replicate 3 {} := by
  simp only [openPrims, Slave.replies_cons, Slave.observe_otherAddress ha, Slave.observe_writeByte_unselected]
  rfl

/-- Where the slave acknowledges nothing, every status is `noAck`. -/
theorem Reply.Gives.statuses_noAck {n : Nat} : ∀ {as : List Answer},
    List.Forall₂ Reply.Gives (List.replicate n {}) as → as.map Answer.status = List.replicate n .noAck := by
  induction n with
  | zero =>
    intro as h
    cases h
    rfl
  | succ n ih =>
    intro as h
    cases h with | cons hgives h =>
    rw [List.map_cons, ih h, hgives.1]
    rfl

/-- A write frame to another address than the one attached slave's completes, no byte of it acknowledged, and the slave
is not selected at its end. -/
theorem Env.IsFixture.writesBurst_otherAddress {e : Env} {sl : Slave} {d : Byte} (h : e.IsFixture sl)
    (ha : sl.addr ≠ d.extractLsb' 1 7) (g : Byte) (vs : List Byte) :
    ∃ as e', e.WritesBurst d g vs .noAck .noAck as e' ∧ as.map Answer.status = List.replicate vs.length .noAck ∧
      e'.IsFixture sl.unselected := by
  obtain ⟨as, e1, hopen, hfix1, hgives⟩ := Env.Answers.of_fixture (openPrims d g) h
  rw [Slave.observeAll_openPrims_otherAddress ha] at hfix1
  rw [Slave.replies_openPrims_otherAddress ha] at hgives
  obtain ⟨as', e2, hloop, hfix2, hgives'⟩ := Env.Answers.of_fixture (vs.map Prim.writeByte) hfix1
  rw [Slave.observeAll_unselected] at hfix2
  rw [Slave.replies_unselected] at hgives'
  obtain ⟨ac, e', hclose, hfix3, -⟩ := Env.answer_fixture hfix2 .closeBus
  match as, hopen.moves.2.2 with
  | [a0, a1, a2], _ =>
    obtain ⟨-, hdev, hreg⟩ : _ ∧ a1.status = .noAck ∧ a2.status = .noAck := by
      simpa [List.replicate_succ] using Reply.Gives.statuses_noAck hgives
    exact ⟨as', e', ⟨a0, a1, a2, ac, e1, e2, hopen, hloop, hclose, hdev, hreg⟩,
      Reply.Gives.statuses_noAck hgives', hfix3⟩

/-- Settles O55: the slave is not selected, so it acknowledges and stores nothing, and WriteBytes completes with its
frame all the same. -/
theorem writeToAnAbsentSlaveIsUnnoticed : Obligations.WriteToAnAbsentSlaveIsUnnoticed := by
  intro d g n sl s hs hfix ha
  have ⟨_, _, hbuf⟩ := hs
  have hlen : (s.buf.take n.toNat).length = n.toNat := List.length_take_of_le hbuf
  obtain ⟨as, e, hwrites, hstatuses, hend⟩ := hfix.writesBurst_otherAddress ha g (s.buf.take n.toNat)
  rw [hlen] at hstatuses
  refine ⟨_, exec_writeBytes hs hwrites, afterCommand_completed _ _ _ _, rfl, ?_, hend.register⟩
  rw [hstatuses]
  rfl

end Sys2Proof.Machine

/-! ### The frame of memory for the primitives (95_test_vectors.md section 1) -/
namespace Sys2Proof.Machine

/-- A register of the bus that the slave at the address keeps is kept when the attached slaves observe the primitive. -/
theorem Bus.register_observe {b : Bus} {p : Prim} {a : Addr7} {r : Byte}
    (h : ∀ sl, b.slaveAt a = some sl → (sl.observe p).1.reg r = sl.reg r) :
    (b.observe p).1.register a r = b.register a r := by
  rw [Bus.register_eq_slaveAt, Bus.register_eq_slaveAt, Bus.slaveAt_observe, Option.map_map]
  exact Option.map_congr h

/-- Settles O57: a primitive that hangs leaves the bus alone, and one that completes is observed by the attached slaves,
of which the one at the address does not store in the register. -/
theorem primitivesLeaveOtherRegistersAlone : Obligations.PrimitivesLeaveOtherRegistersAlone := by
  intro i p s t hi hx _ h slaves hbus a r hne
  rw [exec_of_prim hi] at h
  obtain ⟨-, -, ⟨-, rfl⟩ | ⟨ans, e, ha, rfl⟩⟩ := perform_cases h
  · rfl
  · change e.bus.register a r = s.env.bus.register a r
    rw [(Env.answer_exclusive hx ha).2]
    refine Bus.register_observe fun sl hsl => Slave.observe_reg fun b hb => ?_
    have hmem : sl ∈ slaves := by
      rw [hbus] at hsl
      exact List.mem_of_find?_eq_some hsl
    simpa only [not_and_or, Bool.not_eq_false, ne_eq] using hne b hb sl hmem (Bus.addr_of_slaveAt hsl)

end Sys2Proof.Machine
